-- ==== Sys2Proof/Word.lean ====
section
/-! DEFINITION. The value types of CRYPT-CORE (R7, R14): bytes, 32-bit words, bus addresses, and big numbers. -/

namespace Sys2Proof

/-- One message byte. -/
abbrev Byte := BitVec 8

/-- R7's `Word32`: the unsigned integers 0 .. 2^32 − 1. -/
abbrev Word := BitVec 32

/-- A byte address inside the 16 KiB register window, `paddr[13:0]` (R60, R62). -/
abbrev Addr := BitVec 14

/-- The index of a big-number register B0..B15: a 4-bit field of a command word (R91). -/
abbrev BReg := Fin 16

/-- R7's `BigNat`. The bound 2^OPW is not in the type: it is invariant I6 of R39 (`Safety.StateInv`). -/
abbrev BigNat := Nat

end Sys2Proof
end

