-- ==== Sys2Proof/Config.lean ====
section
/-! DEFINITION. What one build of CRYPT-CORE fixes (R4, R5), and the values the spec leaves free (UNSPEC, R11). -/

namespace Sys2Proof

/-- R4: the legal values of the build parameter `OPW`. -/
inductive OpWidth
  | w512 | w1024 | w2048 | w4096
  deriving DecidableEq, Repr

/-- The operand width in bits (R4). -/
def OpWidth.bits : OpWidth → Nat
  | .w512 => 512
  | .w1024 => 1024
  | .w2048 => 2048
  | .w4096 => 4096

/-- The build parameters of one core. Every theorem over all states holds for every legal `OPW`. -/
structure Config where
  opw : OpWidth
  deriving DecidableEq, Repr

namespace Config

/-- The width the spec takes when none is named (R4: 2048). DESIGN CHOICE,
safe over all states (log 1). -/
def standard : Config := ⟨.w2048⟩

/-- `OPW` as a number of bits. -/
def opwBits (c : Config) : Nat := c.opw.bits

/-- `BSTRIDE`, the bytes of address space of one big register: OPW/8 (R5). -/
def stride (c : Config) : Nat := c.opwBits / 8

/-- `OPWW`, the 32-bit words of one big register: OPW/32 (R5). -/
def words (c : Config) : Nat := c.opwBits / 32

/-- FREE VALUE: the n-th draw of an unspecified bus read (R38, S1 of 93_implementation_defined.md). DESIGN CHOICE, safe
(log 3). -/
opaque freeWord : Nat → Word

/-- FREE VALUE: the n-th draw of an unspecified big register (R230, R232; S2 and S3 of
93_implementation_defined.md). It is cut to OPW bits where it is used. DESIGN CHOICE, safe (log 2, 4). -/
opaque freeBig : Nat → BigNat

/-- FREE VALUE: the n-th draw of `pslverr` for a transfer presented while rst_n = 0, on which the spec is silent.
DESIGN CHOICE, safe (log 5). -/
opaque freeBit : Nat → Bool

end Config
end Sys2Proof
end

