-- ==== Sys2Proof/Syntax.lean ====
section
/-! DEFINITION. The instructions: one constructor per row of spec/opcode_table.json (R93, R96). -/

namespace Sys2Proof

/-- The seven commands of the CRYPT-CORE command set 1.0 (R93) and the two append ports (R96). -/
inductive Instr
  /-- SHA_INIT (R140). -/
  | shaInit
  /-- SHA_COMPRESS (R142). -/
  | shaCompress
  /-- SHA_FINAL (R144, R145). -/
  | shaFinal
  /-- MODEXP[.CHK] Bd, Bbase, Bexp, Bmod (R170). -/
  | modexp (rd base exponent modulus : BReg) (chk : Bool)
  /-- MODINV Bd, Ba, Bm (R174). -/
  | modinv (rd a m : BReg)
  /-- GCD Bd, Ba, Bb (R178). -/
  | gcd (rd a b : BReg)
  /-- CRT_DEC[.CHK] Bd, Bc, Bk, with the key bank base k (R190). -/
  | crtDec (rd c bank : BReg) (chk : Bool)
  /-- A bus write of `v` to HDIN32 (R137). -/
  | hdin32 (v : Word)
  /-- A bus write of `v` to HDIN8 (R138). -/
  | hdin8 (v : Word)
  deriving DecidableEq, Repr

end Sys2Proof
end

