-- ==== Sys2Proof/WellFormed.lean ====
section
/-! DEFINITION. Which terms of `Instr` stand for an instruction of the hardware. -/

namespace Sys2Proof

/-- The highest legal key bank base of CRT_DEC: the bank B[k..k+4] must not pass B15 (R91, R94(d), R195). -/
def maxBank : Nat := 11

/-- R94(d): CRT_DEC needs k ≤ 11. Every other operand is a 4-bit index, a flag or a data word, with no further limit. -/
def Instr.wf : Instr → Bool
  | .shaInit => true
  | .shaCompress => true
  | .shaFinal => true
  | .modexp _ _ _ _ _ => true
  | .modinv _ _ _ => true
  | .gcd _ _ _ => true
  | .crtDec _ _ bank _ => decide (bank.val ≤ maxBank)
  | .hdin32 _ => true
  | .hdin8 _ => true

/-- `i` is an instruction of the hardware. -/
abbrev WellFormed (i : Instr) : Prop := i.wf = true

end Sys2Proof
end

