-- ==== Sys2Proof/Decode.lean ====
section
/-! DEFINITION. Decoding a command word or a bus write into an instruction, total, rejecting by name (R90 to R96),
and the encoder (R97). -/

namespace Sys2Proof

/-- The two ways an operation reaches the core (R21, R96): a command word, which the ENGINE decodes at completion
(R113), or a legal bus write selected by its address. -/
inductive Code
  | command (w : Word)
  | busWrite (addr : Addr) (data : Word)
  deriving DecidableEq, Repr

/-- Why a code is no instruction: the four kinds of illegal word of R94, and a bus write to any other register. -/
inductive Reject
  /-- R94(a): an OPCODE value that is not in the table. -/
  | unassignedOpcode
  /-- R94(b): a listed OPCODE with a nonzero "must be 0" field. -/
  | fieldNotZero
  /-- R94(c): a nonzero bit in RSV[31:25]. -/
  | reservedBits
  /-- R94(d): CRT_DEC with RS2 > 11. -/
  | bankTooHigh
  /-- A bus write to an address other than HDIN32 and HDIN8: a register write, not an operation of the table (R96). -/
  | notAnAppend
  deriving DecidableEq, Repr

/-! ### The fields of format C (R90) -/

/-- OPCODE[7:0]. -/
def opcodeOf (w : Word) : BitVec 8 := w.extractLsb' 0 8
/-- RD[11:8]. -/
def rdOf (w : Word) : BReg := (w.extractLsb' 8 4).toFin
/-- RS1[15:12]. -/
def rs1Of (w : Word) : BReg := (w.extractLsb' 12 4).toFin
/-- RS2[19:16]. -/
def rs2Of (w : Word) : BReg := (w.extractLsb' 16 4).toFin
/-- RS3[23:20]. -/
def rs3Of (w : Word) : BReg := (w.extractLsb' 20 4).toFin
/-- CHK[24]. -/
def chkOf (w : Word) : Bool := w.getLsbD 24
/-- RSV[31:25]. -/
def rsvOf (w : Word) : BitVec 7 := w.extractLsb' 25 7

/-! ### Opcodes (R93) -/

def opShaInit : BitVec 8 := 0x10#8
def opShaCompress : BitVec 8 := 0x11#8
def opShaFinal : BitVec 8 := 0x12#8
def opModexp : BitVec 8 := 0x20#8
def opModinv : BitVec 8 := 0x21#8
def opGcd : BitVec 8 := 0x22#8
def opCrtDec : BitVec 8 := 0x30#8

/-- The word offset of HDIN32 in the register window (R71). -/
def addrHdin32 : Addr := 0x040#14
/-- The word offset of HDIN8 in the register window (R71). -/
def addrHdin8 : Addr := 0x044#14

/-- `i` if the "must be 0" bits of its row are zero. -/
def whenZero (mustBeZero : Bool) (i : Instr) : Except Reject Instr :=
  if mustBeZero then .ok i else .error .fieldNotZero

/-- R93 and R94: the command a word stands for. -/
def decodeCommand (w : Word) : Except Reject Instr :=
  if rsvOf w ≠ 0#7 then .error .reservedBits
  else if opcodeOf w = opShaInit then whenZero (w.extractLsb' 8 17 == 0#17) .shaInit
  else if opcodeOf w = opShaCompress then whenZero (w.extractLsb' 8 17 == 0#17) .shaCompress
  else if opcodeOf w = opShaFinal then whenZero (w.extractLsb' 8 17 == 0#17) .shaFinal
  else if opcodeOf w = opModexp then .ok (.modexp (rdOf w) (rs1Of w) (rs2Of w) (rs3Of w) (chkOf w))
  else if opcodeOf w = opModinv then whenZero (w.extractLsb' 20 5 == 0#5) (.modinv (rdOf w) (rs1Of w) (rs2Of w))
  else if opcodeOf w = opGcd then whenZero (w.extractLsb' 20 5 == 0#5) (.gcd (rdOf w) (rs1Of w) (rs2Of w))
  else if opcodeOf w = opCrtDec then
    if w.extractLsb' 20 4 ≠ 0#4 then .error .fieldNotZero
    else if maxBank < (rs2Of w).val then .error .bankTooHigh
    else .ok (.crtDec (rdOf w) (rs1Of w) (rs2Of w) (chkOf w))
  else .error .unassignedOpcode

/-- The decoder: command words by R93, bus writes by address (R96). -/
def decode : Code → Except Reject Instr
  | .command w => decodeCommand w
  | .busWrite addr v =>
    if addr = addrHdin32 then .ok (.hdin32 v)
    else if addr = addrHdin8 then .ok (.hdin8 v)
    else .error .notAnAppend

/-! ### The encoder -/

/-- A register index as its 4-bit field, widened to a word (R91: zero-extended). -/
def regField (r : BReg) : Word := (BitVec.ofFin (w := 4) r).setWidth 32

/-- One command word: `op | d<<8 | rs1<<12 | rs2<<16 | rs3<<20 | chk<<24` (R90, R97). -/
def commandWord (op : BitVec 8) (rd rs1 rs2 rs3 : BReg) (chk : Bool) : Word :=
  op.setWidth 32 ||| regField rd <<< 8 ||| regField rs1 <<< 12 ||| regField rs2 <<< 16 ||| regField rs3 <<< 20 |||
    (BitVec.ofBool chk).setWidth 32 <<< 24

/-- R97: the word (or the bus write) that stands for an instruction. Unused fields are 0. -/
def encode : Instr → Code
  | .shaInit => .command (commandWord opShaInit 0 0 0 0 false)
  | .shaCompress => .command (commandWord opShaCompress 0 0 0 0 false)
  | .shaFinal => .command (commandWord opShaFinal 0 0 0 0 false)
  | .modexp rd base exponent modulus chk => .command (commandWord opModexp rd base exponent modulus chk)
  | .modinv rd a m => .command (commandWord opModinv rd a m 0 false)
  | .gcd rd a b => .command (commandWord opGcd rd a b 0 false)
  | .crtDec rd c bank chk => .command (commandWord opCrtDec rd c bank 0 chk)
  | .hdin32 v => .busWrite addrHdin32 v
  | .hdin8 v => .busWrite addrHdin8 v

/-! ### The numbering of spec/opcode_table.json -/

/-- The code whose bits, numbered as the opcode table numbers them, are `w`. A format C row is the 32-bit command
word. A format MMIO-W row gives `paddr` in bits 13:0 (bits 15:14 are padding); its operand word `pwdata` has no bits in
the table and follows in bits 47:16. The two append addresses are no legal opcode byte, so the two kinds never
overlap. DESIGN CHOICE, safe (log 14). -/
def tableCode (nbits w : Nat) : Code :=
  if nbits ≤ 16 ∨ w % 2 ^ 16 = 0x040 ∨ w % 2 ^ 16 = 0x044 then
    .busWrite (BitVec.ofNat 14 w) (BitVec.ofNat 32 (w / 2 ^ 16))
  else .command (BitVec.ofNat 32 w)

/-- What the decoder reads from an instruction whose bits, numbered as the opcode table numbers them, are `w`. -/
def decodeTableWord (nbits w : Nat) : Option Instr :=
  match decode (tableCode nbits w) with
  | .ok i => some i
  | .error _ => none

end Sys2Proof
end

