-- ==== Sys2Proof/Machine/State.lean ====
section
/-! DEFINITION. The state of CRYPT-CORE as plain data (R20), the inputs that the outside world has lined up for it,
and the state right after a hardware reset (R230). -/

namespace Sys2Proof.Machine

/-- No rule of this spec leaves the machine without a next state ("Nothing in this spec uses `stuck`",
93_implementation_defined.md): every error is recorded in STATUS and ERRCODE and every illegal bus access gets
`pslverr`. So there is no fault: the type has no constructor, nothing raises one, which is neither safe nor unsafe. -/
inductive Fault
  deriving DecidableEq, Repr

/-- Why an instruction has no meaning. -/
inductive Refusal
  /-- Raised by `exec` alone, for an instruction that has no meaning yet. Safe. No arm of `exec` uses it now. -/
  | notModelled (mnemonic : String)
  deriving DecidableEq, Repr

/-- The nine error causes of R200. -/
inductive ErrorCode
  | illegalCmd | busy | invalidBlockLength | hashFinalized | lengthOverflow
  | modulusZero | nonInvertible | unitOutOfRange | resultWidth
  deriving DecidableEq, Repr

/-- The SHA-1 unit: the source's HashState (R29 to R34). -/
structure HashState where
  /-- H0..H4 (R29). -/
  h : Vector Word 5
  /-- `hcnt`, the total-consumed-byte counter (R30). -/
  hcnt : BitVec 64
  /-- `buf[0..63]`, the byte buffer, which is also the block register BLK0..BLK15 (R33). -/
  buf : Vector Byte 64
  /-- `buflen`, 0..64; 64 only while a FILL is pending (R20, R31). -/
  buflen : Nat
  /-- `hfin` (R34). -/
  hfin : Bool
  deriving DecidableEq, Repr

/-- What `Latch` recorded at acceptance: the big registers a command reads, each with its value (R116). -/
abbrev Latched := List (BReg × BigNat)

/-- `pend`, the operation the ENGINE has yet to complete (R36). -/
inductive Pending
  | none
  /-- `CMDOP(w)`: an accepted command word with its latched operand values. -/
  | command (w : Word) (latched : Latched)
  /-- `FILL(rest)`: a compression is due, and `rest` is still to be appended after it. -/
  | fill (rest : List Byte)
  deriving DecidableEq, Repr

/-- One completed transfer of the register bus, as its ports carry it (R60). -/
structure Transfer where
  /-- `pwrite` -/
  write : Bool
  /-- `paddr` -/
  addr : Addr
  /-- `pwdata` -/
  data : Word
  /-- `pstrb` -/
  strb : BitVec 4
  deriving DecidableEq, Repr

/-- The core's answer to a transfer: `pslverr`, and `prdata` for a read (R60). -/
inductive Reply
  | read (prdata : Word) (pslverr : Bool)
  | write (pslverr : Bool)
  deriving DecidableEq, Repr

/-- Who moves in one step (R110, R208): the ENGINE, the HOST with one bus transfer, or `rst_n` held low, perhaps with
a transfer presented meanwhile (R230). -/
inductive Turn
  | engine
  | host (t : Transfer)
  | reset (presented : Option Transfer)
  deriving DecidableEq, Repr

/-- The state. `irqEn` to `pend` are exactly R20's record. `cfg`, `turns`, `reply` and `draws` are the model's own: the
build parameters, the inputs lined up by the outside world (an arbitrary interleaving of the two agents of R13), the
response on the bus's output ports, and the number of free values drawn so far. -/
structure State where
  /-- Build parameters (R4, R5); no step changes them. -/
  cfg : Config
  /-- CTRL.IRQ_EN (R24). -/
  irqEn : Bool
  /-- STATUS.BUSY (R25). -/
  busy : Bool
  /-- STATUS.DONE (R25). -/
  done : Bool
  /-- STATUS.ERR (R25). -/
  err : Bool
  /-- ERRCODE.CODE (R26). -/
  errcode : BitVec 8
  /-- LASTCMD (R28). -/
  lastcmd : Word
  /-- The SHA-1 unit (R29 to R34). -/
  sha : HashState
  /-- B0..B15 (R35). -/
  b : Vector BigNat 16
  /-- `pend` (R36). -/
  pend : Pending
  /-- Who moves in the coming steps, first mover first. After the last one the ENGINE completes what is pending.
  DESIGN CHOICE, safe over all states (log 7). -/
  turns : List Turn
  /-- The response to the last transfer; none before the first. DESIGN CHOICE, unsafe only between transfers (log 6). -/
  reply : Option Reply
  /-- How many free values have been drawn. DESIGN CHOICE, safe (log 26). -/
  draws : Nat
  deriving DecidableEq, Repr

/-- R130: the standard SHA-1 initial hash value. -/
def HashState.iv : Vector Word 5 := #v[0x67452301#32, 0xEFCDAB89#32, 0x98BADCFE#32, 0x10325476#32, 0xC3D2E1F0#32]

/-- The SHA unit after reset and after SHA_INIT (R140, R230). -/
def HashState.fresh : HashState :=
  { h := HashState.iv, hcnt := 0#64, buf := Vector.replicate 64 0#8, buflen := 0, hfin := false }

/-- The content of an unspecified big register: free draw number n, as an OPW-bit number (R11, R231). -/
def drawBig (cfg : Config) (n : Nat) : BigNat := Config.freeBig n % 2 ^ cfg.opwBits

/-- B0..B15 after a hardware reset: sixteen free draws from number n on (R230, R231). -/
def drawBank (cfg : Config) (n : Nat) : Vector BigNat 16 := Vector.ofFn fun i => drawBig cfg (n + i.val)

/-- The state after a hardware reset of a core with build parameters `cfg`, the n-th free value being the next (R230). -/
def State.afterReset (cfg : Config) (n : Nat) : State :=
  { cfg := cfg
    irqEn := false
    busy := false
    done := false
    err := false
    errcode := 0#8
    lastcmd := 0#32
    sha := HashState.fresh
    b := drawBank cfg n
    pend := .none
    turns := []
    reply := none
    draws := n + 16 }

/-- The machine right after its power-up hardware reset, with the default OPW and no transfer lined up (R4, R230). -/
def State.reset : State := State.afterReset Config.standard 0

end Sys2Proof.Machine
end

