-- ==== Sys2Proof/Machine/Ops.lean ====
section
/-! DEFINITION. The shared operations: byte order, recording an error (this hardware's exception) and clearing it,
the completion bookkeeping, the big register file, and the words of a big number. -/

namespace Sys2Proof.Machine

/-! ### Byte order (R10) -/

/-- `be32(b0,b1,b2,b3)`: a big-endian 32-bit word. -/
def be32 (b0 b1 b2 b3 : Byte) : Word := b0 ++ b1 ++ b2 ++ b3

/-- `wbytes(w)`: the 4 bytes of a word, most significant first. -/
def wbytes (w : Word) : List Byte :=
  [w.extractLsb' 24 8, w.extractLsb' 16 8, w.extractLsb' 8 8, w.extractLsb' 0 8]

/-- `be64bytes(v)`: the 8 bytes of a 64-bit value, most significant first. -/
def be64bytes (v : BitVec 64) : List Byte :=
  [v.extractLsb' 56 8, v.extractLsb' 48 8, v.extractLsb' 40 8, v.extractLsb' 32 8,
   v.extractLsb' 24 8, v.extractLsb' 16 8, v.extractLsb' 8 8, v.extractLsb' 0 8]

/-! ### Errors: the core's exceptions (R200, R204, R211, R212) -/

/-- R200: the code of each error. -/
def ErrorCode.code : ErrorCode → BitVec 8
  | .illegalCmd => 0x01#8
  | .busy => 0x02#8
  | .invalidBlockLength => 0x03#8
  | .hashFinalized => 0x04#8
  | .lengthOverflow => 0x05#8
  | .modulusZero => 0x06#8
  | .nonInvertible => 0x07#8
  | .unitOutOfRange => 0x08#8
  | .resultWidth => 0x09#8

/-- R204, `Error(code)`: ERR is set and the first code since ERR was cleared is kept. There is no trap entry: nothing
else is saved and no handler is entered (R211). -/
def raiseError (c : ErrorCode) (s : State) : State :=
  { s with err := true, errcode := if s.errcode = 0#8 then c.code else s.errcode }

/-- R25, R212: the way back from an error. Writing 1 to STATUS.ERR clears ERR and zeroes ERRCODE. -/
def clearError (s : State) : State := { s with err := false, errcode := 0#8 }

/-- R11, R206: the state a body built, or the state before it with only the error recorded. -/
def orRaise (body : Except ErrorCode State) (s : State) : State :=
  match body with
  | .ok t => t
  | .error c => raiseError c s

/-! ### The lifecycle of an operation -/

/-- R113: the bookkeeping at the end of every command, successful or not. -/
def finishCommand (s : State) : State := { s with done := true, pend := .none, busy := false }

/-- R113: the completion of a command with the given Exec body. -/
def completeCommand (body : Except ErrorCode State) (s : State) : Host.Outcome State Fault Refusal :=
  .next (finishCommand (orRaise body s))

/-- R11: a bus-write handler. An error drops the write; there is no completion bookkeeping (R203). -/
def handleWrite (body : Except ErrorCode State) (s : State) : Host.Outcome State Fault Refusal :=
  .next (orRaise body s)

/-! ### Big-number registers (R12, R35) -/

/-- Read B[i]. -/
def readBig (s : State) (i : BReg) : BigNat := s.b[i]

/-- Write B[i]. -/
def writeBig (i : BReg) (v : BigNat) (s : State) : State := { s with b := s.b.set i v }

/-- R12, R70: word j of a big number, bits [32j+31 : 32j]. -/
def getWord (n : BigNat) (j : Nat) : Word := BitVec.ofNat 32 (n / 2 ^ (32 * j))

/-- R12, R70: the big number with word j replaced. -/
def setWord (n : BigNat) (j : Nat) (v : Word) : BigNat :=
  n % 2 ^ (32 * j) + v.toNat * 2 ^ (32 * j) + n / 2 ^ (32 * (j + 1)) * 2 ^ (32 * (j + 1))

end Sys2Proof.Machine
end

