-- ==== Sys2Proof/Machine/Flags.lean ====
section
/-! DEFINITION. The status and control words as software reads them, the write-1-to-clear of STATUS, and the interrupt
output (R22 to R28, R37). -/

namespace Sys2Proof.Machine

/-- R22: ID reads CORE = 0x4352, MAJOR = 1, MINOR = 0. -/
def idWord : Word := 0x4352#16 ++ 0x01#8 ++ 0x00#8

/-- R23: PARAM reads `{0x00, NBREG, OPW[15:0]}`. -/
def paramWord (c : Config) : Word := 0x00#8 ++ 0x10#8 ++ BitVec.ofNat 16 c.opwBits

/-- R24: CTRL reads IRQ_EN in bit 0; SRST reads 0. -/
def ctrlWord (s : State) : Word := 0#31 ++ BitVec.ofBool s.irqEn

/-- R25: STATUS reads HFIN, ERR, DONE and BUSY in bits 3, 2, 1 and 0. -/
def statusWord (s : State) : Word :=
  0#28 ++ BitVec.ofBool s.sha.hfin ++ BitVec.ofBool s.err ++ BitVec.ofBool s.done ++ BitVec.ofBool s.busy

/-- R26: ERRCODE reads CODE in bits 7:0. -/
def errcodeWord (s : State) : Word := 0#24 ++ s.errcode

/-- R31: HBUFLEN reads `buflen` in the six bits 5:0. -/
def hbuflenWord (s : State) : Word := 0#26 ++ BitVec.ofNat 6 s.sha.buflen

/-- R25, R67: the effect of a STATUS write. Bit 1 clears DONE, bit 2 clears ERR and ERRCODE, every other bit is
ignored. -/
def writeStatus (v : Word) (s : State) : State :=
  let s1 := if v.getLsbD 1 then { s with done := false } else s
  if v.getLsbD 2 then clearError s1 else s1

/-- R37, R210: the interrupt output, `irq_en and (done or err)`. -/
def irq (s : State) : Bool := s.irqEn && (s.done || s.err)

end Sys2Proof.Machine
end

