-- ==== Sys2Proof/Machine/Operands.lean ====
section
/-! DEFINITION. Operands: which registers a command reads, their latching at acceptance, and reading a latched operand
(R91, R116). -/

namespace Sys2Proof.Machine

/-- R116: the registers that a decoded command reads. CRT_DEC reads the bank B[k..k+4] beside c (R91, R195). -/
def sourceRegs : Instr → List BReg
  | .shaInit => []
  | .shaCompress => []
  | .shaFinal => []
  | .modexp _ base exponent modulus _ => [base, exponent, modulus]
  | .modinv _ a m => [a, m]
  | .gcd _ a b => [a, b]
  | .crtDec _ c bank _ => [c, bank, bank + 1, bank + 2, bank + 3, bank + 4]
  | .hdin32 _ => []
  | .hdin8 _ => []

/-- The register a big-number command writes (R117); none for the others. -/
def destReg : Instr → Option BReg
  | .shaInit => none
  | .shaCompress => none
  | .shaFinal => none
  | .modexp rd _ _ _ _ => some rd
  | .modinv rd _ _ => some rd
  | .gcd rd _ _ => some rd
  | .crtDec rd _ _ _ => some rd
  | .hdin32 _ => none
  | .hdin8 _ => none

/-- R116, `Latch(v)`: for an illegal word nothing is latched. DEDUCED, safe (log 11). -/
def latch (w : Word) (b : Vector BigNat 16) : Latched :=
  match decodeCommand w with
  | .ok i => (sourceRegs i).map fun r => (r, b[r])
  | .error _ => []

/-- An operand of the running command: the value latched for the register (R116). Where nothing was latched for it
(no command is pending) it is the register's content, which R116 says is the same value. DESIGN CHOICE,
safe in every run (log 10). -/
def operand (s : State) (r : BReg) : BigNat :=
  match s.pend with
  | .command _ latched => (latched.lookup r).getD (readBig s r)
  | .none => readBig s r
  | .fill _ => readBig s r

end Sys2Proof.Machine
end

