-- ==== Sys2Proof/Machine/Lifecycle.lean ====
section
/-! DEFINITION. Accepting a command, and the two resets (R112, R230, R232). -/

namespace Sys2Proof.Machine

/-- R112: a command word is accepted; its operands are latched. -/
def acceptCommand (v : Word) (s : State) : State :=
  { s with lastcmd := v, done := false, pend := .command v (latch v s.b), busy := true }

/-- R112: `SubmitCommand(v)`. While busy the word is dropped. -/
def submitCommand (v : Word) (s : State) : State :=
  if s.busy then raiseError .busy s else acceptCommand v s

/-- R232: the register whose content an abort leaves unspecified: the destination of a pending big-number command. -/
def abortedDest (p : Pending) : Option BReg :=
  match p with
  | .none => none
  | .fill _ => none
  | .command w _ =>
    match decodeCommand w with
    | .ok i => destReg i
    | .error _ => none

/-- R232: `SoftReset()`. The aborted command's destination takes a free value. -/
def softReset (s : State) : State :=
  let r : State :=
    { s with
      pend := .none, busy := false, irqEn := false, done := false, err := false, errcode := 0#8, lastcmd := 0#32,
      sha := HashState.fresh }
  match abortedDest s.pend with
  | none => r
  | some rd => { writeBig rd (drawBig s.cfg s.draws) r with draws := s.draws + 1 }

/-- R230: a hardware reset. The inputs still lined up and the bus's response ports are not the core's
state. DEDUCED, unsafe only for a transfer that a reset cuts short (log 15). -/
def hardwareReset (s : State) : State :=
  { State.afterReset s.cfg s.draws with turns := s.turns, reply := s.reply }

end Sys2Proof.Machine
end

