-- ==== Sys2Proof/Machine/Sha1.lean ====
section
/-! DEFINITION. The SHA-1 unit: the compression function (R130 to R133), appending bytes (R134 to R139), and the
meanings of SHA_INIT, SHA_COMPRESS, SHA_FINAL, HDIN32 and HDIN8. -/

namespace Sys2Proof.Machine

/-! ### The compression function -/

/-- R9: `rotl(n, s)`, for 1 ≤ s ≤ 31. -/
def rotl (x : Word) (n : Nat) : Word := (x <<< n) ||| (x >>> (32 - n))

/-- Word k of a block, big-endian (R33, R131). -/
def blkWord (buf : Vector Byte 64) (k : Fin 16) : Word :=
  be32 (buf[4 * k.val]'(by omega)) (buf[4 * k.val + 1]'(by omega)) (buf[4 * k.val + 2]'(by omega))
    (buf[4 * k.val + 3]'(by omega))

/-- R131: the next schedule word, from the words so far, newest first. -/
def nextWord (ws : List Word) : Word :=
  rotl (ws.getD 2 0#32 ^^^ ws.getD 7 0#32 ^^^ ws.getD 13 0#32 ^^^ ws.getD 15 0#32) 1

/-- `n` more schedule words in front of the words so far. -/
def extendSchedule : Nat → List Word → List Word
  | 0, ws => ws
  | n + 1, ws => extendSchedule n (nextWord ws :: ws)

/-- R131: the schedule w[0..79] of a block, w[0] first. -/
def schedule (buf : Vector Byte 64) : List Word :=
  (extendSchedule 64 (List.ofFn (blkWord buf)).reverse).reverse

/-- The working variables a..e of R133. -/
structure Vars where
  a : Word
  b : Word
  c : Word
  d : Word
  e : Word
  deriving DecidableEq, Repr

/-- R132: f(b, c, d) in round i. -/
def roundF (i : Nat) (b c d : Word) : Word :=
  if i ≤ 19 then d ^^^ (b &&& (c ^^^ d))
  else if i ≤ 39 then b ^^^ c ^^^ d
  else if i ≤ 59 then (b &&& c) ||| (d &&& (b ||| c))
  else b ^^^ c ^^^ d

/-- R132: k in round i. -/
def roundK (i : Nat) : Word :=
  if i ≤ 19 then 0x5A827999#32
  else if i ≤ 39 then 0x6ED9EBA1#32
  else if i ≤ 59 then 0x8F1BBCDC#32
  else 0xCA62C1D6#32

/-- R133: round i with schedule word w. -/
def roundStep (i : Nat) (w : Word) (v : Vars) : Vars :=
  { a := rotl v.a 5 + roundF i v.b v.c v.d + v.e + roundK i + w, b := v.a, c := rotl v.b 30, d := v.c, e := v.d }

/-- R133: the rounds from round i on, one for each schedule word. -/
def rounds : Nat → List Word → Vars → Vars
  | _, [], v => v
  | i, w :: ws, v => rounds (i + 1) ws (roundStep i w v)

/-- R133: `Compress(H, buf)`. -/
def compress (h : Vector Word 5) (buf : Vector Byte 64) : Vector Word 5 :=
  let v := rounds 0 (schedule buf) { a := h[0], b := h[1], c := h[2], d := h[3], e := h[4] }
  #v[h[0] + v.a, h[1] + v.b, h[2] + v.c, h[3] + v.d, h[4] + v.e]

/-! ### Appending bytes -/

/-- R135: LIMIT, the most bytes a message may have. -/
def lengthLimit : Nat := 2 ^ 61 - 1

/-- R134: `AppendByte(b)`. -/
def appendByte (b : Byte) (u : HashState) : HashState :=
  { u with buf := u.buf.setIfInBounds u.buflen b, buflen := u.buflen + 1 }

/-- The loop of R137: append until the bytes run out, or until the block is full; then the bytes not yet appended are
given back. -/
def appendUntilFull : List Byte → HashState → HashState × Option (List Byte)
  | [], u => (u, none)
  | b :: rest, u =>
    let u' := appendByte b u
    if u'.buflen = 64 then (u', some rest) else appendUntilFull rest u'

/-- R136: the first failing check of an append of n bytes. -/
def appendCheck (n : Nat) (s : State) : Option ErrorCode :=
  if s.busy then some .busy
  else if s.sha.hfin then some .hashFinalized
  else if lengthLimit < s.sha.hcnt.toNat + n then some .lengthOverflow
  else none

/-- R137, R138: a checked append of message bytes, which makes a FILL pending when it fills the block. -/
def appendBytes (bytes : List Byte) (s : State) : Except ErrorCode State :=
  match appendCheck bytes.length s with
  | some c => .error c
  | none =>
    match appendUntilFull bytes { s.sha with hcnt := s.sha.hcnt + BitVec.ofNat 64 bytes.length } with
    | (u, none) => .ok { s with sha := u }
    | (u, some rest) => .ok { s with sha := u, pend := .fill rest, busy := true }

/-- R139: `CompleteFill(rest)` on the SHA unit. -/
def fillUnit (rest : List Byte) (u : HashState) : HashState :=
  rest.foldl (fun u b => appendByte b u) { u with h := compress u.h u.buf, buflen := 0 }

/-- R113, R139: the ENGINE completion of a FILL. DONE, ERR and ERRCODE are not changed. -/
def completeFill (rest : List Byte) (s : State) : State :=
  { s with sha := fillUnit rest s.sha, pend := .none, busy := false }

/-- The bytes of an HDIN32 write, first message byte first (R137). -/
def hdin32Bytes (v : Word) : List Byte := wbytes v

/-- The byte of an HDIN8 write; v[31:8] is ignored (R138). -/
def hdin8Bytes (v : Word) : List Byte := [v.extractLsb' 0 8]

/-- HDIN32 (R137). -/
def execHdin32 (v : Word) (s : State) : Host.Outcome State Fault Refusal :=
  handleWrite (appendBytes (hdin32Bytes v) s) s

/-- HDIN8 (R138). -/
def execHdin8 (v : Word) (s : State) : Host.Outcome State Fault Refusal :=
  handleWrite (appendBytes (hdin8Bytes v) s) s

/-! ### The commands of the SHA unit -/

/-- R140: `ExecShaInit`. -/
def shaInitBody (s : State) : Except ErrorCode State := .ok { s with sha := HashState.fresh }

/-- SHA_INIT (R140). -/
def execShaInit (s : State) : Host.Outcome State Fault Refusal := completeCommand (shaInitBody s) s

/-- R142: `ExecShaCompress`. -/
def shaCompressBody (s : State) : Except ErrorCode State :=
  if s.sha.hfin then .error .hashFinalized
  else if s.sha.buflen ≠ 0 then .error .invalidBlockLength
  else if lengthLimit < s.sha.hcnt.toNat + 64 then .error .lengthOverflow
  else .ok { s with sha := { s.sha with h := compress s.sha.h s.sha.buf, hcnt := s.sha.hcnt + 64#64 } }

/-- SHA_COMPRESS (R142). -/
def execShaCompress (s : State) : Host.Outcome State Fault Refusal := completeCommand (shaCompressBody s) s

/-- R145: `PadByte(b)`. -/
def padByte (b : Byte) (u : HashState) : HashState :=
  let u' := appendByte b u
  if u'.buflen = 64 then { u' with h := compress u'.h u'.buf, buflen := 0 } else u'

/-- R145: `while buflen ≠ 56: PadByte(0x00)`, at most `fuel` times. -/
def padZeros : Nat → HashState → HashState
  | 0, u => u
  | fuel + 1, u => if u.buflen = 56 then u else padZeros fuel (padByte 0x00#8 u)

/-- R145: the effect of SHA_FINAL. From buflen ≤ 63 the loop runs fewer than 64 times. -/
def finalizeUnit (u : HashState) : HashState :=
  let padded := padZeros 64 (padByte 0x80#8 u)
  { (be64bytes (u.hcnt * 8#64)).foldl (fun u b => padByte b u) padded with hfin := true }

/-- R144, R145: `ExecShaFinal`. -/
def shaFinalBody (s : State) : Except ErrorCode State :=
  if s.sha.hfin then .error .hashFinalized
  else if lengthLimit < s.sha.hcnt.toNat then .error .lengthOverflow
  else .ok { s with sha := finalizeUnit s.sha }

/-- SHA_FINAL (R144, R145). -/
def execShaFinal (s : State) : Host.Outcome State Fault Refusal := completeCommand (shaFinalBody s) s

end Sys2Proof.Machine
end

