-- ==== Sys2Proof/Machine/Bus.lean ====
section
/-! DEFINITION. The register window: the address map, and what a bus read and a bus write of each register do
(R62 to R71). -/

namespace Sys2Proof.Machine

/-- The registers of R71. -/
inductive RegName
  | id | param | ctrl | status | errcode | cmd | lastcmd
  | h (k : Fin 5)
  | hcntLo | hcntHi | hbuflen | hdin32 | hdin8
  | blk (k : Fin 16)
  /-- BW[i][j], word j of B[i]. -/
  | bw (i : BReg) (j : Nat)
  | reserved
  deriving DecidableEq, Repr

/-- R71: the register at a word-aligned offset. For OPW = 4096 the last range is reserved and not empty: DEDUCED, unsafe
(log 13). -/
def regAt (c : Config) (a : Addr) : RegName :=
  let n := a.toNat
  if n = 0x000 then .id
  else if n = 0x004 then .param
  else if n = 0x008 then .ctrl
  else if n = 0x00C then .status
  else if n = 0x010 then .errcode
  else if n = 0x014 then .cmd
  else if n = 0x018 then .lastcmd
  else if n < 0x020 then .reserved
  else if n < 0x034 then .h (Fin.ofNat 5 ((n - 0x020) / 4))
  else if n = 0x034 then .hcntLo
  else if n = 0x038 then .hcntHi
  else if n = 0x03C then .hbuflen
  else if n = 0x040 then .hdin32
  else if n = 0x044 then .hdin8
  else if n < 0x080 then .reserved
  else if n < 0x0C0 then .blk (Fin.ofNat 16 ((n - 0x080) / 4))
  else if n < 0x1000 then .reserved
  else if n < 0x1000 + 16 * c.stride then
    .bw (Fin.ofNat 16 ((n - 0x1000) / c.stride)) ((n - 0x1000) % c.stride / 4)
  else .reserved

/-- R71: the offset of a register. (The reserved offsets have no one address; 0x01C is the first of them.) -/
def offsetOf (c : Config) : RegName → Addr
  | .id => 0x000#14
  | .param => 0x004#14
  | .ctrl => 0x008#14
  | .status => 0x00C#14
  | .errcode => 0x010#14
  | .cmd => 0x014#14
  | .lastcmd => 0x018#14
  | .h k => BitVec.ofNat 14 (0x020 + 4 * k.val)
  | .hcntLo => 0x034#14
  | .hcntHi => 0x038#14
  | .hbuflen => 0x03C#14
  | .hdin32 => addrHdin32
  | .hdin8 => addrHdin8
  | .blk k => BitVec.ofNat 14 (0x080 + 4 * k.val)
  | .bw i j => BitVec.ofNat 14 (0x1000 + i.val * c.stride + 4 * j)
  | .reserved => 0x01C#14

/-- R64, R65: a misaligned access, or a write without all four byte strobes. -/
def illegalAccess (t : Transfer) : Bool :=
  t.addr.extractLsb' 0 2 != 0#2 || (t.write && t.strb != 0xF#4)

/-! ### Reads (R66) -/

/-- R38: the registers whose reads are unspecified while busy. -/
def unspecWhenBusy : RegName → Bool
  | .h _ => true
  | .hcntLo => true
  | .hcntHi => true
  | .hbuflen => true
  | .blk _ => true
  | .bw _ _ => true
  | .id => false
  | .param => false
  | .ctrl => false
  | .status => false
  | .errcode => false
  | .cmd => false
  | .lastcmd => false
  | .hdin32 => false
  | .hdin8 => false
  | .reserved => false

/-- R22 to R35: the value of a register. The write-only ports and the reserved offsets read as zero. -/
def regValue (r : RegName) (s : State) : Word :=
  match r with
  | .id => idWord
  | .param => paramWord s.cfg
  | .ctrl => ctrlWord s
  | .status => statusWord s
  | .errcode => errcodeWord s
  | .cmd => 0#32
  | .lastcmd => s.lastcmd
  | .h k => s.sha.h[k]
  | .hcntLo => s.sha.hcnt.extractLsb' 0 32
  | .hcntHi => s.sha.hcnt.extractLsb' 32 32
  | .hbuflen => hbuflenWord s
  | .hdin32 => 0#32
  | .hdin8 => 0#32
  | .blk k => blkWord s.sha.buf k
  | .bw i j => getWord (readBig s i) j
  | .reserved => 0#32

/-- R66: a read of a register, with the state after it. While busy, each read of a data register is a fresh free
value (R38); no read changes anything else. -/
def readReg (r : RegName) (s : State) : Word × State :=
  if s.busy && unspecWhenBusy r then (Config.freeWord s.draws, { s with draws := s.draws + 1 })
  else (regValue r s, s)

/-! ### Writes (R67) -/

/-- R33: the four bytes of BLKk, most significant first. -/
def writeBlk (k : Fin 16) (v : Word) (buf : Vector Byte 64) : Vector Byte 64 :=
  (((buf.set (4 * k.val) (v.extractLsb' 24 8) (by omega)).set (4 * k.val + 1) (v.extractLsb' 16 8) (by omega)).set
    (4 * k.val + 2) (v.extractLsb' 8 8) (by omega)).set (4 * k.val + 3) (v.extractLsb' 0 8) (by omega)

/-- R67: a write to a data register, raw while idle and dropped with BUSY while busy. -/
def writeData (f : State → State) (s : State) : State := if s.busy then raiseError .busy s else f s

/-- R24, R67: a CTRL write. -/
def writeCtrl (v : Word) (s : State) : State :=
  if v.getLsbD 31 then softReset s else { s with irqEn := v.getLsbD 0 }

/-- R67: the state after a legal write of v to a register. -/
def writeReg (r : RegName) (v : Word) (s : State) : State :=
  match r with
  | .ctrl => writeCtrl v s
  | .status => writeStatus v s
  | .cmd => submitCommand v s
  | .hdin32 => orRaise (appendBytes (hdin32Bytes v) s) s
  | .hdin8 => orRaise (appendBytes (hdin8Bytes v) s) s
  | .h k => writeData (fun s => { s with sha := { s.sha with h := s.sha.h.set k v } }) s
  | .hcntLo => writeData (fun s => { s with sha := { s.sha with hcnt := s.sha.hcnt.extractLsb' 32 32 ++ v } }) s
  | .hcntHi => writeData (fun s => { s with sha := { s.sha with hcnt := v ++ s.sha.hcnt.extractLsb' 0 32 } }) s
  | .blk k => writeData (fun s => { s with sha := { s.sha with buf := writeBlk k v s.sha.buf } }) s
  | .bw i j => writeData (fun s => writeBig i (setWord (readBig s i) j v) s) s
  | .id => s
  | .param => s
  | .errcode => s
  | .lastcmd => s
  | .hbuflen => s
  | .reserved => s

/-! ### Transfers -/

/-- R65: `BusError()`. The transfer ends with pslverr = 1, a read returns 0, and no state changes. -/
def busError (t : Transfer) (s : State) : State :=
  { s with reply := some (if t.write then .write true else .read 0#32 true) }

/-- R66: a legal read transfer. -/
def busRead (t : Transfer) (s : State) : State :=
  let (v, s') := readReg (regAt s.cfg t.addr) s
  { s' with reply := some (.read v false) }

/-- R67: a legal write transfer. pslverr is 0 also where the write raises a core error: DEDUCED, unsafe (log 25). -/
def busWrite (t : Transfer) (s : State) : State :=
  { writeReg (regAt s.cfg t.addr) t.data s with reply := some (.write false) }

/-- R230, S9: a transfer presented while rst_n = 0. A read returns 0; on pslverr the spec is silent (a free value). -/
def presentInReset (t : Transfer) (s : State) : State :=
  { s with
    reply := some (if t.write then .write (Config.freeBit s.draws) else .read 0#32 (Config.freeBit s.draws))
    draws := s.draws + 1 }

end Sys2Proof.Machine
end

