-- ==== Sys2Proof/Machine/ModArith.lean ====
section
/-! DEFINITION. The modular arithmetic engine: MODEXP, MODINV and GCD (R170 to R180). Every operand and result is an
exact unsigned number. -/

namespace Sys2Proof.Machine

/-- Repeated squaring: `acc · base ^ ex mod m` for `ex < 2 ^ fuel` (R170). -/
def powModLoop : Nat → BigNat → BigNat → BigNat → BigNat → BigNat
  | 0, _, _, _, acc => acc
  | fuel + 1, base, ex, m, acc =>
    if ex = 0 then acc
    else powModLoop fuel (base * base % m) (ex / 2) m (if ex % 2 = 1 then acc * base % m else acc)

/-- R170: `(base ^ ex) mod m`, by the source's repeated squaring; `Laws.powMod_eq` shows it is that number. -/
def powMod (base ex m : BigNat) : BigNat := powModLoop (ex.log2 + 1) (base % m) ex m (1 % m)

/-- R177: the extended-Euclid loop. The answer is the last nonzero remainder and its coefficient. -/
def euclidLoop : Nat → Nat → Nat → Int → Int → Nat × Int
  | 0, r0, _, t0, _ => (r0, t0)
  | fuel + 1, r0, r1, t0, t1 =>
    if r1 = 0 then (r0, t0) else euclidLoop fuel r1 (r0 % r1) t1 (t0 - (r0 / r1 : Nat) * t1)

/-- R8: the floored remainder of an integer by m ≥ 1. -/
def floorMod (x : Int) (m : Nat) : Nat := (x % (m : Int)).toNat

/-- R174: the x in [0, m) with (a · x) mod m = 1 mod m, where gcd(a, m) = 1; `Laws.modInverse_spec` shows it is. -/
def modInverse (a m : BigNat) : BigNat := floorMod (euclidLoop (m + 1) m (a % m) 0 1).2 m

/-- R170, R171: `ExecModexp`. -/
def modexpBody (rd base exponent modulus : BReg) (chk : Bool) (s : State) : Except ErrorCode State :=
  if operand s modulus = 0 then .error .modulusZero
  else if chk ∧ operand s modulus ≤ operand s base then .error .unitOutOfRange
  else .ok (writeBig rd (powMod (operand s base) (operand s exponent) (operand s modulus)) s)

/-- MODEXP (R170). -/
def execModexp (rd base exponent modulus : BReg) (chk : Bool) (s : State) : Host.Outcome State Fault Refusal :=
  completeCommand (modexpBody rd base exponent modulus chk s) s

/-- R174, R175: `ExecModinv`. -/
def modinvBody (rd a m : BReg) (s : State) : Except ErrorCode State :=
  if operand s m = 0 then .error .modulusZero
  else if Nat.gcd (operand s a) (operand s m) ≠ 1 then .error .nonInvertible
  else .ok (writeBig rd (modInverse (operand s a) (operand s m)) s)

/-- MODINV (R174). -/
def execModinv (rd a m : BReg) (s : State) : Host.Outcome State Fault Refusal :=
  completeCommand (modinvBody rd a m s) s

/-- R178: `ExecGcd`; gcd(0, 0) = 0 (R8, R179). -/
def gcdBody (rd a b : BReg) (s : State) : Except ErrorCode State :=
  .ok (writeBig rd (Nat.gcd (operand s a) (operand s b)) s)

/-- GCD (R178). -/
def execGcd (rd a b : BReg) (s : State) : Host.Outcome State Fault Refusal :=
  completeCommand (gcdBody rd a b s) s

end Sys2Proof.Machine
end

