-- ==== Sys2Proof/Machine/Crt.lean ====
section
/-! DEFINITION. The RSA CRT decryption engine: CRT_DEC (R190 to R195). -/

namespace Sys2Proof.Machine

/-- The six operands of CRT_DEC (R190). -/
structure CrtOperands where
  c : BigNat
  p : BigNat
  q : BigNat
  dp : BigNat
  dq : BigNat
  qinv : BigNat
  deriving DecidableEq, Repr

/-- R190, R195: c, and the key bank B[k..k+4] in the order p, q, d_p, d_q, q_inv. -/
def crtOperands (c bank : BReg) (s : State) : CrtOperands :=
  { c := operand s c, p := operand s bank, q := operand s (bank + 1), dp := operand s (bank + 2),
    dq := operand s (bank + 3), qinv := operand s (bank + 4) }

/-- R190: m1, the p-arm. -/
def crtM1 (o : CrtOperands) : BigNat := powMod o.c o.dp o.p

/-- R190: m2, the q-arm. -/
def crtM2 (o : CrtOperands) : BigNat := powMod o.c o.dq o.q

/-- R190: h = (qinv · (m1 − m2)) mod p, a signed difference under the floored remainder (R8). -/
def crtH (o : CrtOperands) : BigNat := floorMod ((o.qinv : Int) * ((crtM1 o : Int) - (crtM2 o : Int))) o.p

/-- R190: m = (m2 + h · q) mod n with n = p · q. -/
def crtResult (o : CrtOperands) : BigNat := (crtM2 o + crtH o * o.q) % (o.p * o.q)

/-- R191: the first failing check of CRT_DEC on a core whose big registers have `opw` bits. -/
def crtCheck (opw : Nat) (chk : Bool) (o : CrtOperands) : Option ErrorCode :=
  if o.p = 0 ∨ o.q = 0 then some .modulusZero
  else if 2 ^ opw < o.p * o.q then some .resultWidth
  else if chk ∧ o.p * o.q ≤ o.c then some .unitOutOfRange
  else none

/-- R190: `ExecCrt`. A bank past B11 is the illegal encoding of R94(d). DEDUCED, safe (log 12). -/
def crtDecBody (rd c bank : BReg) (chk : Bool) (s : State) : Except ErrorCode State :=
  if maxBank < bank.val then .error .illegalCmd
  else
    match crtCheck s.cfg.opwBits chk (crtOperands c bank s) with
    | some e => .error e
    | none => .ok (writeBig rd (crtResult (crtOperands c bank s)) s)

/-- CRT_DEC (R190). -/
def execCrtDec (rd c bank : BReg) (chk : Bool) (s : State) : Host.Outcome State Fault Refusal :=
  completeCommand (crtDecBody rd c bank chk s) s

end Sys2Proof.Machine
end

