-- ==== Sys2Proof/Machine/Dispatch.lean ====
section
/-! DEFINITION. The meaning of every instruction, one arm per constructor: for a command, its completion by the ENGINE
(R113); for an append port, the bus write itself (R137, R138). -/

namespace Sys2Proof.Machine

def exec (i : Instr) (s : State) : Host.Outcome State Fault Refusal :=
  match i with
  | .shaInit => Sys2Proof.Machine.execShaInit s
  | .shaCompress => Sys2Proof.Machine.execShaCompress s
  | .shaFinal => Sys2Proof.Machine.execShaFinal s
  | .modexp rd base exponent modulus chk => Sys2Proof.Machine.execModexp rd base exponent modulus chk s
  | .modinv rd a m => Sys2Proof.Machine.execModinv rd a m s
  | .gcd rd a b => Sys2Proof.Machine.execGcd rd a b s
  | .crtDec rd c bank chk => Sys2Proof.Machine.execCrtDec rd c bank chk s
  | .hdin32 v => Sys2Proof.Machine.execHdin32 v s
  | .hdin8 v => Sys2Proof.Machine.execHdin8 v s

end Sys2Proof.Machine
end

