-- ==== Sys2Proof/Machine/Engine.lean ====
section
/-! DEFINITION. The turns of the two agents (R110, R113): the ENGINE's completion, a HOST transfer, a hardware reset;
and what instruction the next step runs. -/

namespace Sys2Proof.Machine

/-- R113: `Complete()`. With nothing pending the ENGINE step is not enabled and its turn passes. -/
def engineTurn (s : State) : Host.Outcome State Fault Refusal :=
  match s.pend with
  | .none => .next s
  | .fill rest => .next (completeFill rest s)
  | .command w _ =>
    match decode (.command w) with
    | .ok i => exec i s
    | .error _ => completeCommand (.error .illegalCmd) s

/-- R61, R65 to R67: one bus transfer. A legal write to HDIN32 or HDIN8 runs that instruction. -/
def hostTurn (t : Transfer) (s : State) : Host.Outcome State Fault Refusal :=
  if illegalAccess t then .next (busError t s)
  else if t.write then
    match decode (.busWrite t.addr t.data) with
    | .ok i => exec i { s with reply := some (.write false) }
    | .error _ => .next (busWrite t s)
  else .next (busRead t s)

/-- R230: rst_n is low, perhaps with a transfer presented. -/
def resetTurn (presented : Option Transfer) (s : State) : State :=
  match presented with
  | none => hardwareReset s
  | some t => presentInReset t (hardwareReset s)

/-- The state with the first turn taken off the line. -/
def popTurn (s : State) : State := { s with turns := s.turns.tail }

/-- The code of the instruction that the next step runs, if it runs one: the pending command word on an ENGINE turn,
the bus write on a HOST turn. -/
def fetch (s : State) : Option Code :=
  match s.turns with
  | .host t :: _ => if illegalAccess t || !t.write then none else some (.busWrite t.addr t.data)
  | .reset _ :: _ => none
  | .engine :: _ =>
    match s.pend with
    | .command w _ => some (.command w)
    | .none => none
    | .fill _ => none
  | [] =>
    match s.pend with
    | .command w _ => some (.command w)
    | .none => none
    | .fill _ => none

/-- The state in which `exec` runs the fetched instruction: the turn is taken, and a bus write is answered. -/
def afterFetch (s : State) : State :=
  match s.turns with
  | .host _ :: _ => { popTurn s with reply := some (.write false) }
  | .reset _ :: _ => popTurn s
  | .engine :: _ => popTurn s
  | [] => popTurn s

/-- `s` with an instruction placed where the next step takes it from: a command word accepted (R112) and the ENGINE to
move, or a full-width bus write to come next. -/
def placeCode (s : State) (c : Code) : State :=
  match c with
  | .command w => { acceptCommand w s with turns := .engine :: s.turns }
  | .busWrite addr v => { s with turns := .host { write := true, addr := addr, data := v, strb := 0xF#4 } :: s.turns }

end Sys2Proof.Machine
end

