-- ==== Sys2Proof/Machine/Step.lean ====
section
/-! DEFINITION. One step of the machine (R110): the first turn lined up is taken. -/

namespace Sys2Proof.Machine

/-- R110: an ENGINE step, a HOST step or a hardware reset, as the line of turns says. When no turn is lined up the
ENGINE completes what is pending, so every pending operation completes (R110's fairness). -/
def step (s : State) : Host.Outcome State Fault Refusal :=
  match s.turns with
  | [] => engineTurn s
  | .engine :: _ => engineTurn (popTurn s)
  | .host t :: _ => hostTurn t (popTurn s)
  | .reset presented :: _ => .next (resetTurn presented (popTurn s))

/-- `s` with the instruction whose bits are `w`, numbered as spec/opcode_table.json numbers them, the next to run. -/
def State.withFetchWord (s : State) (nbits w : Nat) : State := placeCode s (tableCode nbits w)

end Sys2Proof.Machine
end

