-- ==== Sys2Proof/Machine/HostProgram.lean ====
section
/-! DEFINITION. The host's statements and pseudo-instructions as the bus transfers they make (R97 to R99). The host's
own control flow (BNZ, labels, EXPECT) is host software and makes no transfer. -/

namespace Sys2Proof.Machine

/-- R98: `WR <reg>, <value>`. -/
def wr (c : Config) (r : RegName) (v : Word) : Turn :=
  .host { write := true, addr := offsetOf c r, data := v, strb := 0xF#4 }

/-- R98: `RD <reg>`. -/
def rd (c : Config) (r : RegName) : Turn := .host { write := false, addr := offsetOf c r, data := 0#32, strb := 0#4 }

/-- R97, R98: an instruction written as a statement: a CMD write of its word, or a write to its append port. -/
def issue (c : Config) (i : Instr) : Turn :=
  match encode i with
  | .command w => wr c .cmd w
  | .busWrite addr v => .host { write := true, addr := addr, data := v, strb := 0xF#4 }

/-- R99: `WAIT`. The poll of STATUS fails `polls` times, the ENGINE completes, and the last poll reads BUSY = 0. -/
def wait (c : Config) (polls : Nat) : List Turn :=
  List.replicate polls (rd c .status) ++ [.engine, rd c .status]

/-- R99: `LOADB Bi, N`. -/
def loadb (c : Config) (i : BReg) (n : BigNat) : List Turn :=
  (List.range c.words).map fun j => wr c (.bw i j) (getWord n j)

/-- R99: `READB Bi`. -/
def readb (c : Config) (i : BReg) : List Turn := (List.range c.words).map fun j => rd c (.bw i j)

/-- R99: `HASHBYTES b0 … b(L−1)`: groups of four while four remain, then single bytes, each followed by `WAIT`.
`polls` gives for each `WAIT` in turn how many of its polls fail, that is, read BUSY = 1 (none where the list has run
out): any number after a write that filled the block, none after another, whose first poll reads BUSY = 0. -/
def hashBytes (c : Config) : List Nat → List Byte → List Turn
  | polls, b0 :: b1 :: b2 :: b3 :: rest =>
    wr c .hdin32 (be32 b0 b1 b2 b3) :: (wait c (polls.headD 0) ++ hashBytes c polls.tail rest)
  | polls, b :: rest => wr c .hdin8 (b.setWidth 32) :: (wait c (polls.headD 0) ++ hashBytes c polls.tail rest)
  | _, [] => []

/-- R99: `CLRST`. -/
def clrst (c : Config) : Turn := wr c .status 0x00000006#32

end Sys2Proof.Machine
end

