-- ==== Sys2Proof/Safety.lean ====
section
/-! DEFINITION. What counts as a safe state and a safe run: the invariants of R39, and the facts about a pending
operation that make them hold from step to step. -/

namespace Sys2Proof.Safety

open Sys2Proof.Machine

/-- What a pending operation says of the state (R20, R36, R116). -/
def PendingOk (s : State) : Prop :=
  match s.pend with
  | .none => True
  | .command w latched => latched = latch w s.b ∧ s.sha.buflen ≤ 63
  | .fill rest => s.sha.buflen = 64 ∧ rest.length ≤ 3 ∧ s.sha.hfin = false

/-- R39: I1 to I6, with `PendingOk`. -/
structure StateInv (s : State) : Prop where
  /-- I1 -/
  busy_iff : s.busy = true ↔ s.pend ≠ .none
  /-- I2 -/
  idle_buflen : s.busy = false → s.sha.buflen ≤ 63
  /-- I3 -/
  final_empty : s.sha.hfin = true → s.sha.buflen = 0
  /-- I4 -/
  no_err : s.err = false → s.errcode = 0#8
  /-- I5 -/
  err_code : s.err = true → 0x01 ≤ s.errcode.toNat ∧ s.errcode.toNat ≤ 0x09
  /-- I6 -/
  big_bound : ∀ i : BReg, s.b[i] < 2 ^ s.cfg.opwBits
  pending_ok : PendingOk s

/-- A legal bus write: a word-aligned address is the caller's part, the strobes are full (R63). -/
def fullWrite (a : Addr) (v : Word) : Transfer := { write := true, addr := a, data := v, strb := 0xF#4 }

/-- The state in a `next` answer. Nothing else is ever answered by `step`: `Fault` has no constructor and `exec` has no
refused arm. -/
def stateOf (o : Host.Outcome State Fault Refusal) (otherwise : State) : State :=
  match o with
  | .next t => t
  | .fault _ => otherwise
  | .refused _ => otherwise

/-- One append of a message (R137, R138), as its bus write. -/
inductive Append
  | word (v : Word)
  | byte (v : Word)
  deriving DecidableEq, Repr

/-- The instruction of an append. -/
def Append.instr : Append → Instr
  | .word v => .hdin32 v
  | .byte v => .hdin8 v

/-- The message bytes of an append, in message order. -/
def Append.bytes : Append → List Byte
  | .word v => wbytes v
  | .byte v => [v.extractLsb' 0 8]

/-- An append, completed before the next transfer (R141's `WAIT`). -/
def appendAndWait (a : Append) (s : State) : State :=
  let t := stateOf (exec a.instr s) s
  stateOf (engineTurn t) t

/-- A host that makes the appends one after another, each completed before the next. -/
def feed (as : List Append) (s : State) : State := as.foldl (fun s a => appendAndWait a s) s

/-- The message bytes of several appends. -/
def messageOf (as : List Append) : List Byte := as.flatMap Append.bytes

end Sys2Proof.Safety
end

