-- ==== Sys2Proof/Certificates/Slice0/Obligations.lean ====
section
/-! DEFINITION. The statements about this model, each a definition of a proposition. -/

section

open Sys2Proof Sys2Proof.Machine Sys2Proof.Safety

/-! ### Encoding -/

/-- The assembler examples of R97 and the legal corner words of 95_test_vectors.md §7.1 decode to the instructions they
stand for. -/
def Obligations.SampleWordsDecode : Prop :=
  decodeCommand 0x00000010#32 = .ok .shaInit ∧
  decodeCommand 0x00000011#32 = .ok .shaCompress ∧
  decodeCommand 0x00000012#32 = .ok .shaFinal ∧
  decodeCommand 0x01210320#32 = .ok (.modexp 3 0 1 2 true) ∧
  decodeCommand 0x01FFFF20#32 = .ok (.modexp 15 15 15 15 true) ∧
  decodeCommand 0x00010321#32 = .ok (.modinv 3 0 1) ∧
  decodeCommand 0x00076522#32 = .ok (.gcd 5 6 7) ∧
  decodeCommand 0x01083430#32 = .ok (.crtDec 4 3 8 true) ∧
  decodeCommand 0x010B0030#32 = .ok (.crtDec 0 0 11 true)

/-- Every well-formed instruction is read back from its encoding, with every operand at every value. -/
def Obligations.DecodeEncodeAgree : Prop := ∀ i : Instr, WellFormed i → decode (encode i) = .ok i

/-- Each word and each bus write has at most one meaning: what the decoder reads is well formed and encodes to exactly
the bits it was read from, so no bit is ignored (HDIN8's data word included, as an operand). -/
def Obligations.EncodeDecodeAgree : Prop :=
  ∀ (c : Code) (i : Instr), decode c = .ok i → WellFormed i ∧ encode i = c

/-- R93: the mask and match of each row, with CRT_DEC's limit on w[19:16]. -/
def Obligations.CommandRowsMatchMasks : Prop :=
  ∀ w : Word,
    (decodeCommand w = .ok .shaInit ↔ w &&& 0xFFFFFFFF#32 = 0x00000010#32) ∧
    (decodeCommand w = .ok .shaCompress ↔ w &&& 0xFFFFFFFF#32 = 0x00000011#32) ∧
    (decodeCommand w = .ok .shaFinal ↔ w &&& 0xFFFFFFFF#32 = 0x00000012#32) ∧
    (decodeCommand w = .ok (.modexp (w.extractLsb' 8 4).toFin (w.extractLsb' 12 4).toFin (w.extractLsb' 16 4).toFin
        (w.extractLsb' 20 4).toFin (w.getLsbD 24)) ↔ w &&& 0xFE0000FF#32 = 0x00000020#32) ∧
    (decodeCommand w = .ok (.modinv (w.extractLsb' 8 4).toFin (w.extractLsb' 12 4).toFin (w.extractLsb' 16 4).toFin) ↔
        w &&& 0xFFF000FF#32 = 0x00000021#32) ∧
    (decodeCommand w = .ok (.gcd (w.extractLsb' 8 4).toFin (w.extractLsb' 12 4).toFin (w.extractLsb' 16 4).toFin) ↔
        w &&& 0xFFF000FF#32 = 0x00000022#32) ∧
    (decodeCommand w = .ok (.crtDec (w.extractLsb' 8 4).toFin (w.extractLsb' 12 4).toFin (w.extractLsb' 16 4).toFin
        (w.getLsbD 24)) ↔ w &&& 0xFEF000FF#32 = 0x00000030#32 ∧ (w.extractLsb' 16 4).toNat ≤ 11)

/-- R94: an illegal word (one that matches no row of R93) is accepted like any other; at completion it raises
ILLEGAL_CMD and has no other effect than the completion bookkeeping. -/
def Obligations.IllegalWordsFail : Prop :=
  ∀ w : Word,
    ¬ (w &&& 0xFFFFFFFF#32 = 0x00000010#32 ∨ w &&& 0xFFFFFFFF#32 = 0x00000011#32 ∨
       w &&& 0xFFFFFFFF#32 = 0x00000012#32 ∨ w &&& 0xFE0000FF#32 = 0x00000020#32 ∨
       w &&& 0xFFF000FF#32 = 0x00000021#32 ∨ w &&& 0xFFF000FF#32 = 0x00000022#32 ∨
       (w &&& 0xFEF000FF#32 = 0x00000030#32 ∧ (w.extractLsb' 16 4).toNat ≤ 11)) →
    (∃ r, decodeCommand w = .error r) ∧
    (∀ s ts, s.turns = .host (fullWrite 0x014#14 w) :: ts → s.busy = false →
      ∃ t, step s = .next t ∧ t.busy = true ∧ t.lastcmd = w ∧ ∃ latched, t.pend = .command w latched) ∧
    (∀ s ts latched, s.turns = .engine :: ts → s.pend = .command w latched →
      step s = .next { s with
        turns := ts, err := true, errcode := if s.errcode = 0#8 then 0x01#8 else s.errcode
        done := true, pend := .none, busy := false })

/-- R96: the three bus writes that start an operation without a command word: HDIN32 and HDIN8 by their offset (the
whole of paddr), and a CTRL write with bit 31 set. -/
def Obligations.OperationsByAddress : Prop :=
  (∀ (a : Addr) v i,
    decode (.busWrite a v) = .ok i ↔
      (a &&& 0x3FFF#14 = 0x040#14 ∧ i = .hdin32 v) ∨ (a &&& 0x3FFF#14 = 0x044#14 ∧ i = .hdin8 v)) ∧
  ∀ s ts v,
    (s.turns = .host (fullWrite 0x040#14 v) :: ts →
      ∃ answer, step s = exec (.hdin32 v) { s with turns := ts, reply := answer }) ∧
    (s.turns = .host (fullWrite 0x044#14 v) :: ts →
      ∃ answer, step s = exec (.hdin8 v) { s with turns := ts, reply := answer }) ∧
    (s.turns = .host (fullWrite 0x008#14 v) :: ts → v.getLsbD 31 = true →
      ∃ answer, step s = .next { softReset { s with turns := ts } with reply := answer })

/-! ### Steps, and the lifecycle of a command -/

/-- A step runs the decoded instruction. On an ENGINE turn (or when no turn is lined up, which is the model's choice,
notes/assumptions/7.md) with a pending command word
that decodes to `i`, step is exec of `i` with the turn taken; on a HOST turn with a legal write that decodes to `i`,
step is exec of `i` with the turn taken and the bus answered (with pslverr = 0, also where the append then fails: the
model's inference, notes/assumptions/25.md). -/
def Obligations.StepRunsDecodedInstruction : Prop :=
  ∀ s i,
    (∀ ts w latched, s.turns = .engine :: ts → s.pend = .command w latched → decode (.command w) = .ok i →
      step s = exec i { s with turns := ts }) ∧
    (∀ w latched, s.turns = [] → s.pend = .command w latched → decode (.command w) = .ok i → step s = exec i s) ∧
    (∀ ts a v, s.turns = .host (fullWrite a v) :: ts → a.toNat % 4 = 0 → decode (.busWrite a v) = .ok i →
      step s = exec i { s with turns := ts, reply := some (.write false) })

/-- An instruction placed by `withFetchWord` (the model's own operation, notes/assumptions/8.md and 14.md) is the one the
very next step runs. -/
def Obligations.PlacedWordRunsNext : Prop :=
  ∀ (s : State) nbits w i, decodeTableWord nbits w = some i →
    step (s.withFetchWord nbits w) = exec i (afterFetch (s.withFetchWord nbits w))

/-- R113: what an ENGINE step does for each pending operation. -/
def Obligations.EngineTurnCompletes : Prop :=
  ∀ s ts, s.turns = .engine :: ts →
    (∀ rest, s.pend = .fill rest →
      step s = .next { s with
        turns := ts
        sha := rest.foldl (fun u b => appendByte b u) { s.sha with h := compress s.sha.h s.sha.buf, buflen := 0 }
        pend := .none, busy := false }) ∧
    (∀ w latched i, s.pend = .command w latched → decodeCommand w = .ok i →
      step s = exec i { s with turns := ts } ∧
      ∃ t, step s = .next t ∧ t.done = true ∧ t.pend = .none ∧ t.busy = false) ∧
    (∀ w latched r, s.pend = .command w latched → decodeCommand w = .error r →
      step s = .next { s with
        turns := ts, err := true, errcode := if s.errcode = 0#8 then 0x01#8 else s.errcode
        done := true, pend := .none, busy := false })

/-- Every state has a next state. R110 enables a HOST step always and an ENGINE step exactly when something is pending;
that an ENGINE turn with nothing pending, and a step with no turn lined up, pass with no effect is the model's choice
(notes/assumptions/7.md), and that nothing faults is its inference (notes/assumptions/24.md). -/
def Obligations.EveryStepAnswersNext : Prop := ∀ s, ∃ t, step s = .next t

/-- R110's fairness, as the model has it (notes/assumptions/7.md): once the turns lined up are used up and the ENGINE
has moved, nothing is pending; and an ENGINE turn with nothing pending, which R110 does not enable, passes. -/
def Obligations.PendingOperationCompletes : Prop :=
  (∀ s : State, StateInv s →
    ∃ t : State, core.run (s.turns.length + 1) s = .next t ∧ t.busy = false ∧ t.pend = .none ∧ t.turns = []) ∧
  (∀ s : State, s.pend = .none →
    (s.turns = [] → step s = .next s) ∧ ∀ ts, s.turns = .engine :: ts → step s = .next { s with turns := ts })

/-- The invariants of R39, and the facts about a pending operation, hold after a hardware reset. -/
def Obligations.InvariantHoldsAtReset : Prop :=
  StateInv State.reset ∧ ∀ cfg n, StateInv (State.afterReset cfg n)

/-- R39: every step keeps I1 to I6 (with what a pending operation says of the state), whatever transfer or reset it
takes, for every legal OPW. (The spec's own derivation: "derived: from rule R25, rule R31, 41_sha1.md rule R145,
60_exceptions.md rule R204"; the facts about a pending operation are the model's form of R20, R36 and R116.) -/
def Obligations.InvariantKeptByEveryStep : Prop := ∀ s t, StateInv s → step s = .next t → StateInv t

/-- R111, R112: a CMD write is accepted exactly while idle; while busy it is dropped with BUSY and the running
operation goes on; and no other step makes a command pending. -/
def Obligations.CommandSubmission : Prop :=
  (∀ s ts v, s.turns = .host (fullWrite 0x014#14 v) :: ts →
    (s.busy = false →
      step s = .next { s with
        turns := ts, reply := some (.write false)
        lastcmd := v, done := false, pend := .command v (latch v s.b), busy := true }) ∧
    (s.busy = true →
      ∃ answer, step s = .next { s with
        turns := ts, reply := answer
        err := true, errcode := if s.errcode = 0#8 then 0x02#8 else s.errcode })) ∧
  (∀ s t v latched, step s = .next t → t.pend = .command v latched →
    t.pend = s.pend ∨ (s.busy = false ∧ ∃ ts, s.turns = .host (fullWrite 0x014#14 v) :: ts))

/-- R116: acceptance latches the registers the command reads, each with its value, and nothing for an illegal word (for
other words than CRT_DEC's the model's inference, notes/assumptions/11.md); the operands a command computes from are those values, and while it is pending its registers still hold them. -/
def Obligations.LatchedOperandsAreRegisterValues : Prop :=
  (∀ w b,
    (∀ rd x y z chk, decodeCommand w = .ok (.modexp rd x y z chk) → latch w b = [(x, b[x]), (y, b[y]), (z, b[z])]) ∧
    (∀ rd x y, decodeCommand w = .ok (.modinv rd x y) ∨ decodeCommand w = .ok (.gcd rd x y) →
      latch w b = [(x, b[x]), (y, b[y])]) ∧
    (∀ rd x k chk, decodeCommand w = .ok (.crtDec rd x k chk) →
      latch w b = (x, b[x]) :: (List.range 5).map fun n => (Fin.ofNat 16 (k.val + n), b[Fin.ofNat 16 (k.val + n)])) ∧
    (∀ i, decodeCommand w = .ok i → i = .shaInit ∨ i = .shaCompress ∨ i = .shaFinal → latch w b = []) ∧
    (∀ r, decodeCommand w = .error r → latch w b = [])) ∧
  (∀ s w i, decodeCommand w = .ok i → ∀ r ∈ sourceRegs i, operand (acceptCommand w s) r = s.b[r]) ∧
  (∀ s w latched i, StateInv s → s.pend = .command w latched → decodeCommand w = .ok i →
    ∀ r ∈ sourceRegs i, operand s r = s.b[r])

/-- R116: the Exec bodies compute only from latched values and the SHA unit: with any other content in the big registers
at completion, the command does the same, and it writes the same value to the same register or writes none. -/
def Obligations.CommandsComputeFromLatchedValues : Prop :=
  ∀ s w i b0 b', s.pend = .command w (latch w b0) → decodeCommand w = .ok i →
    ∃ t, exec i s = .next t ∧
      ((t.b = s.b ∧ exec i { s with b := b' } = .next { t with b := b' }) ∨
        ∃ rd v, destReg i = some rd ∧ t.b = s.b.set rd v ∧
          exec i { s with b := b' } = .next { t with b := b'.set rd v })

/-- R97 to R99, R112 to R114: a command statement followed by `WAIT`, from an idle core. Whatever the number of polls
that still read BUSY = 1, the command runs on the operands accepted, and the last poll reads STATUS after it. -/
def Obligations.IssuedCommandRuns : Prop :=
  ∀ (s : State) i w polls ts, WellFormed i → encode i = .command w → s.busy = false →
    s.turns = issue s.cfg i :: (wait s.cfg polls ++ ts) →
    ∃ u, exec i (acceptCommand w { s with turns := ts }) = .next u ∧ u.done = true ∧ u.busy = false ∧
      core.run (polls + 3) s = .next { u with reply := some (.read (statusWord u) false) }

/-- While busy, no bus transfer but a soft reset touches the pending operation, its operands, the SHA unit or LASTCMD. -/
def Obligations.BusyTransferKeepsOperation : Prop :=
  ∀ s t tr ts, s.busy = true → s.turns = .host tr :: ts → step s = .next t →
    ¬ (tr.write = true ∧ tr.strb = 0xF#4 ∧ tr.addr = 0x008#14 ∧ tr.data.getLsbD 31 = true) →
    t.pend = s.pend ∧ t.busy = true ∧ t.b = s.b ∧ t.sha = s.sha ∧ t.lastcmd = s.lastcmd

/-! ### Errors and the interrupt -/

/-- R204: recording an error sets ERR, keeps the first code since ERR was cleared, and changes nothing else; and the
failing command of a state fails with the same code when it is issued again from that state. -/
def Obligations.ErrorRecording : Prop :=
  (∀ c s, raiseError c s = { s with err := true, errcode := if s.errcode = 0#8 then c.code else s.errcode }) ∧
  (∀ i s t, s.err = false → s.errcode = 0#8 → exec i s = .next t → t.err = true →
    ∃ c : ErrorCode, t.errcode = c.code ∧
      exec i { clearError t with done := s.done, pend := s.pend, busy := s.busy } = .next t)

/-- R206: errors are precise. An instruction that fails (seen from the state with the error record cleared) leaves the
state as it was, except for the error record, which keeps an earlier first code, and, for a command, the completion
bookkeeping. (The spec's own derivation: "derived: from 40_command_lifecycle.md rule R115 and rule R204".) -/
def Obligations.ErrorsArePrecise : Prop :=
  ∀ i s t u, exec i (clearError s) = .next u → u.err = true → exec i s = .next t →
    ∃ c : ErrorCode, ∃ code, u.errcode = c.code ∧ code = (if s.errcode = 0#8 then c.code else s.errcode) ∧
      (((∃ v, i = .hdin32 v ∨ i = .hdin8 v) ∧ t = { s with err := true, errcode := code }) ∨
       ((∀ v, i ≠ .hdin32 v ∧ i ≠ .hdin8 v) ∧
         t = { s with err := true, errcode := code, done := true, pend := .none, busy := false }))

/-- ERR and the first ERRCODE stay until a STATUS write with bit 2, a soft reset or a hardware reset. -/
def Obligations.ErrorRecordIsSticky : Prop :=
  ∀ s t, s.err = true → s.errcode ≠ 0#8 → step s = .next t →
    (t.err = true ∧ t.errcode = s.errcode) ∨
    (∃ p ts, s.turns = .reset p :: ts) ∨
    (∃ v ts, s.turns = .host (fullWrite 0x00C#14 v) :: ts ∧ v.getLsbD 2 = true) ∨
    (∃ v ts, s.turns = .host (fullWrite 0x008#14 v) :: ts ∧ v.getLsbD 31 = true)

/-- IRQ_EN changes only by a CTRL write or a reset. -/
def Obligations.IrqEnableChanges : Prop :=
  ∀ s t, step s = .next t →
    t.irqEn = s.irqEn ∨ (∃ p ts, s.turns = .reset p :: ts) ∨ (∃ v ts, s.turns = .host (fullWrite 0x008#14 v) :: ts)

/-- R37: the interrupt output, and that it reads 0 at reset. -/
def Obligations.InterruptOutput : Prop :=
  (∀ s, irq s = true ↔ s.irqEn = true ∧ (s.done = true ∨ s.err = true)) ∧ ∀ cfg n, irq (State.afterReset cfg n) = false

/-- LASTCMD changes only when a CMD write is accepted, and then it is that word, or by a reset, and then it is 0. -/
def Obligations.LastCommandChanges : Prop :=
  ∀ s t, step s = .next t →
    t.lastcmd = s.lastcmd ∨
    (∃ v ts, s.turns = .host (fullWrite 0x014#14 v) :: ts ∧ s.busy = false ∧ t.lastcmd = v) ∨
    (∃ v ts, s.turns = .host (fullWrite 0x008#14 v) :: ts ∧ v.getLsbD 31 = true ∧ t.lastcmd = 0#32) ∨
    (∃ p ts, s.turns = .reset p :: ts ∧ t.lastcmd = 0#32)

/-- SHA_INIT is the only way back from the finalized state, besides a reset; and until then the four operations that
the finalized state forbids fail with HASH_FINALIZED. -/
def Obligations.FinalizedUntilInit : Prop :=
  (∀ s t, s.sha.hfin = true → step s = .next t →
    t.sha.hfin = true ∨
    (∃ latched, s.pend = .command 0x00000010#32 latched ∧ (s.turns = [] ∨ ∃ ts, s.turns = .engine :: ts)) ∨
    (∃ v ts, s.turns = .host (fullWrite 0x008#14 v) :: ts ∧ v.getLsbD 31 = true) ∨
    (∃ p ts, s.turns = .reset p :: ts)) ∧
  (∀ s v, s.sha.hfin = true → s.busy = false → s.errcode = 0#8 →
    exec (.hdin32 v) s = .next { s with err := true, errcode := 0x04#8 } ∧
    exec (.hdin8 v) s = .next { s with err := true, errcode := 0x04#8 }) ∧
  (∀ s, s.sha.hfin = true → s.errcode = 0#8 →
    exec .shaCompress s = .next { s with err := true, errcode := 0x04#8, done := true, pend := .none, busy := false } ∧
    exec .shaFinal s = .next { s with err := true, errcode := 0x04#8, done := true, pend := .none, busy := false })

/-- A big register changes only as the destination of a completing command, by an idle write of one of its words, as the
destination of a command that a soft reset aborts, or by a hardware reset. -/
def Obligations.BigRegisterChanges : Prop :=
  ∀ s t (r : BReg), step s = .next t → t.b[r] ≠ s.b[r] →
    (∃ w latched i, s.pend = .command w latched ∧ decodeCommand w = .ok i ∧ destReg i = some r ∧
      (s.turns = [] ∨ (∃ ts, s.turns = .engine :: ts) ∨
        ∃ v ts, s.turns = .host (fullWrite 0x008#14 v) :: ts ∧ v.getLsbD 31 = true)) ∨
    (∃ a v ts, s.turns = .host (fullWrite a v) :: ts ∧ s.busy = false ∧
      0x1000 + r.val * s.cfg.stride ≤ a.toNat ∧ a.toNat < 0x1000 + (r.val + 1) * s.cfg.stride) ∨
    (∃ p ts, s.turns = .reset p :: ts)

/-! ### The register window -/

/-- R64, R65: a misaligned access, or a write without full strobes, gets pslverr, a read returns 0, and nothing else
happens. -/
def Obligations.IllegalAccessHasNoEffect : Prop :=
  ∀ s ts tr, s.turns = .host tr :: ts →
    (tr.addr.toNat % 4 ≠ 0 ∨ (tr.write = true ∧ tr.strb ≠ 0xF#4)) →
    step s = .next { s with
      turns := ts, reply := some (if tr.write then .write true else .read 0#32 true) }

/-- R66, cases 1 to 3: the reads that work at all times, busy or not: ID, PARAM, CTRL, STATUS, ERRCODE, LASTCMD, the
write-only ports, and the reserved offsets (for OPW = 4096 the last range is the model's reading of R71,
notes/assumptions/13.md). -/
def Obligations.ControlReads : Prop :=
  ∀ s ts tr, s.turns = .host tr :: ts → tr.write = false →
    let answers := fun v : Word => step s = .next { s with turns := ts, reply := some (.read v false) }
    (tr.addr = 0x000#14 → answers 0x43520100#32) ∧
    (tr.addr = 0x004#14 → answers (BitVec.ofNat 32 (0x00100000 + s.cfg.opwBits))) ∧
    (tr.addr = 0x008#14 → answers (BitVec.ofNat 32 s.irqEn.toNat)) ∧
    (tr.addr = 0x00C#14 →
      answers (BitVec.ofNat 32 (s.busy.toNat + 2 * s.done.toNat + 4 * s.err.toNat + 8 * s.sha.hfin.toNat))) ∧
    (tr.addr = 0x010#14 → answers (s.errcode.setWidth 32)) ∧
    (tr.addr = 0x018#14 → answers s.lastcmd) ∧
    (tr.addr = 0x014#14 ∨ tr.addr = 0x040#14 ∨ tr.addr = 0x044#14 → answers 0#32) ∧
    (tr.addr.toNat % 4 = 0 →
      (tr.addr = 0x01C#14 ∨ (0x048 ≤ tr.addr.toNat ∧ tr.addr.toNat ≤ 0x07C) ∨
        (0x0C0 ≤ tr.addr.toNat ∧ tr.addr.toNat ≤ 0xFFC) ∨ 0x1000 + 16 * s.cfg.stride ≤ tr.addr.toNat) →
      answers 0#32)

/-- R66, case 4, while idle: H0..H4, HCNT, HBUFLEN, BLK0..BLK15 and every BW word read as the registers' values, with
no side effect. -/
def Obligations.DataReadsWhileIdle : Prop :=
  ∀ s ts tr, s.turns = .host tr :: ts → tr.write = false → s.busy = false →
    let answers := fun v : Word => step s = .next { s with turns := ts, reply := some (.read v false) }
    (∀ k : Fin 5, tr.addr.toNat = 0x020 + 4 * k.val → answers s.sha.h[k]) ∧
    (tr.addr = 0x034#14 → answers (BitVec.ofNat 32 (s.sha.hcnt.toNat % 2 ^ 32))) ∧
    (tr.addr = 0x038#14 → answers (BitVec.ofNat 32 (s.sha.hcnt.toNat / 2 ^ 32))) ∧
    (tr.addr = 0x03C#14 → answers (BitVec.ofNat 32 (s.sha.buflen % 64))) ∧
    (∀ k : Fin 16, tr.addr.toNat = 0x080 + 4 * k.val →
      answers (BitVec.ofNat 32
        ((s.sha.buf[4 * k.val]'(by omega)).toNat * 2 ^ 24 + (s.sha.buf[4 * k.val + 1]'(by omega)).toNat * 2 ^ 16 +
          (s.sha.buf[4 * k.val + 2]'(by omega)).toNat * 2 ^ 8 + (s.sha.buf[4 * k.val + 3]'(by omega)).toNat))) ∧
    (∀ (i : BReg) (j : Nat), j < s.cfg.words → tr.addr.toNat = 0x1000 + i.val * s.cfg.stride + 4 * j →
      answers (BitVec.ofNat 32 (s.b[i] / 2 ^ (32 * j) % 2 ^ 32)))

/-- R38: while busy, a read of a data register answers an unspecified value, a fresh draw each time, and changes
nothing but the count of draws. -/
def Obligations.DataReadsWhileBusy : Prop :=
  ∀ s ts tr, s.turns = .host tr :: ts → tr.write = false → s.busy = true → tr.addr.toNat % 4 = 0 →
    ((0x020 ≤ tr.addr.toNat ∧ tr.addr.toNat < 0x040) ∨ (0x080 ≤ tr.addr.toNat ∧ tr.addr.toNat < 0x0C0) ∨
      (0x1000 ≤ tr.addr.toNat ∧ tr.addr.toNat < 0x1000 + 16 * s.cfg.stride)) →
    ∃ v, step s = .next { s with turns := ts, reply := some (.read v false), draws := s.draws + 1 }

/-- R67: writes to CTRL (without SRST), STATUS, the read-only registers and the reserved offsets, busy or not (for
OPW = 4096 the last range is the model's reading of R71, notes/assumptions/13.md). -/
def Obligations.ControlWrites : Prop :=
  ∀ s ts a v, s.turns = .host (fullWrite a v) :: ts →
    let answers := fun t : State => step s = .next { t with turns := ts, reply := some (.write false) }
    (a = 0x008#14 → v.getLsbD 31 = false → answers { s with irqEn := v.getLsbD 0 }) ∧
    (a = 0x00C#14 →
      answers { s with
        done := s.done && !v.getLsbD 1
        err := s.err && !v.getLsbD 2
        errcode := if v.getLsbD 2 then 0#8 else s.errcode }) ∧
    (a = 0x000#14 ∨ a = 0x004#14 ∨ a = 0x010#14 ∨ a = 0x018#14 ∨ a = 0x03C#14 → answers s) ∧
    (a.toNat % 4 = 0 →
      (a = 0x01C#14 ∨ (0x048 ≤ a.toNat ∧ a.toNat ≤ 0x07C) ∨ (0x0C0 ≤ a.toNat ∧ a.toNat ≤ 0xFFC) ∨
        0x1000 + 16 * s.cfg.stride ≤ a.toNat) → answers s)

/-- R67: a write to H, HCNT, BLK or a BW word while idle replaces exactly that register; while busy it is dropped with
BUSY, and so is a CMD write (that pslverr is 0 then is the model's inference, notes/assumptions/25.md). -/
def Obligations.DataWrites : Prop :=
  ∀ s ts a v, s.turns = .host (fullWrite a v) :: ts →
    let answers := fun t : State => step s = .next { t with turns := ts, reply := some (.write false) }
    (s.busy = false →
      (∀ k : Fin 5, a.toNat = 0x020 + 4 * k.val →
        answers { s with sha := { s.sha with h := s.sha.h.set k v } }) ∧
      (a = 0x034#14 → answers { s with
        sha := { s.sha with hcnt := BitVec.ofNat 64 (s.sha.hcnt.toNat / 2 ^ 32 * 2 ^ 32 + v.toNat) } }) ∧
      (a = 0x038#14 → answers { s with
        sha := { s.sha with hcnt := BitVec.ofNat 64 (v.toNat * 2 ^ 32 + s.sha.hcnt.toNat % 2 ^ 32) } }) ∧
      (∀ k : Fin 16, a.toNat = 0x080 + 4 * k.val →
        ∃ buf : Vector Byte 64,
          (∀ x : Fin 64, buf[x] =
            if x.val / 4 = k.val then BitVec.ofNat 8 (v.toNat / 2 ^ (24 - 8 * (x.val % 4)) % 2 ^ 8) else s.sha.buf[x]) ∧
          answers { s with sha := { s.sha with buf := buf } }) ∧
      (∀ (i : BReg) (j : Nat), j < s.cfg.words → a.toNat = 0x1000 + i.val * s.cfg.stride + 4 * j →
        ∃ n : BigNat,
          (∀ x, n / 2 ^ (32 * x) % 2 ^ 32 = if x = j then v.toNat else s.b[i] / 2 ^ (32 * x) % 2 ^ 32) ∧
          answers { s with b := s.b.set i n })) ∧
    (s.busy = true → a.toNat % 4 = 0 →
      (a.toNat = 0x014 ∨ (0x020 ≤ a.toNat ∧ a.toNat < 0x03C) ∨ (0x080 ≤ a.toNat ∧ a.toNat < 0x0C0) ∨
        (0x1000 ≤ a.toNat ∧ a.toNat < 0x1000 + 16 * s.cfg.stride)) →
      answers { s with err := true, errcode := if s.errcode = 0#8 then 0x02#8 else s.errcode })

/-- R71: every register is found at its offset, for every legal OPW; an offset that the map gives to a register is that
register's own. -/
def Obligations.AddressMapIsOneToOne : Prop :=
  ∀ c : Config,
    (∀ r : RegName, (∀ i j, r = .bw i j → j < c.words) → regAt c (offsetOf c r) = r) ∧
    (∀ a : Addr, a.toNat % 4 = 0 → regAt c a ≠ .reserved →
      offsetOf c (regAt c a) = a ∧ ∀ i j, regAt c a = .bw i j → j < c.words)

/-- R12: a big register's value is the sum of its words, word 0 the least significant. -/
def Obligations.BigValueIsSumOfWords : Prop :=
  ∀ s (i : BReg), s.b[i] < 2 ^ s.cfg.opwBits →
    s.b[i] = ((List.range s.cfg.words).map fun j => (regValue (.bw i j) s).toNat * 2 ^ (32 * j)).sum

/-- Writes to H, HCNT, BLK and BW are idempotent: writing the same value twice leaves the same state. (The spec's own
derivation in R68: "derived: from rule R66 and rule R67".) -/
def Obligations.RegisterWritesAreIdempotent : Prop :=
  ∀ (r : RegName) v s, (∃ k, r = .h k) ∨ r = .hcntLo ∨ r = .hcntHi ∨ (∃ k, r = .blk k) ∨ (∃ i j, r = .bw i j) →
    writeReg r v (writeReg r v s) = writeReg r v s

/-- R99's `LOADB Bi, N` from an idle core: after its OPWW writes the register holds N, and nothing else has changed but
the bus's answer. The premise on B[i] is invariant I6 of R39. -/
def Obligations.LoadbLoadsTheRegister : Prop :=
  ∀ (s : State) (i : BReg) n ts, s.busy = false → s.b[i] < 2 ^ s.cfg.opwBits → n < 2 ^ s.cfg.opwBits → s.turns = loadb s.cfg i n ++ ts →
    core.run s.cfg.words s = .next { s with b := s.b.set i n, turns := ts, reply := some (.write false) }

/-! ### Reset -/

/-- R230: a hardware reset gives every piece of state its reset value, whatever the state before; the irq output is 0
and ID and PARAM read their constants. B0..B15 hold unspecified values of OPW bits, about which nothing else is said.
A transfer presented meanwhile is not performed, and a read returns 0. -/
def Obligations.HardwareReset : Prop :=
  ∀ s ts presented, s.turns = .reset presented :: ts →
    ∃ t, step s = .next t ∧
      t.irqEn = false ∧ t.busy = false ∧ t.done = false ∧ t.err = false ∧ t.errcode = 0#8 ∧ t.lastcmd = 0#32 ∧
      t.pend = .none ∧
      t.sha.h = #v[0x67452301#32, 0xEFCDAB89#32, 0x98BADCFE#32, 0x10325476#32, 0xC3D2E1F0#32] ∧
      t.sha.hcnt = 0#64 ∧ t.sha.buflen = 0 ∧ t.sha.hfin = false ∧ (∀ x : Fin 64, t.sha.buf[x] = 0#8) ∧
      (∀ i : BReg, t.b[i] < 2 ^ s.cfg.opwBits) ∧
      irq t = false ∧ regValue .id t = 0x43520100#32 ∧
      regValue .param t = BitVec.ofNat 32 (0x00100000 + s.cfg.opwBits) ∧
      t.cfg = s.cfg ∧ t.turns = ts ∧
      (∀ tr, presented = some tr → tr.write = false → ∃ e, t.reply = some (.read 0#32 e))

/-- R4, R230: the machine starts in the reset state, with the default OPW of 2048 (as the model chooses,
notes/assumptions/1.md) and nothing lined up (notes/assumptions/7.md). -/
def Obligations.ResetState : Prop :=
  State.reset.cfg.opwBits = 2048 ∧ State.reset.irqEn = false ∧ State.reset.busy = false ∧ State.reset.done = false ∧
  State.reset.err = false ∧ State.reset.errcode = 0#8 ∧ State.reset.lastcmd = 0#32 ∧ State.reset.pend = .none ∧
  State.reset.sha.h = #v[0x67452301#32, 0xEFCDAB89#32, 0x98BADCFE#32, 0x10325476#32, 0xC3D2E1F0#32] ∧
  State.reset.sha.hcnt = 0#64 ∧ State.reset.sha.buf = Vector.replicate 64 0#8 ∧ State.reset.sha.buflen = 0 ∧
  State.reset.sha.hfin = false ∧ State.reset.turns = []

/-- R232: a CTRL write with bit 31 set, in any state. A pending MODEXP, MODINV, GCD or CRT_DEC leaves its destination
unspecified (some value of OPW bits); every other big register keeps its value. -/
def Obligations.SoftReset : Prop :=
  ∀ s ts v, s.turns = .host (fullWrite 0x008#14 v) :: ts → v.getLsbD 31 = true →
    let cleared : State :=
      { s with
        turns := ts, reply := some (.write false)
        pend := .none, busy := false, irqEn := false, done := false, err := false, errcode := 0#8, lastcmd := 0#32
        sha :=
          { h := #v[0x67452301#32, 0xEFCDAB89#32, 0x98BADCFE#32, 0x10325476#32, 0xC3D2E1F0#32]
            hcnt := 0#64, buflen := 0, buf := Vector.replicate 64 0#8, hfin := false } }
    (∀ w latched rd, s.pend = .command w latched →
      ((∃ x y z chk, decodeCommand w = .ok (.modexp rd x y z chk)) ∨ (∃ x y, decodeCommand w = .ok (.modinv rd x y)) ∨
        (∃ x y, decodeCommand w = .ok (.gcd rd x y)) ∨ (∃ x k chk, decodeCommand w = .ok (.crtDec rd x k chk))) →
      ∃ n < 2 ^ s.cfg.opwBits, step s = .next { cleared with b := s.b.set rd n, draws := s.draws + 1 }) ∧
    ((∀ w latched i, s.pend = .command w latched → decodeCommand w = .ok i →
        i = .shaInit ∨ i = .shaCompress ∨ i = .shaFinal) →
      step s = .next cleared)

/-! ### The SHA-1 unit -/

/-- R131: the schedule has 80 words; the first 16 are the block's big-endian words, and each later one follows the
recurrence. -/
def Obligations.ScheduleRecurrence : Prop :=
  ∀ buf : Vector Byte 64,
    (schedule buf).length = 80 ∧
    (∀ i (hi : i < 16), (schedule buf)[i]? =
      some (be32 (buf[4 * i]'(by omega)) (buf[4 * i + 1]'(by omega)) (buf[4 * i + 2]'(by omega))
        (buf[4 * i + 3]'(by omega)))) ∧
    (∀ i, 16 ≤ i → i < 80 →
      (schedule buf)[i]? =
        some (rotl ((schedule buf).getD (i - 3) 0 ^^^ (schedule buf).getD (i - 8) 0 ^^^ (schedule buf).getD (i - 14) 0 ^^^
          (schedule buf).getD (i - 16) 0) 1))

/-- R132, R133: Compress is 80 rounds of the working variables, with f and k by round index, added into the
accumulators modulo 2^32. -/
def Obligations.CompressIsEightyRounds : Prop :=
  ∀ (h : Vector Word 5) (buf : Vector Byte 64), ∃ v : Nat → Vars,
    v 0 = { a := h[0], b := h[1], c := h[2], d := h[3], e := h[4] } ∧
    (∀ i, i < 80 → ∃ f k : Word,
      (i ≤ 19 → f = (v i).d ^^^ ((v i).b &&& ((v i).c ^^^ (v i).d)) ∧ k = 0x5A827999#32) ∧
      (20 ≤ i → i ≤ 39 → f = (v i).b ^^^ (v i).c ^^^ (v i).d ∧ k = 0x6ED9EBA1#32) ∧
      (40 ≤ i → i ≤ 59 →
        f = ((v i).b &&& (v i).c) ||| ((v i).d &&& ((v i).b ||| (v i).c)) ∧ k = 0x8F1BBCDC#32) ∧
      (60 ≤ i → f = (v i).b ^^^ (v i).c ^^^ (v i).d ∧ k = 0xCA62C1D6#32) ∧
      v (i + 1) =
        { a := rotl (v i).a 5 + f + (v i).e + k + (schedule buf).getD i 0, b := (v i).a, c := rotl (v i).b 30
          d := (v i).c, e := (v i).d }) ∧
    compress h buf = #v[h[0] + (v 80).a, h[1] + (v 80).b, h[2] + (v 80).c, h[3] + (v 80).d, h[4] + (v 80).e]

/-- R140: SHA_INIT, in every state; and it is the only instruction that leaves the finalized state. -/
def Obligations.ShaInitMeaning : Prop :=
  encode .shaInit = .command 0x00000010#32 ∧
  (∀ s, exec .shaInit s = .next { s with
    sha :=
      { h := #v[0x67452301#32, 0xEFCDAB89#32, 0x98BADCFE#32, 0x10325476#32, 0xC3D2E1F0#32]
        hcnt := 0#64, buflen := 0, buf := Vector.replicate 64 0x00#8, hfin := false }
    done := true, pend := .none, busy := false }) ∧
  ∀ i s t, i ≠ .shaInit → s.sha.hfin = true → exec i s = .next t → t.sha.hfin = true

/-- R142: SHA_COMPRESS, its three checks in order, and its effect; the buffer is not changed. -/
def Obligations.ShaCompressMeaning : Prop :=
  encode .shaCompress = .command 0x00000011#32 ∧
  ∀ s,
    let fails := fun c : BitVec 8 => exec .shaCompress s = .next { s with
      err := true, errcode := if s.errcode = 0#8 then c else s.errcode, done := true, pend := .none, busy := false }
    (s.sha.hfin = true → fails 0x04#8) ∧
    (s.sha.hfin = false → s.sha.buflen ≠ 0 → fails 0x03#8) ∧
    (s.sha.hfin = false → s.sha.buflen = 0 → s.sha.hcnt.toNat + 64 > 2 ^ 61 - 1 → fails 0x05#8) ∧
    (s.sha.hfin = false → s.sha.buflen = 0 → s.sha.hcnt.toNat + 64 ≤ 2 ^ 61 - 1 →
      exec .shaCompress s = .next { s with
        sha := { s.sha with
          h := compress s.sha.h s.sha.buf, hcnt := BitVec.ofNat 64 (s.sha.hcnt.toNat + 64) }
        done := true, pend := .none, busy := false })

/-- R144: the checks of SHA_FINAL, in order; and the counter can pass the limit only by an idle write of HCNT: from a
counter within it every other step, whatever the turn, leaves one within it. -/
def Obligations.ShaFinalChecks : Prop :=
  encode .shaFinal = .command 0x00000012#32 ∧
  ∀ s,
    let fails := fun c : BitVec 8 => exec .shaFinal s = .next { s with
      err := true, errcode := if s.errcode = 0#8 then c else s.errcode, done := true, pend := .none, busy := false }
    (s.sha.hfin = true → fails 0x04#8) ∧
    (s.sha.hfin = false → s.sha.hcnt.toNat > 2 ^ 61 - 1 → fails 0x05#8) ∧
    (∀ t, s.sha.hcnt.toNat ≤ 2 ^ 61 - 1 → step s = .next t → t.sha.hcnt.toNat > 2 ^ 61 - 1 →
      s.busy = false ∧ ∃ a v ts, s.turns = .host (fullWrite a v) :: ts ∧ (a = 0x034#14 ∨ a = 0x038#14))

/-- R145: the effect of SHA_FINAL when the checks pass, as the padded blocks it compresses: one block if buflen ≤ 55,
two if buflen is 56..63. `buf` ends as the last padded block, `hcnt` is unchanged. -/
def Obligations.ShaFinalEffect : Prop :=
  ∀ s, s.sha.hfin = false → s.sha.hcnt.toNat ≤ 2 ^ 61 - 1 →
    let message := s.sha.buf.toList.take s.sha.buflen ++ [0x80#8]
    let bitLength := be64bytes (BitVec.ofNat 64 (8 * s.sha.hcnt.toNat))
    let finishes := fun (h : Vector Word 5) (last : Vector Byte 64) =>
      exec .shaFinal s = .next { s with
        sha := { h := h, hcnt := s.sha.hcnt, buf := last, buflen := 0, hfin := true }
        done := true, pend := .none, busy := false }
    (s.sha.buflen ≤ 55 → ∃ block : Vector Byte 64,
      block.toList = message ++ List.replicate (55 - s.sha.buflen) 0x00#8 ++ bitLength ∧
      finishes (compress s.sha.h block) block) ∧
    (56 ≤ s.sha.buflen → s.sha.buflen ≤ 63 → ∃ first last : Vector Byte 64,
      first.toList = message ++ List.replicate (63 - s.sha.buflen) 0x00#8 ∧
      last.toList = List.replicate 56 0x00#8 ++ bitLength ∧
      finishes (compress (compress s.sha.h first) last) last)

/-- The two digests of the source (95_test_vectors.md V1 and V2), from the reset state: the empty message, and "abc". -/
def Obligations.ReferenceDigests : Prop :=
  (stateOf (exec .shaFinal State.reset) State.reset).sha.h =
    #v[0xDA39A3EE#32, 0x5E6B4B0D#32, 0x3255BFEF#32, 0x95601890#32, 0xAFD80709#32] ∧
  (stateOf (exec .shaFinal (feed [.byte 0x61#32, .byte 0x62#32, .byte 0x63#32] State.reset)) State.reset).sha.h =
    #v[0xA9993E36#32, 0x4706816A#32, 0xBA3E2571#32, 0x7850C26C#32, 0x9CD0D89D#32]

/-- R136: the checks of an append, in order; a failed append drops the whole write and does not change DONE. -/
def Obligations.AppendChecks : Prop :=
  ∀ s v,
    let fails := fun (i : Instr) (c : BitVec 8) =>
      exec i s = .next { s with err := true, errcode := if s.errcode = 0#8 then c else s.errcode }
    (s.busy = true → fails (.hdin32 v) 0x02#8 ∧ fails (.hdin8 v) 0x02#8) ∧
    (s.busy = false → s.sha.hfin = true → fails (.hdin32 v) 0x04#8 ∧ fails (.hdin8 v) 0x04#8) ∧
    (s.busy = false → s.sha.hfin = false → s.sha.hcnt.toNat + 4 > 2 ^ 61 - 1 → fails (.hdin32 v) 0x05#8) ∧
    (s.busy = false → s.sha.hfin = false → s.sha.hcnt.toNat + 1 > 2 ^ 61 - 1 → fails (.hdin8 v) 0x05#8)

/-- R137: HDIN32 when no check fails. The bytes v[31:24] first go to positions buflen, buflen + 1, …; with buflen ≤ 59
all four are appended; with buflen = 60 + r the block is full after 4 − r of them, and a FILL with the rest is pending. -/
def Obligations.Hdin32Meaning : Prop :=
  ∀ (s : State) (v : Word), s.busy = false → s.sha.hfin = false → s.sha.hcnt.toNat + 4 ≤ 2 ^ 61 - 1 → s.sha.buflen ≤ 63 →
    let bytes : List Byte := [v.extractLsb' 24 8, v.extractLsb' 16 8, v.extractLsb' 8 8, v.extractLsb' 0 8]
    let room := 64 - s.sha.buflen
    ∃ buf : Vector Byte 64,
      (∀ x : Fin 64, buf[x] =
        if s.sha.buflen ≤ x.val ∧ x.val < s.sha.buflen + 4 then bytes.getD (x.val - s.sha.buflen) 0 else s.sha.buf[x]) ∧
      (s.sha.buflen ≤ 59 →
        exec (.hdin32 v) s = .next { s with
          sha := { s.sha with buf := buf, buflen := s.sha.buflen + 4, hcnt := BitVec.ofNat 64 (s.sha.hcnt.toNat + 4) } }) ∧
      (60 ≤ s.sha.buflen →
        exec (.hdin32 v) s = .next { s with
          sha := { s.sha with buf := buf, buflen := 64, hcnt := BitVec.ofNat 64 (s.sha.hcnt.toNat + 4) }
          pend := .fill (bytes.drop room), busy := true })

/-- R138: HDIN8 when no check fails: v[7:0] is appended, and a FILL is pending exactly when the block is then full. -/
def Obligations.Hdin8Meaning : Prop :=
  ∀ s v, s.busy = false → s.sha.hfin = false → s.sha.hcnt.toNat + 1 ≤ 2 ^ 61 - 1 → (hb : s.sha.buflen < 64) →
    let u : HashState := { s.sha with
      buf := s.sha.buf.set s.sha.buflen (v.extractLsb' 0 8) hb, buflen := s.sha.buflen + 1
      hcnt := BitVec.ofNat 64 (s.sha.hcnt.toNat + 1) }
    (s.sha.buflen ≠ 63 → exec (.hdin8 v) s = .next { s with sha := u }) ∧
    (s.sha.buflen = 63 → exec (.hdin8 v) s = .next { s with sha := u, pend := .fill [], busy := true })

/-- R139: the completion of a FILL: the 64 bytes are compressed, the leftover bytes start the next block, the other
bytes of the compressed block stay, and DONE, ERR, ERRCODE and hcnt are not changed. -/
def Obligations.FillCompletion : Prop :=
  ∀ s ts rest, s.turns = .engine :: ts → s.pend = .fill rest → rest.length ≤ 3 →
    ∃ buf : Vector Byte 64,
      (∀ x : Fin 64, buf[x] = if x.val < rest.length then rest.getD x.val 0 else s.sha.buf[x]) ∧
      step s = .next { s with
        turns := ts
        sha := { s.sha with h := compress s.sha.h s.sha.buf, buf := buf, buflen := rest.length }
        pend := .none, busy := false }

/-- R141: chunking invariance. From any idle, unfinalized state with room for the message (the state after SHA_INIT
among them), two ways of splitting the same message bytes into HDIN32 and HDIN8 writes, each completed before the next,
leave the same state, so SHA_FINAL gives the same digest. (The spec's own derivation: "This is derived, not an extra
rule", R141.) -/
def Obligations.ChunkingInvariance : Prop :=
  ∀ s xs ys, s.busy = false → s.pend = .none → s.sha.hfin = false → s.sha.buflen ≤ 63 →
    s.sha.hcnt.toNat + (messageOf xs).length ≤ 2 ^ 61 - 1 → messageOf xs = messageOf ys →
    feed xs s = feed ys s ∧ exec .shaFinal (feed xs s) = exec .shaFinal (feed ys s)

/-- R143: SHA_COMPRESS gives the state (but for DONE) that sixteen HDIN32 writes of BLK0..BLK15 give, each completed.
(The spec's own derivation: "derived: from rule R137, rule R139, rule R142".) -/
def Obligations.CompressEqualsAppending : Prop :=
  ∀ s, s.busy = false → s.pend = .none → s.sha.hfin = false → s.sha.buflen = 0 → s.sha.hcnt.toNat + 64 ≤ 2 ^ 61 - 1 →
    exec .shaCompress s =
      .next { feed ((List.finRange 16).map fun k => Append.word (regValue (.blk k) s)) s with done := true }

/-! ### The number-theory commands -/

/-- R170, R171: MODEXP. The result is the exact power reduced by the modulus; a zero modulus is reported first, then,
with CHK, a base not less than the modulus. -/
def Obligations.ModexpMeaning : Prop :=
  ∀ s (rd x y z : BReg) chk,
    encode (.modexp rd x y z chk) = .command (BitVec.ofNat 32
      (0x20 + rd.val * 2 ^ 8 + x.val * 2 ^ 12 + y.val * 2 ^ 16 + z.val * 2 ^ 20 + chk.toNat * 2 ^ 24)) ∧
    (let base := operand s x
     let ex := operand s y
     let m := operand s z
     let fails := fun c : BitVec 8 => exec (.modexp rd x y z chk) s = .next { s with
       err := true, errcode := if s.errcode = 0#8 then c else s.errcode, done := true, pend := .none, busy := false }
     (m = 0 → fails 0x06#8) ∧
     (m ≠ 0 → chk = true → base ≥ m → fails 0x08#8) ∧
     (m ≠ 0 → (chk = true → base < m) →
       exec (.modexp rd x y z chk) s = .next { s with
         b := s.b.set rd (base ^ ex % m), done := true, pend := .none, busy := false }))

/-- R174, R175: MODINV. The result is the unique x in [0, m) with (a · x) mod m = 1 mod m; a zero modulus is reported
first, then an element that is not coprime to it, and on an error B[RD] is not written. -/
def Obligations.ModinvMeaning : Prop :=
  ∀ s (rd x y : BReg),
    encode (.modinv rd x y) = .command (BitVec.ofNat 32 (0x21 + rd.val * 2 ^ 8 + x.val * 2 ^ 12 + y.val * 2 ^ 16)) ∧
    (let a := operand s x
     let m := operand s y
     let fails := fun c : BitVec 8 => exec (.modinv rd x y) s = .next { s with
       err := true, errcode := if s.errcode = 0#8 then c else s.errcode, done := true, pend := .none, busy := false }
     (m = 0 → fails 0x06#8) ∧
     (m ≠ 0 → Nat.gcd a m ≠ 1 → fails 0x07#8) ∧
     (m ≠ 0 → Nat.gcd a m = 1 →
       ∃ n : Nat, n < m ∧ a * n % m = 1 % m ∧ (∀ n', n' < m → a * n' % m = 1 % m → n' = n) ∧
         exec (.modinv rd x y) s = .next { s with b := s.b.set rd n, done := true, pend := .none, busy := false }))

/-- R178: GCD: the greatest common divisor, with gcd(0, 0) = 0. -/
def Obligations.GcdMeaning : Prop :=
  ∀ s (rd x y : BReg),
    encode (.gcd rd x y) = .command (BitVec.ofNat 32 (0x22 + rd.val * 2 ^ 8 + x.val * 2 ^ 12 + y.val * 2 ^ 16)) ∧
    ∃ g : Nat,
      exec (.gcd rd x y) s = .next { s with b := s.b.set rd g, done := true, pend := .none, busy := false } ∧
      g ∣ operand s x ∧ g ∣ operand s y ∧ (∀ d, d ∣ operand s x → d ∣ operand s y → d ∣ g) ∧
      (operand s x = 0 → operand s y = 0 → g = 0)

/-- R190, R191: CRT_DEC. The result is the formula, with exact powers and the floored remainder of a signed difference;
the checks come in the order MODULUS_ZERO, RESULT_WIDTH, UNIT_OUT_OF_RANGE. -/
def Obligations.CrtDecMeaning : Prop :=
  ∀ s (rd x k : BReg) chk, k.val ≤ 11 →
    encode (.crtDec rd x k chk) = .command (BitVec.ofNat 32
      (0x30 + rd.val * 2 ^ 8 + x.val * 2 ^ 12 + k.val * 2 ^ 16 + chk.toNat * 2 ^ 24)) ∧
    (let c := operand s x
     let p := operand s k
     let q := operand s (Fin.ofNat 16 (k.val + 1))
     let dp := operand s (Fin.ofNat 16 (k.val + 2))
     let dq := operand s (Fin.ofNat 16 (k.val + 3))
     let qinv := operand s (Fin.ofNat 16 (k.val + 4))
     let n := p * q
     let m1 := c ^ dp % p
     let m2 := c ^ dq % q
     let h := (((qinv : Int) * ((m1 : Int) - (m2 : Int))) % (p : Int)).toNat
     let fails := fun e : BitVec 8 => exec (.crtDec rd x k chk) s = .next { s with
       err := true, errcode := if s.errcode = 0#8 then e else s.errcode, done := true, pend := .none, busy := false }
     (p = 0 ∨ q = 0 → fails 0x06#8) ∧
     (p ≠ 0 → q ≠ 0 → n > 2 ^ s.cfg.opwBits → fails 0x09#8) ∧
     (p ≠ 0 → q ≠ 0 → n ≤ 2 ^ s.cfg.opwBits → chk = true → c ≥ n → fails 0x08#8) ∧
     (p ≠ 0 → q ≠ 0 → n ≤ 2 ^ s.cfg.opwBits → (chk = true → c < n) →
       exec (.crtDec rd x k chk) s = .next { s with
         b := s.b.set rd ((m2 + h * q) % n), done := true, pend := .none, busy := false }))

/-- R194: under the key invariants (p and q distinct odd primes, e·d ≡ 1 mod lcm(p−1, q−1), and d_p, d_q, q_inv as
defined from them), CRT_DEC gives c^d mod n for every c, and it undoes MODEXP(u, e, n) for every u < n. (The spec's own
derivation: "This is derived, and it holds only under the key invariants", R194.) -/
def Obligations.CrtDecEqualsFullExponentiation : Prop :=
  ∀ s (rd x k : BReg) (p q d e : Nat), k.val ≤ 11 → p.Prime → q.Prime → p ≠ q → p ≠ 2 → q ≠ 2 →
    e * d % Nat.lcm (p - 1) (q - 1) = 1 % Nat.lcm (p - 1) (q - 1) →
    operand s k = p → operand s (Fin.ofNat 16 (k.val + 1)) = q →
    operand s (Fin.ofNat 16 (k.val + 2)) = d % (p - 1) → operand s (Fin.ofNat 16 (k.val + 3)) = d % (q - 1) →
    operand s (Fin.ofNat 16 (k.val + 4)) * q % p = 1 → p * q ≤ 2 ^ s.cfg.opwBits →
    exec (.crtDec rd x k false) s = .next { s with
      b := s.b.set rd (operand s x ^ d % (p * q)), done := true, pend := .none, busy := false } ∧
    (∀ u, u < p * q → operand s x = u ^ e % (p * q) →
      exec (.crtDec rd x k true) s = .next { s with b := s.b.set rd u, done := true, pend := .none, busy := false })

/-! ### Frames -/

/-- R117 and the frame of the seven commands. MODEXP, MODINV, GCD and CRT_DEC change no big register but B[RD] and leave
the SHA unit alone; the SHA commands leave every big register alone. No command changes LASTCMD, IRQ_EN, the build
parameters, the lined-up transfers or the bus's answer; DONE is 1 and BUSY is 0 after it. -/
def Obligations.FrameOfCommands : Prop :=
  ∀ i s t, (∀ v, i ≠ .hdin32 v ∧ i ≠ .hdin8 v) → exec i s = .next t →
    (∀ r : BReg, destReg i ≠ some r → t.b[r] = s.b[r]) ∧
    ((∃ rd, destReg i = some rd) → t.sha = s.sha) ∧
    t.lastcmd = s.lastcmd ∧ t.irqEn = s.irqEn ∧ t.cfg = s.cfg ∧ t.turns = s.turns ∧ t.reply = s.reply ∧
    t.draws = s.draws ∧ t.done = true ∧ t.pend = .none ∧ t.busy = false ∧
    ((t.err = s.err ∧ t.errcode = s.errcode) ∨ (t.err = true ∧ t.sha = s.sha ∧ t.b = s.b))

/-- The frame of HDIN32 and HDIN8. They change no big register, no accumulator, not hfin, DONE, LASTCMD or IRQ_EN; the
buffer bytes below buflen and from buflen + 4 (HDIN32) or buflen + 1 (HDIN8) on stay. -/
def Obligations.FrameOfAppends : Prop :=
  ∀ i n s t v, (i = .hdin32 v ∧ n = 4) ∨ (i = .hdin8 v ∧ n = 1) → exec i s = .next t →
    t.b = s.b ∧ t.sha.h = s.sha.h ∧ t.sha.hfin = s.sha.hfin ∧ t.done = s.done ∧ t.lastcmd = s.lastcmd ∧
    t.irqEn = s.irqEn ∧ t.cfg = s.cfg ∧ t.turns = s.turns ∧ t.reply = s.reply ∧ t.draws = s.draws ∧
    (∀ x : Fin 64, x.val < s.sha.buflen ∨ s.sha.buflen + n ≤ x.val → t.sha.buf[x] = s.sha.buf[x]) ∧
    ((t.err = s.err ∧ t.errcode = s.errcode) ∨
      (t.err = true ∧ t.sha = s.sha ∧ t.pend = s.pend ∧ t.busy = s.busy))

/-! ### The host's pseudo-instructions -/

/-- R99's `HASHBYTES`, from an idle, unfinalized core with room for the message. Whatever the numbers of failing polls,
its transfers append the message (as single bytes would, each completed before the next) and change nothing else, and
the last poll has read STATUS with BUSY = 0. -/
def Obligations.HashBytesAppendsTheMessage : Prop :=
  ∀ (s : State) polls bytes ts, s.busy = false → s.pend = .none → s.sha.hfin = false →
    s.sha.hcnt.toNat + bytes.length ≤ 2 ^ 61 - 1 → s.turns = hashBytes s.cfg polls bytes ++ ts →
    let t := feed (bytes.map fun b => Append.byte (b.setWidth 32)) s
    t.busy = false ∧ t.pend = .none ∧
    core.run (hashBytes s.cfg polls bytes).length s = .next { t with
      turns := ts, reply := if bytes = [] then s.reply else some (.read (statusWord t) false) }

end
end

