-- ==== Sys2Proof/Laws/Decode.lean ====
section
/-! SUPPORT. The fields of an encoded command word, and what decoding a word says of its bits. -/

namespace Sys2Proof.Laws

section Fields

variable (op : BitVec 8) (rd r1 r2 r3 : BReg) (chk : Bool)

@[simp] theorem opcodeOf_commandWord : opcodeOf (commandWord op rd r1 r2 r3 chk) = op := by
  unfold opcodeOf commandWord regField
  ext i hi
  interval_cases i <;> simp

theorem rdBits_commandWord : (commandWord op rd r1 r2 r3 chk).extractLsb' 8 4 = BitVec.ofFin (w := 4) rd := by
  unfold commandWord regField
  ext i hi
  interval_cases i <;> simp

theorem rs1Bits_commandWord : (commandWord op rd r1 r2 r3 chk).extractLsb' 12 4 = BitVec.ofFin (w := 4) r1 := by
  unfold commandWord regField
  ext i hi
  interval_cases i <;> simp

theorem rs2Bits_commandWord : (commandWord op rd r1 r2 r3 chk).extractLsb' 16 4 = BitVec.ofFin (w := 4) r2 := by
  unfold commandWord regField
  ext i hi
  interval_cases i <;> simp

@[simp] theorem rs3Bits_commandWord :
    (commandWord op rd r1 r2 r3 chk).extractLsb' 20 4 = BitVec.ofFin (w := 4) r3 := by
  unfold commandWord regField
  ext i hi
  interval_cases i <;> simp

@[simp] theorem rsvOf_commandWord : rsvOf (commandWord op rd r1 r2 r3 chk) = 0#7 := by
  unfold rsvOf commandWord regField
  ext i hi
  interval_cases i <;> simp

@[simp] theorem rdOf_commandWord : rdOf (commandWord op rd r1 r2 r3 chk) = rd := by
  simp [rdOf, rdBits_commandWord]

@[simp] theorem rs1Of_commandWord : rs1Of (commandWord op rd r1 r2 r3 chk) = r1 := by
  simp [rs1Of, rs1Bits_commandWord]

@[simp] theorem rs2Of_commandWord : rs2Of (commandWord op rd r1 r2 r3 chk) = r2 := by
  simp [rs2Of, rs2Bits_commandWord]

@[simp] theorem rs3Of_commandWord : rs3Of (commandWord op rd r1 r2 r3 chk) = r3 := by
  simp [rs3Of]

@[simp] theorem chkOf_commandWord : chkOf (commandWord op rd r1 r2 r3 chk) = chk := by
  simp [chkOf, commandWord, regField]

/-- Without RS3 and CHK, bits 24:20 are 0. -/
@[simp] theorem highBits_commandWord : (commandWord op rd r1 r2 0 false).extractLsb' 20 5 = 0#5 := by
  unfold commandWord regField
  ext i hi
  interval_cases i <;> simp

/-- Without operands, bits 24:8 are 0. -/
@[simp] theorem operandBits_commandWord : (commandWord op 0 0 0 0 false).extractLsb' 8 17 = 0#17 := by
  unfold commandWord regField
  ext i hi
  interval_cases i <;> simp

end Fields

/-- A word is the command word of its own fields when its reserved bits are 0. -/
theorem commandWord_fields (w : Word) (h : rsvOf w = 0#7) :
    commandWord (opcodeOf w) (rdOf w) (rs1Of w) (rs2Of w) (rs3Of w) (chkOf w) = w := by
  have hr := fun i => congrArg (fun x : BitVec 7 => x.getLsbD i) h
  simp only [rsvOf, BitVec.getLsbD_extractLsb'] at hr
  have e1 : regField (rdOf w) = (w.extractLsb' 8 4).setWidth 32 := rfl
  have e2 : regField (rs1Of w) = (w.extractLsb' 12 4).setWidth 32 := rfl
  have e3 : regField (rs2Of w) = (w.extractLsb' 16 4).setWidth 32 := rfl
  have e4 : regField (rs3Of w) = (w.extractLsb' 20 4).setWidth 32 := rfl
  unfold commandWord opcodeOf chkOf
  rw [e1, e2, e3, e4]
  ext i hi
  have := hr (i - 25)
  clear hr h
  interval_cases i <;> simp at this ⊢ <;> simp [this]

/-- Reading a row's "must be 0" bits as zero. -/
theorem whenZero_eq_ok {z : Bool} {i j : Instr} : whenZero z i = .ok j ↔ z = true ∧ i = j := by
  cases z <;> simp [whenZero]

/-- A 4-bit field is 0 when its number is. -/
theorem field_eq_zero (w : Word) (k : Nat) : ((w.extractLsb' k 4).toFin : BReg) = 0 ↔ w.toNat / 2 ^ k % 16 = 0 := by
  rw [Fin.ext_iff]
  simp [Nat.shiftRight_eq_div_pow]

/-- CHK is bit 24. -/
theorem chkOf_eq_false (w : Word) : chkOf w = false ↔ w.toNat / 2 ^ 24 % 2 = 0 := by
  unfold chkOf BitVec.getLsbD
  rw [Nat.testBit_eq_decide_div_mod_eq]
  simp

/-- The bits 24:8 of a word are its five operand fields. -/
theorem operandBits_eq_zero (w : Word) :
    w.extractLsb' 8 17 = 0#17 ↔ rdOf w = 0 ∧ rs1Of w = 0 ∧ rs2Of w = 0 ∧ rs3Of w = 0 ∧ chkOf w = false := by
  rw [chkOf_eq_false, rdOf, rs1Of, rs2Of, rs3Of, field_eq_zero, field_eq_zero, field_eq_zero, field_eq_zero,
    BitVec.toNat_eq, BitVec.extractLsb'_toNat, Nat.shiftRight_eq_div_pow]
  simp only [BitVec.toNat_ofNat]
  omega

/-- The bits 24:20 of a word are RS3 and CHK. -/
theorem highBits_eq_zero (w : Word) : w.extractLsb' 20 5 = 0#5 ↔ rs3Of w = 0 ∧ chkOf w = false := by
  rw [chkOf_eq_false, rs3Of, field_eq_zero, BitVec.toNat_eq, BitVec.extractLsb'_toNat, Nat.shiftRight_eq_div_pow]
  simp only [BitVec.toNat_ofNat]
  omega

/-- A mask and match of R93 read as fields: the reserved bits and the opcode. -/
theorem maskMatch (w : Word) (op : BitVec 8) :
    w &&& 0xFE0000FF#32 = op.setWidth 32 ↔ rsvOf w = 0#7 ∧ opcodeOf w = op := by
  simp only [rsvOf, opcodeOf]
  constructor
  · intro h
    have h' := fun i => congrArg (fun x : Word => x.getLsbD i) h
    simp only [BitVec.getLsbD_and, BitVec.getLsbD_setWidth] at h'
    constructor
    · ext i hi
      have := h' (25 + i)
      interval_cases i <;> simpa using this
    · ext i hi
      have := h' i
      interval_cases i <;> simpa using this
  · rintro ⟨h1, h2⟩
    have h1' := fun i => congrArg (fun x : BitVec 7 => x.getLsbD i) h1
    have h2' := fun i => congrArg (fun x : BitVec 8 => x.getLsbD i) h2
    ext i hi
    have a := h1' (i - 25)
    have b := h2' i
    interval_cases i <;> simp at a b ⊢ <;> assumption

/-- A wider mask also asks that its extra bits are 0. -/
theorem maskMatch_wider (w m extra : Word) (op : BitVec 8) (hm : m = 0xFE0000FF#32 ||| extra)
    (hx : extra &&& 0xFE0000FF#32 = 0#32) :
    w &&& m = op.setWidth 32 ↔ w &&& 0xFE0000FF#32 = op.setWidth 32 ∧ w &&& extra = 0#32 := by
  subst hm
  have hop : op.setWidth 32 &&& extra = 0#32 := by
    have he := fun i => congrArg (fun x : Word => x.getLsbD i) hx
    clear hx
    ext i hi
    have := he i
    clear he
    interval_cases i <;> simp_all
  constructor
  · intro h
    have h1 := congrArg (· &&& extra) h
    have h2 := congrArg (· &&& 0xFE0000FF#32) h
    simp only [BitVec.and_assoc] at h1 h2
    constructor
    · have e1 : (0xFE0000FF#32 ||| extra) &&& 0xFE0000FF#32 = 0xFE0000FF#32 := by
        rw [BitVec.and_or_distrib_right, hx]; simp
      rw [e1] at h2
      rw [h2]
      ext i hi
      interval_cases i <;> simp
    · have e2 : (0xFE0000FF#32 ||| extra) &&& extra = extra := by
        rw [BitVec.and_or_distrib_right, BitVec.and_comm _ extra, hx]; simp
      rw [e2, hop] at h1
      exact h1
  · rintro ⟨h1, h2⟩
    rw [BitVec.and_or_distrib_left, h1, h2, BitVec.or_zero]

/-- A command word read from a number with the given fields. -/
theorem commandWord_of_fields (N o a b c d k : Nat) (op : BitVec 8) (ra rb rc rd : BReg) (kb : Bool)
    (ho : op.toNat = o) (ha : ra.val = a) (hb : rb.val = b) (hc : rc.val = c) (hd : rd.val = d) (hk : kb.toNat = k)
    (h0 : N < 2 ^ 25) (h1 : N % 256 = o) (h2 : N / 2 ^ 8 % 16 = a) (h3 : N / 2 ^ 12 % 16 = b)
    (h4 : N / 2 ^ 16 % 16 = c) (h5 : N / 2 ^ 20 % 16 = d) (h6 : N / 2 ^ 24 % 2 = k) :
    commandWord op ra rb rc rd kb = BitVec.ofNat 32 N := by
  have hn : (BitVec.ofNat 32 N).toNat = N := by rw [BitVec.toNat_ofNat]; exact Nat.mod_eq_of_lt (by omega)
  have hr : rsvOf (BitVec.ofNat 32 N) = 0#7 := by
    apply BitVec.eq_of_toNat_eq
    rw [rsvOf, BitVec.extractLsb'_toNat, hn, Nat.shiftRight_eq_div_pow]
    show N / 2 ^ 25 % 2 ^ 7 = 0
    omega
  rw [← commandWord_fields _ hr]
  have e0 : opcodeOf (BitVec.ofNat 32 N) = op := by
    apply BitVec.eq_of_toNat_eq
    rw [opcodeOf, BitVec.extractLsb'_toNat, hn, Nat.shiftRight_eq_div_pow]
    show N / 2 ^ 0 % 2 ^ 8 = _
    omega
  have e : ∀ (n : Nat) (r : BReg), N / 2 ^ n % 16 = r.val → ((BitVec.ofNat 32 N).extractLsb' n 4).toFin = r := by
    intro n r h
    apply Fin.ext
    show ((BitVec.ofNat 32 N).extractLsb' n 4).toNat = _
    rw [BitVec.extractLsb'_toNat, hn, Nat.shiftRight_eq_div_pow]
    exact h
  have ek : chkOf (BitVec.ofNat 32 N) = kb := by
    cases kb
    · rw [chkOf_eq_false, hn, h6, ← hk]; rfl
    · have hne : ¬ chkOf (BitVec.ofNat 32 N) = false := by rw [chkOf_eq_false, hn, h6, ← hk]; decide
      simpa using hne
  unfold rdOf rs1Of rs2Of rs3Of
  rw [e0, ek, e 8 ra (by omega), e 12 rb (by omega), e 16 rc (by omega), e 20 rd (by omega)]

/-- R97: the encoder's word as the sum of its shifted fields. -/
theorem commandWord_eq_ofNat (op : BitVec 8) (a b c d : BReg) (k : Bool) :
    commandWord op a b c d k = BitVec.ofNat 32
      (op.toNat + a.val * 2 ^ 8 + b.val * 2 ^ 12 + c.val * 2 ^ 16 + d.val * 2 ^ 20 + k.toNat * 2 ^ 24) := by
  have h0 := op.isLt
  have h1 := a.isLt
  have h2 := b.isLt
  have h3 := c.isLt
  have h4 := d.isLt
  have hk : k.toNat < 2 := Bool.toNat_lt k
  refine commandWord_of_fields _ _ _ _ _ _ _ op a b c d k rfl rfl rfl rfl rfl rfl ?_ ?_ ?_ ?_ ?_ ?_ ?_ <;>
    (generalize op.toNat = o at *
     generalize a.val = a at *
     generalize b.val = b at *
     generalize c.val = c at *
     generalize d.val = d at *
     generalize k.toNat = k at *
     omega)

end Sys2Proof.Laws
end

