-- ==== Sys2Proof/Laws/ModArith.lean ====
section
/-! SUPPORT. The arithmetic of the number-theory engine: repeated squaring is the exact power (R170), the extended-Euclid
loop gives the inverse (R174, R177), and every result is smaller than its modulus (R172, R176, R193). -/

namespace Sys2Proof.Laws

open Sys2Proof.Machine

/-- What the loop computes from any point of it. -/
theorem powModLoop_eq (fuel base ex m acc : Nat) (hex : ex < 2 ^ fuel) (hacc : acc % m = acc) :
    powModLoop fuel base ex m acc = acc * base ^ ex % m := by
  induction fuel generalizing base ex acc with
  | zero =>
    obtain rfl : ex = 0 := by omega
    simp [powModLoop, hacc]
  | succ fuel ih =>
    unfold powModLoop
    split
    · next h => simp [h, hacc]
    · have hsq (x : Nat) : x * (base * base % m) ^ (ex / 2) % m = x * base ^ (2 * (ex / 2)) % m := by
        rw [Nat.mul_mod, ← Nat.pow_mod, ← pow_two, ← pow_mul, ← Nat.mul_mod]
      have hhalf : ex / 2 < 2 ^ fuel := by rw [pow_succ] at hex; omega
      by_cases hodd : ex % 2 = 1
      · rw [if_pos hodd]
        have hx : ex = 2 * (ex / 2) + 1 := by omega
        rw [ih _ _ _ hhalf (Nat.mod_mod _ _), hsq, Nat.mul_mod, Nat.mod_mod, ← Nat.mul_mod]
        conv_rhs => rw [hx, pow_succ', ← mul_assoc]
      · rw [if_neg hodd]
        have hx : ex = 2 * (ex / 2) := by omega
        rw [ih _ _ _ hhalf hacc, hsq]
        conv_rhs => rw [hx]

/-- R170: `powMod` is `(base ^ ex) mod m`, the modulus 0 included. -/
theorem powMod_eq (base ex m : Nat) : powMod base ex m = base ^ ex % m := by
  unfold powMod
  rw [powModLoop_eq _ _ _ _ _ Nat.lt_log2_self (Nat.mod_mod _ _), Nat.mul_mod, ← Nat.pow_mod, Nat.mod_mod,
    ← Nat.mul_mod, one_mul]

/-- R172: the result is less than the modulus. -/
theorem powMod_lt (base ex m : Nat) (hm : m ≠ 0) : powMod base ex m < m := by
  rw [powMod_eq]; exact Nat.mod_lt _ (Nat.pos_of_ne_zero hm)

/-- R8: 0 ≤ r < m. -/
theorem floorMod_lt (x : Int) (m : Nat) (hm : m ≠ 0) : floorMod x m < m := by
  have h1 := Int.emod_nonneg x (b := m) (by omega)
  have h2 := Int.emod_lt_of_pos x (b := m) (by omega)
  unfold floorMod; omega

/-- R8: the floored remainder, as an integer. -/
theorem floorMod_cast (x : Int) (m : Nat) (hm : m ≠ 0) : (floorMod x m : Int) = x % m := by
  have h1 := Int.emod_nonneg x (b := m) (by omega)
  unfold floorMod; omega

/-- The loop keeps each remainder a multiple of `a` modulo `m`, and ends at the gcd. -/
theorem euclidLoop_spec (a m : Int) (fuel r0 r1 : Nat) (t0 t1 : Int) (hf : r1 < fuel)
    (h0 : m ∣ r0 - t0 * a) (h1 : m ∣ r1 - t1 * a) :
    (euclidLoop fuel r0 r1 t0 t1).1 = Nat.gcd r0 r1 ∧
      m ∣ (euclidLoop fuel r0 r1 t0 t1).1 - (euclidLoop fuel r0 r1 t0 t1).2 * a := by
  induction fuel generalizing r0 r1 t0 t1 with
  | zero => omega
  | succ fuel ih =>
    unfold euclidLoop
    split
    · next h => subst h; simp [h0]
    · next h =>
      have hlt : r0 % r1 < r1 := Nat.mod_lt _ (Nat.pos_of_ne_zero h)
      have hdiv : ((r0 % r1 : Nat) : Int) = r0 - (r0 / r1 : Nat) * r1 := by
        have := Nat.div_add_mod r0 r1
        have : (r0 : Int) = r1 * (r0 / r1 : Nat) + (r0 % r1 : Nat) := by exact_mod_cast this.symm
        linarith
      have h2 : m ∣ ((r0 % r1 : Nat) : Int) - (t0 - (r0 / r1 : Nat) * t1) * a := by
        have : ((r0 % r1 : Nat) : Int) - (t0 - (r0 / r1 : Nat) * t1) * a =
            (r0 - t0 * a) - (r0 / r1 : Nat) * (r1 - t1 * a) := by rw [hdiv]; ring
        rw [this]; exact dvd_sub h0 (Dvd.dvd.mul_left h1 _)
      obtain ⟨g, d⟩ := ih r1 (r0 % r1) t1 _ (by omega) h1 h2
      refine ⟨?_, d⟩
      rw [g, Nat.gcd_comm, ← Nat.gcd_rec, Nat.gcd_comm]

/-- R176: the inverse is less than the modulus. -/
theorem modInverse_lt (a m : Nat) (hm : m ≠ 0) : modInverse a m < m := floorMod_lt _ _ hm

/-- R174: `a · x mod m = 1 mod m`. -/
theorem modInverse_spec (a m : Nat) (hm : m ≠ 0) (hg : Nat.gcd a m = 1) : a * modInverse a m % m = 1 % m := by
  have hlt : a % m < m + 1 := by have := Nat.mod_lt a (Nat.pos_of_ne_zero hm); omega
  obtain ⟨g, d⟩ := euclidLoop_spec a m (m + 1) m (a % m) 0 1 hlt (by simp)
    (by rw [one_mul, Int.natCast_mod]; exact (Int.dvd_sub_self_of_emod_eq rfl))
  rw [Nat.gcd_comm, ← Nat.gcd_rec, Nat.gcd_comm, hg] at g
  rw [g] at d
  have hinv : (modInverse a m : Int) = (euclidLoop (m + 1) m (a % m) 0 1).2 % m := floorMod_cast _ _ hm
  have : (m : Int) ∣ ((1 : Nat) : Int) - (a * modInverse a m : Nat) := by
    have h2 : (m : Int) ∣ (euclidLoop (m + 1) m (a % m) 0 1).2 - modInverse a m := by
      rw [hinv]; exact Int.dvd_self_sub_of_emod_eq rfl
    have h3 := dvd_add d (Dvd.dvd.mul_right h2 (a : Int))
    have h4 : ((1 : Nat) : Int) - (a * modInverse a m : Nat) =
        (1 : Nat) - (euclidLoop (m + 1) m (a % m) 0 1).2 * a + ((euclidLoop (m + 1) m (a % m) 0 1).2 - modInverse a m) * a := by
      push_cast; ring
    rw [h4]; exact h3
  exact (Nat.modEq_iff_dvd.mpr this)
/-- R193: the CRT result is less than n. -/
theorem crtResult_lt (o : CrtOperands) (hp : o.p ≠ 0) (hq : o.q ≠ 0) : crtResult o < o.p * o.q :=
  Nat.mod_lt _ (Nat.mul_pos (Nat.pos_of_ne_zero hp) (Nat.pos_of_ne_zero hq))

end Sys2Proof.Laws
end

