-- ==== Sys2Proof/Laws/Sha1.lean ====
section
/-! SUPPORT. The SHA-1 unit: what appending and padding several bytes does, in closed form (R134 to R145). -/

namespace Sys2Proof.Laws

open Sys2Proof.Machine

/-- The buffer with bytes stored from position n on. -/
def putBytes : List Byte → Nat → Vector Byte 64 → Vector Byte 64
  | [], _, buf => buf
  | b :: bs, n, buf => putBytes bs (n + 1) (buf.setIfInBounds n b)

/-- Each byte of the buffer after several bytes are stored. -/
theorem getElem_putBytes (bs : List Byte) (n : Nat) (buf : Vector Byte 64) (x : Nat) (hx : x < 64) :
    (putBytes bs n buf)[x] = if n ≤ x ∧ x < n + bs.length then bs.getD (x - n) 0 else buf[x] := by
  induction bs generalizing n buf with
  | nil => simp [putBytes]
  | cons b bs ih =>
    rw [putBytes, ih, Vector.getElem_setIfInBounds]
    by_cases hnx : n = x
    · subst hnx; simp
    · by_cases h1 : n + 1 ≤ x ∧ x < n + 1 + bs.length
      · have h2 : n ≤ x ∧ x < n + (b :: bs).length := by simp; omega
        have h3 : x - n = (x - (n + 1)) + 1 := by omega
        rw [if_pos h1, if_pos h2, h3, List.getD_cons_succ]
      · have h2 : ¬ (n ≤ x ∧ x < n + (b :: bs).length) := by simp; omega
        rw [if_neg h1, if_neg h2, if_neg hnx]

/-- Storing bytes in two parts. -/
theorem putBytes_append (as bs : List Byte) (n : Nat) (buf : Vector Byte 64) :
    putBytes (as ++ bs) n buf = putBytes bs (n + as.length) (putBytes as n buf) := by
  induction as generalizing n buf with
  | nil => simp [putBytes]
  | cons a as ih => simp only [List.cons_append, putBytes, ih, List.length_cons]; congr 1; omega

@[simp] theorem appendByte_h (b : Byte) (u : HashState) : (appendByte b u).h = u.h := rfl
@[simp] theorem appendByte_hcnt (b : Byte) (u : HashState) : (appendByte b u).hcnt = u.hcnt := rfl
@[simp] theorem appendByte_buf (b : Byte) (u : HashState) :
    (appendByte b u).buf = u.buf.setIfInBounds u.buflen b := rfl
@[simp] theorem appendByte_buflen (b : Byte) (u : HashState) : (appendByte b u).buflen = u.buflen + 1 := rfl
@[simp] theorem appendByte_hfin (b : Byte) (u : HashState) : (appendByte b u).hfin = u.hfin := rfl

/-- R134, repeated: the bytes stand from buflen on. -/
theorem foldl_appendByte (bs : List Byte) (u : HashState) :
    bs.foldl (fun u b => appendByte b u) u =
      { u with buf := putBytes bs u.buflen u.buf, buflen := u.buflen + bs.length } := by
  induction bs generalizing u with
  | nil => simp [putBytes]
  | cons b bs ih => rw [List.foldl_cons, ih]; simp [appendByte, putBytes]; omega

/-- R137's loop when the block does not fill. -/
theorem appendUntilFull_room (bs : List Byte) (u : HashState) (h : u.buflen + bs.length < 64) :
    appendUntilFull bs u =
      ({ u with buf := putBytes bs u.buflen u.buf, buflen := u.buflen + bs.length }, none) := by
  induction bs generalizing u with
  | nil => simp [appendUntilFull, putBytes]
  | cons b bs ih =>
    simp only [List.length_cons] at h
    have hne : u.buflen + 1 ≠ 64 := by omega
    rw [appendUntilFull]
    simp only [appendByte_buflen, hne, if_false]
    rw [ih _ (by simp; omega)]
    simp [appendByte, putBytes]; omega

/-- R137's loop when the block fills: the bytes that found no room are given back. -/
theorem appendUntilFull_full (bs : List Byte) (u : HashState) (hu : u.buflen < 64) (h : 64 ≤ u.buflen + bs.length) :
    appendUntilFull bs u =
      ({ u with buf := putBytes (bs.take (64 - u.buflen)) u.buflen u.buf, buflen := 64 },
        some (bs.drop (64 - u.buflen))) := by
  induction bs generalizing u with
  | nil => simp only [List.length_nil] at h; omega
  | cons b bs ih =>
    simp only [List.length_cons] at h
    rw [appendUntilFull]
    by_cases he : u.buflen + 1 = 64
    · have h1 : 64 - u.buflen = 1 := by omega
      simp [he, h1, appendByte, putBytes]
    · have h1 : 64 - u.buflen = (64 - (u.buflen + 1)) + 1 := by omega
      simp only [appendByte_buflen, he, if_false]
      rw [ih _ (by simp; omega) (by simp; omega), h1]
      simp [appendByte, putBytes]

/-- R145: PadByte with room left. -/
theorem padByte_room (b : Byte) (u : HashState) (h : u.buflen + 1 ≠ 64) : padByte b u = appendByte b u := if_neg h

/-- R145: PadByte that fills the block. -/
theorem padByte_full (b : Byte) (u : HashState) (h : u.buflen + 1 = 64) :
    padByte b u =
      { u with
        h := compress u.h (u.buf.setIfInBounds u.buflen b), buf := u.buf.setIfInBounds u.buflen b, buflen := 0 } :=
  if_pos h

/-- R145: PadByte does not touch the byte counter or hfin. -/
@[simp] theorem padByte_hcnt (b : Byte) (u : HashState) : (padByte b u).hcnt = u.hcnt := by
  by_cases h : u.buflen + 1 = 64
  · rw [padByte_full b u h]
  · rw [padByte_room b u h]; rfl
@[simp] theorem padByte_hfin (b : Byte) (u : HashState) : (padByte b u).hfin = u.hfin := by
  by_cases h : u.buflen + 1 = 64
  · rw [padByte_full b u h]
  · rw [padByte_room b u h]; rfl

/-- PadByte leaves a partly filled block. -/
theorem padByte_buflen_le (b : Byte) (u : HashState) (hu : u.buflen ≤ 63) : (padByte b u).buflen ≤ 63 := by
  by_cases h : u.buflen + 1 = 64
  · rw [padByte_full b u h]; simp
  · rw [padByte_room b u h]; simp; omega

/-- Padding commutes with setting the byte counter. -/
theorem padByte_with_hcnt (b : Byte) (u : HashState) (c : BitVec 64) :
    padByte b { u with hcnt := c } = { padByte b u with hcnt := c } := by
  by_cases h : u.buflen + 1 = 64
  · rw [padByte_full b u h, padByte_full b { u with hcnt := c } h]
  · rw [padByte_room b u h, padByte_room b { u with hcnt := c } h]; rfl

theorem foldl_padByte_hcnt (bs : List Byte) (u : HashState) :
    (bs.foldl (fun u b => padByte b u) u).hcnt = u.hcnt := by
  induction bs generalizing u with
  | nil => rfl
  | cons b bs ih => rw [List.foldl_cons, ih, padByte_hcnt]

theorem foldl_padByte_hfin (bs : List Byte) (u : HashState) :
    (bs.foldl (fun u b => padByte b u) u).hfin = u.hfin := by
  induction bs generalizing u with
  | nil => rfl
  | cons b bs ih => rw [List.foldl_cons, ih, padByte_hfin]

theorem foldl_padByte_buflen_le (bs : List Byte) (u : HashState) (h : u.buflen ≤ 63) :
    (bs.foldl (fun u b => padByte b u) u).buflen ≤ 63 := by
  induction bs generalizing u with
  | nil => exact h
  | cons b bs ih => exact ih _ (padByte_buflen_le b u h)

theorem foldl_padByte_with_hcnt (bs : List Byte) (u : HashState) (c : BitVec 64) :
    bs.foldl (fun u b => padByte b u) { u with hcnt := c } =
      { bs.foldl (fun u b => padByte b u) u with hcnt := c } := by
  induction bs generalizing u with
  | nil => rfl
  | cons b bs ih => rw [List.foldl_cons, padByte_with_hcnt, ih, List.foldl_cons]

/-- Padding that does not fill the block. -/
theorem foldl_padByte_room (bs : List Byte) (u : HashState) (h : u.buflen + bs.length < 64) :
    bs.foldl (fun u b => padByte b u) u =
      { u with buf := putBytes bs u.buflen u.buf, buflen := u.buflen + bs.length } := by
  induction bs generalizing u with
  | nil => simp [putBytes]
  | cons b bs ih =>
    simp only [List.length_cons] at h
    rw [List.foldl_cons, padByte_room b u (by omega), ih _ (by simp; omega)]
    simp [appendByte, putBytes]; omega

/-- Padding that fills the block exactly: the block is compressed and the buffer restarts. -/
theorem foldl_padByte_full (bs : List Byte) (u : HashState) (hu : u.buflen < 64) (h : u.buflen + bs.length = 64) :
    bs.foldl (fun u b => padByte b u) u =
      { u with
        h := compress u.h (putBytes bs u.buflen u.buf), buf := putBytes bs u.buflen u.buf, buflen := 0 } := by
  obtain ⟨as, b, rfl⟩ : ∃ as b, bs = as ++ [b] := by
    rcases List.eq_nil_or_concat bs with rfl | ⟨as, b, rfl⟩
    · simp at h; omega
    · exact ⟨as, b, by simp⟩
  simp only [List.length_append, List.length_cons, List.length_nil] at h
  rw [List.foldl_append, foldl_padByte_room as u (by omega), putBytes_append]
  rw [List.foldl_cons, List.foldl_nil, padByte_full _ _ (by simp; omega)]
  rfl

/-- R137 and R139 together: an append, its FILL completed if there is one, is the padding loop over the same bytes. -/
theorem appendUntilFull_settled (bs : List Byte) (u : HashState) (hb : bs.length ≤ 64) :
    (match appendUntilFull bs u with
      | (u', none) => u'
      | (u', some rest) => fillUnit rest u') = bs.foldl (fun u b => padByte b u) u := by
  induction bs generalizing u with
  | nil => rfl
  | cons b bs ih =>
    simp only [List.length_cons] at hb
    rw [List.foldl_cons, appendUntilFull]
    by_cases he : u.buflen + 1 = 64
    · rw [padByte_full b u he, foldl_padByte_room _ _ (by simp; omega)]
      simp only [appendByte_buflen, he, if_true, fillUnit]
      rw [foldl_appendByte]
      rfl
    · rw [padByte_room b u he]
      simp only [appendByte_buflen, he, if_false]
      exact ih _ (by omega)

/-- The zero loop when buflen is at most 56. -/
theorem padZeros_low (fuel : Nat) (u : HashState) (h : u.buflen ≤ 56) (hf : 56 - u.buflen ≤ fuel) :
    padZeros fuel u = (List.replicate (56 - u.buflen) 0x00#8).foldl (fun u b => padByte b u) u := by
  induction fuel generalizing u with
  | zero => obtain h0 : 56 - u.buflen = 0 := by omega
            simp [padZeros, h0]
  | succ fuel ih =>
    rw [padZeros]
    by_cases he : u.buflen = 56
    · simp [he]
    · have hp := padByte_room 0x00#8 u (by omega)
      have h1 : 56 - u.buflen = (56 - (u.buflen + 1)) + 1 := by omega
      rw [if_neg he, hp, ih _ (by simp; omega) (by simp; omega), h1, List.replicate_succ, List.foldl_cons, hp]
      rfl

/-- The zero loop when buflen is 57..63: the block fills, and the next one is zeros up to position 56. -/
theorem padZeros_high (fuel : Nat) (u : HashState) (h : 57 ≤ u.buflen) (h' : u.buflen ≤ 63)
    (hf : 64 - u.buflen + 56 ≤ fuel) :
    padZeros fuel u =
      (List.replicate (64 - u.buflen) 0x00#8 ++ List.replicate 56 0x00#8).foldl (fun u b => padByte b u) u := by
  induction fuel generalizing u with
  | zero => omega
  | succ fuel ih =>
    rw [padZeros, if_neg (by omega)]
    have h1 : 64 - u.buflen = (64 - (u.buflen + 1)) + 1 := by omega
    by_cases he : u.buflen = 63
    · have hl : (padByte 0x00#8 u).buflen = 0 := by rw [padByte_full _ _ (by omega)]
      have h2 : 64 - u.buflen = 1 := by omega
      rw [padZeros_low _ _ (by omega) (by omega), hl, h2, List.foldl_append]
      rfl
    · have hp := padByte_room 0x00#8 u (by omega)
      rw [hp, ih _ (by simp; omega) (by simp; omega) (by simp; omega), h1,
        List.replicate_succ (n := 64 - (u.buflen + 1)), List.cons_append,
        List.foldl_cons, hp]
      rfl

/-- A buffer that holds the stored bytes everywhere is the list of those bytes. -/
theorem putBytes_zero (bs : List Byte) (buf block : Vector Byte 64) (h : block.toList = bs) :
    putBytes bs 0 buf = block := by
  subst h
  refine Vector.ext fun x hx => ?_
  rw [getElem_putBytes]
  simp [hx]

/-- A buffer whose first n bytes are followed by stored bytes up to its end. -/
theorem putBytes_tail (bs : List Byte) (n : Nat) (buf block : Vector Byte 64)
    (h : block.toList = buf.toList.take n ++ bs) (hn : n ≤ 64) (hl : n + bs.length = 64) :
    putBytes bs n buf = block := by
  refine Vector.ext fun x hx => ?_
  have hb : block[x]? = (buf.toList.take n ++ bs)[x]? := by rw [← h, Vector.getElem?_toList]
  rw [Vector.getElem?_eq_getElem hx] at hb
  rw [getElem_putBytes _ _ _ _ hx]
  by_cases hnx : n ≤ x
  · rw [List.getElem?_append_right (by simp; omega), List.length_take, Vector.length_toList, Nat.min_eq_left hn] at hb
    rw [if_pos (by omega), List.getD_eq_getElem?_getD, ← hb]
    rfl
  · rw [List.getElem?_append_left (by simp; omega), List.getElem?_take_of_lt (by omega), Vector.getElem?_toList,
      Vector.getElem?_eq_getElem hx] at hb
    rw [if_neg (by omega)]
    exact (Option.some.inj hb).symm

/-- SHA_FINAL keeps the byte counter and sets hfin. -/
theorem padZeros_hcnt (fuel : Nat) (u : HashState) : (padZeros fuel u).hcnt = u.hcnt := by
  induction fuel generalizing u with
  | zero => rfl
  | succ n ih =>
    unfold padZeros
    split
    · rfl
    · rw [ih, padByte_hcnt]

/-- R145: SHA_FINAL leaves the byte counter. -/
@[simp] theorem finalizeUnit_hcnt (u : HashState) : (finalizeUnit u).hcnt = u.hcnt := by
  simp only [finalizeUnit]
  rw [foldl_padByte_hcnt, padZeros_hcnt, padByte_hcnt]

@[simp] theorem finalizeUnit_hfin (u : HashState) : (finalizeUnit u).hfin = true := rfl

end Sys2Proof.Laws
end

