-- ==== Sys2Proof/Laws/State.lean ====
section
/-! SUPPORT. What each field of the state is after each named update: true by unfolding the update once. -/

namespace Sys2Proof.Machine

/-! ### raiseError -/

@[simp] theorem raiseError_cfg (c : ErrorCode) (s : State) : (raiseError c s).cfg = s.cfg := rfl
@[simp] theorem raiseError_irqEn (c : ErrorCode) (s : State) : (raiseError c s).irqEn = s.irqEn := rfl
@[simp] theorem raiseError_busy (c : ErrorCode) (s : State) : (raiseError c s).busy = s.busy := rfl
@[simp] theorem raiseError_done (c : ErrorCode) (s : State) : (raiseError c s).done = s.done := rfl
@[simp] theorem raiseError_err (c : ErrorCode) (s : State) : (raiseError c s).err = true := rfl
@[simp] theorem raiseError_errcode (c : ErrorCode) (s : State) : (raiseError c s).errcode = if s.errcode = 0#8 then c.code else s.errcode := rfl
@[simp] theorem raiseError_lastcmd (c : ErrorCode) (s : State) : (raiseError c s).lastcmd = s.lastcmd := rfl
@[simp] theorem raiseError_sha (c : ErrorCode) (s : State) : (raiseError c s).sha = s.sha := rfl
@[simp] theorem raiseError_b (c : ErrorCode) (s : State) : (raiseError c s).b = s.b := rfl
@[simp] theorem raiseError_pend (c : ErrorCode) (s : State) : (raiseError c s).pend = s.pend := rfl
@[simp] theorem raiseError_turns (c : ErrorCode) (s : State) : (raiseError c s).turns = s.turns := rfl
@[simp] theorem raiseError_reply (c : ErrorCode) (s : State) : (raiseError c s).reply = s.reply := rfl
@[simp] theorem raiseError_draws (c : ErrorCode) (s : State) : (raiseError c s).draws = s.draws := rfl

/-! ### clearError -/

@[simp] theorem clearError_cfg (s : State) : (clearError s).cfg = s.cfg := rfl
@[simp] theorem clearError_irqEn (s : State) : (clearError s).irqEn = s.irqEn := rfl
@[simp] theorem clearError_busy (s : State) : (clearError s).busy = s.busy := rfl
@[simp] theorem clearError_done (s : State) : (clearError s).done = s.done := rfl
@[simp] theorem clearError_err (s : State) : (clearError s).err = false := rfl
@[simp] theorem clearError_errcode (s : State) : (clearError s).errcode = 0#8 := rfl
@[simp] theorem clearError_lastcmd (s : State) : (clearError s).lastcmd = s.lastcmd := rfl
@[simp] theorem clearError_sha (s : State) : (clearError s).sha = s.sha := rfl
@[simp] theorem clearError_b (s : State) : (clearError s).b = s.b := rfl
@[simp] theorem clearError_pend (s : State) : (clearError s).pend = s.pend := rfl
@[simp] theorem clearError_turns (s : State) : (clearError s).turns = s.turns := rfl
@[simp] theorem clearError_reply (s : State) : (clearError s).reply = s.reply := rfl
@[simp] theorem clearError_draws (s : State) : (clearError s).draws = s.draws := rfl

/-! ### finishCommand -/

@[simp] theorem finishCommand_cfg (s : State) : (finishCommand s).cfg = s.cfg := rfl
@[simp] theorem finishCommand_irqEn (s : State) : (finishCommand s).irqEn = s.irqEn := rfl
@[simp] theorem finishCommand_busy (s : State) : (finishCommand s).busy = false := rfl
@[simp] theorem finishCommand_done (s : State) : (finishCommand s).done = true := rfl
@[simp] theorem finishCommand_err (s : State) : (finishCommand s).err = s.err := rfl
@[simp] theorem finishCommand_errcode (s : State) : (finishCommand s).errcode = s.errcode := rfl
@[simp] theorem finishCommand_lastcmd (s : State) : (finishCommand s).lastcmd = s.lastcmd := rfl
@[simp] theorem finishCommand_sha (s : State) : (finishCommand s).sha = s.sha := rfl
@[simp] theorem finishCommand_b (s : State) : (finishCommand s).b = s.b := rfl
@[simp] theorem finishCommand_pend (s : State) : (finishCommand s).pend = .none := rfl
@[simp] theorem finishCommand_turns (s : State) : (finishCommand s).turns = s.turns := rfl
@[simp] theorem finishCommand_reply (s : State) : (finishCommand s).reply = s.reply := rfl
@[simp] theorem finishCommand_draws (s : State) : (finishCommand s).draws = s.draws := rfl

/-! ### writeBig -/

@[simp] theorem writeBig_cfg (i : BReg) (v : BigNat) (s : State) : (writeBig i v s).cfg = s.cfg := rfl
@[simp] theorem writeBig_irqEn (i : BReg) (v : BigNat) (s : State) : (writeBig i v s).irqEn = s.irqEn := rfl
@[simp] theorem writeBig_busy (i : BReg) (v : BigNat) (s : State) : (writeBig i v s).busy = s.busy := rfl
@[simp] theorem writeBig_done (i : BReg) (v : BigNat) (s : State) : (writeBig i v s).done = s.done := rfl
@[simp] theorem writeBig_err (i : BReg) (v : BigNat) (s : State) : (writeBig i v s).err = s.err := rfl
@[simp] theorem writeBig_errcode (i : BReg) (v : BigNat) (s : State) : (writeBig i v s).errcode = s.errcode := rfl
@[simp] theorem writeBig_lastcmd (i : BReg) (v : BigNat) (s : State) : (writeBig i v s).lastcmd = s.lastcmd := rfl
@[simp] theorem writeBig_sha (i : BReg) (v : BigNat) (s : State) : (writeBig i v s).sha = s.sha := rfl
@[simp] theorem writeBig_b (i : BReg) (v : BigNat) (s : State) : (writeBig i v s).b = s.b.set i v := rfl
@[simp] theorem writeBig_pend (i : BReg) (v : BigNat) (s : State) : (writeBig i v s).pend = s.pend := rfl
@[simp] theorem writeBig_turns (i : BReg) (v : BigNat) (s : State) : (writeBig i v s).turns = s.turns := rfl
@[simp] theorem writeBig_reply (i : BReg) (v : BigNat) (s : State) : (writeBig i v s).reply = s.reply := rfl
@[simp] theorem writeBig_draws (i : BReg) (v : BigNat) (s : State) : (writeBig i v s).draws = s.draws := rfl

/-! ### completeFill -/

@[simp] theorem completeFill_cfg (rest : List Byte) (s : State) : (completeFill rest s).cfg = s.cfg := rfl
@[simp] theorem completeFill_irqEn (rest : List Byte) (s : State) : (completeFill rest s).irqEn = s.irqEn := rfl
@[simp] theorem completeFill_busy (rest : List Byte) (s : State) : (completeFill rest s).busy = false := rfl
@[simp] theorem completeFill_done (rest : List Byte) (s : State) : (completeFill rest s).done = s.done := rfl
@[simp] theorem completeFill_err (rest : List Byte) (s : State) : (completeFill rest s).err = s.err := rfl
@[simp] theorem completeFill_errcode (rest : List Byte) (s : State) : (completeFill rest s).errcode = s.errcode := rfl
@[simp] theorem completeFill_lastcmd (rest : List Byte) (s : State) : (completeFill rest s).lastcmd = s.lastcmd := rfl
@[simp] theorem completeFill_sha (rest : List Byte) (s : State) : (completeFill rest s).sha = fillUnit rest s.sha := rfl
@[simp] theorem completeFill_b (rest : List Byte) (s : State) : (completeFill rest s).b = s.b := rfl
@[simp] theorem completeFill_pend (rest : List Byte) (s : State) : (completeFill rest s).pend = .none := rfl
@[simp] theorem completeFill_turns (rest : List Byte) (s : State) : (completeFill rest s).turns = s.turns := rfl
@[simp] theorem completeFill_reply (rest : List Byte) (s : State) : (completeFill rest s).reply = s.reply := rfl
@[simp] theorem completeFill_draws (rest : List Byte) (s : State) : (completeFill rest s).draws = s.draws := rfl

/-! ### acceptCommand -/

@[simp] theorem acceptCommand_cfg (v : Word) (s : State) : (acceptCommand v s).cfg = s.cfg := rfl
@[simp] theorem acceptCommand_irqEn (v : Word) (s : State) : (acceptCommand v s).irqEn = s.irqEn := rfl
@[simp] theorem acceptCommand_busy (v : Word) (s : State) : (acceptCommand v s).busy = true := rfl
@[simp] theorem acceptCommand_done (v : Word) (s : State) : (acceptCommand v s).done = false := rfl
@[simp] theorem acceptCommand_err (v : Word) (s : State) : (acceptCommand v s).err = s.err := rfl
@[simp] theorem acceptCommand_errcode (v : Word) (s : State) : (acceptCommand v s).errcode = s.errcode := rfl
@[simp] theorem acceptCommand_lastcmd (v : Word) (s : State) : (acceptCommand v s).lastcmd = v := rfl
@[simp] theorem acceptCommand_sha (v : Word) (s : State) : (acceptCommand v s).sha = s.sha := rfl
@[simp] theorem acceptCommand_b (v : Word) (s : State) : (acceptCommand v s).b = s.b := rfl
@[simp] theorem acceptCommand_pend (v : Word) (s : State) : (acceptCommand v s).pend = .command v (latch v s.b) := rfl
@[simp] theorem acceptCommand_turns (v : Word) (s : State) : (acceptCommand v s).turns = s.turns := rfl
@[simp] theorem acceptCommand_reply (v : Word) (s : State) : (acceptCommand v s).reply = s.reply := rfl
@[simp] theorem acceptCommand_draws (v : Word) (s : State) : (acceptCommand v s).draws = s.draws := rfl

/-! ### popTurn -/

@[simp] theorem popTurn_cfg (s : State) : (popTurn s).cfg = s.cfg := rfl
@[simp] theorem popTurn_irqEn (s : State) : (popTurn s).irqEn = s.irqEn := rfl
@[simp] theorem popTurn_busy (s : State) : (popTurn s).busy = s.busy := rfl
@[simp] theorem popTurn_done (s : State) : (popTurn s).done = s.done := rfl
@[simp] theorem popTurn_err (s : State) : (popTurn s).err = s.err := rfl
@[simp] theorem popTurn_errcode (s : State) : (popTurn s).errcode = s.errcode := rfl
@[simp] theorem popTurn_lastcmd (s : State) : (popTurn s).lastcmd = s.lastcmd := rfl
@[simp] theorem popTurn_sha (s : State) : (popTurn s).sha = s.sha := rfl
@[simp] theorem popTurn_b (s : State) : (popTurn s).b = s.b := rfl
@[simp] theorem popTurn_pend (s : State) : (popTurn s).pend = s.pend := rfl
@[simp] theorem popTurn_turns (s : State) : (popTurn s).turns = s.turns.tail := rfl
@[simp] theorem popTurn_reply (s : State) : (popTurn s).reply = s.reply := rfl
@[simp] theorem popTurn_draws (s : State) : (popTurn s).draws = s.draws := rfl

/-! ### hardwareReset -/

@[simp] theorem hardwareReset_cfg (s : State) : (hardwareReset s).cfg = s.cfg := rfl
@[simp] theorem hardwareReset_irqEn (s : State) : (hardwareReset s).irqEn = false := rfl
@[simp] theorem hardwareReset_busy (s : State) : (hardwareReset s).busy = false := rfl
@[simp] theorem hardwareReset_done (s : State) : (hardwareReset s).done = false := rfl
@[simp] theorem hardwareReset_err (s : State) : (hardwareReset s).err = false := rfl
@[simp] theorem hardwareReset_errcode (s : State) : (hardwareReset s).errcode = 0#8 := rfl
@[simp] theorem hardwareReset_lastcmd (s : State) : (hardwareReset s).lastcmd = 0#32 := rfl
@[simp] theorem hardwareReset_sha (s : State) : (hardwareReset s).sha = HashState.fresh := rfl
@[simp] theorem hardwareReset_b (s : State) : (hardwareReset s).b = drawBank s.cfg s.draws := rfl
@[simp] theorem hardwareReset_pend (s : State) : (hardwareReset s).pend = .none := rfl
@[simp] theorem hardwareReset_turns (s : State) : (hardwareReset s).turns = s.turns := rfl
@[simp] theorem hardwareReset_reply (s : State) : (hardwareReset s).reply = s.reply := rfl
@[simp] theorem hardwareReset_draws (s : State) : (hardwareReset s).draws = s.draws + 16 := rfl

end Sys2Proof.Machine
end

