-- ==== Sys2Proof/Laws/Exec.lean ====
section
/-! SUPPORT. What an instruction can do: one inversion lemma for commands and one for appends, which later proofs cite
instead of unfolding a meaning. -/

namespace Sys2Proof.Laws

open Sys2Proof.Machine

/-- The two append instructions (R96); the others are commands. -/
def isAppend : Instr → Bool
  | .shaInit => false
  | .shaCompress => false
  | .shaFinal => false
  | .modexp _ _ _ _ _ => false
  | .modinv _ _ _ => false
  | .gcd _ _ _ => false
  | .crtDec _ _ _ _ => false
  | .hdin32 _ => true
  | .hdin8 _ => true

theorem isAppend_eq_false_iff (i : Instr) : isAppend i = false ↔ ∀ v, i ≠ .hdin32 v ∧ i ≠ .hdin8 v := by
  cases i <;> simp [isAppend]

@[simp] theorem orRaise_ok (t s : State) : orRaise (.ok t) s = t := rfl
@[simp] theorem orRaise_error (c : ErrorCode) (s : State) : orRaise (.error c) s = raiseError c s := rfl

/-- Every instruction answers a next state, in every state. -/
theorem exec_next (i : Instr) (s : State) : ∃ t, exec i s = .next t := by
  cases i <;> exact ⟨_, rfl⟩

/-- What a successful Exec body did: it wrote its one destination, or the SHA unit (R115, R117). -/
inductive Effect (i : Instr) (s : State) : State → Prop
  /-- A big-number command wrote B[RD], with a value of OPW bits if its operands have that. -/
  | big (rd : BReg) (v : BigNat) (hd : destReg i = some rd)
      (hv : (∀ r ∈ sourceRegs i, operand s r < 2 ^ s.cfg.opwBits) → v < 2 ^ s.cfg.opwBits) :
      Effect i s (writeBig rd v s)
  /-- A SHA command changed the SHA unit; from a partly filled block it leaves one, empty when finalized; and it does
  not take the byte counter past the limit of R135. -/
  | sha (u : HashState) (hd : destReg i = none)
      (hu : s.sha.buflen ≤ 63 → u.buflen ≤ 63 ∧ (u.hfin = true → u.buflen = 0))
      (hf : s.sha.hfin = true → u.hfin = true ∨ i = .shaInit)
      (hn : s.sha.hcnt.toNat ≤ lengthLimit → u.hcnt.toNat ≤ lengthLimit) :
      Effect i s { s with sha := u }

/-- R145: SHA_FINAL leaves an empty buffer. -/
theorem finalizeUnit_buflen (u : HashState) (h : u.buflen ≤ 63) : (finalizeUnit u).buflen = 0 := by
  have hp := padByte_buflen_le 0x80#8 u h
  have h56 : ∀ w : HashState, w.buflen = 56 →
      ((be64bytes (u.hcnt * 8#64)).foldl (fun u b => padByte b u) w).buflen = 0 := by
    intro w hw
    rw [foldl_padByte_full _ w (by omega) (by rw [hw]; rfl)]
  simp only [finalizeUnit]
  refine h56 _ ?_
  generalize padByte 0x80#8 u = w at hp
  by_cases hlow : w.buflen ≤ 56
  · rw [padZeros_low 64 w hlow (by omega), foldl_padByte_room _ w (by rw [List.length_replicate]; omega)]
    simp only [List.length_replicate]; omega
  · have h1 := foldl_padByte_full (List.replicate (64 - w.buflen) 0x00#8) w (by omega)
      (by rw [List.length_replicate]; omega)
    rw [padZeros_high 64 w (by omega) hp (by omega), List.foldl_append, h1, foldl_padByte_room]
    · simp only [List.length_replicate]
    · simp only [List.length_replicate]; omega

theorem gcd_lt_of_lt (a b n : Nat) (ha : a < n) (hb : b < n) : Nat.gcd a b < n := by
  rcases Nat.eq_zero_or_pos a with rfl | h
  · simpa using hb
  · exact lt_of_le_of_lt (Nat.gcd_le_left b h) ha

/-- The Exec body of a command. -/
def bodyOf (i : Instr) (s : State) : Except ErrorCode State :=
  match i with
  | .shaInit => shaInitBody s
  | .shaCompress => shaCompressBody s
  | .shaFinal => shaFinalBody s
  | .modexp rd base exponent modulus chk => modexpBody rd base exponent modulus chk s
  | .modinv rd a m => modinvBody rd a m s
  | .gcd rd a b => gcdBody rd a b s
  | .crtDec rd c bank chk => crtDecBody rd c bank chk s
  | .hdin32 v => appendBytes (hdin32Bytes v) s
  | .hdin8 v => appendBytes (hdin8Bytes v) s

theorem exec_command (i : Instr) (s : State) (hi : isAppend i = false) :
    exec i s = .next (finishCommand (orRaise (bodyOf i s) s)) := by
  cases i <;> first | rfl | simp [isAppend] at hi

theorem exec_append (i : Instr) (s : State) (hi : isAppend i = true) : exec i s = .next (orRaise (bodyOf i s) s) := by
  cases i <;> first | rfl | simp [isAppend] at hi

/-- A body of a command that does not raise has one of the two effects. -/
theorem bodyOf_effect (i : Instr) (s t : State) (hi : isAppend i = false) (h : bodyOf i s = .ok t) : Effect i s t := by
  cases i with
  | shaInit =>
    cases h
    exact .sha _ rfl (fun _ => ⟨by simp [HashState.fresh], fun _ => rfl⟩) (fun _ => .inr rfl) (fun _ => Nat.zero_le _)
  | shaCompress =>
    simp only [bodyOf, shaCompressBody] at h
    split at h
    · cases h
    · next hf =>
      split at h
      · cases h
      · next hb =>
        split at h
        · cases h
        · next hn =>
          cases h
          refine .sha _ rfl (fun hl => ⟨hl, fun _ => not_not.mp hb⟩) (fun hf' => absurd hf' hf) fun _ => ?_
          exact le_trans (by simp only [BitVec.toNat_add]; exact Nat.mod_le _ _) (not_lt.mp hn)
  | shaFinal =>
    simp only [bodyOf, shaFinalBody] at h
    split at h
    · cases h
    · split at h
      · cases h
      · cases h
        exact .sha _ rfl
          (fun hl => ⟨by rw [finalizeUnit_buflen _ hl]; omega, fun _ => finalizeUnit_buflen _ hl⟩) (fun _ => .inl rfl)
          (fun hn => by rw [finalizeUnit_hcnt]; exact hn)
  | modexp rd x y z chk =>
    simp only [bodyOf, modexpBody] at h
    split at h
    · cases h
    · next hz =>
      split at h
      · cases h
      · cases h
        exact .big rd _ rfl fun hr => lt_trans (powMod_lt _ _ _ hz) (hr z (by simp [sourceRegs]))
  | modinv rd x y =>
    simp only [bodyOf, modinvBody] at h
    split at h
    · cases h
    · next hz =>
      split at h
      · cases h
      · cases h
        exact .big rd _ rfl fun hr => lt_trans (modInverse_lt _ _ hz) (hr y (by simp [sourceRegs]))
  | gcd rd x y =>
    cases h
    exact .big rd _ rfl fun hr => gcd_lt_of_lt _ _ _ (hr x (by simp [sourceRegs])) (hr y (by simp [sourceRegs]))
  | crtDec rd x k chk =>
    simp only [bodyOf, crtDecBody] at h
    split at h
    · cases h
    · split at h
      · cases h
      · next hc =>
        cases h
        refine .big rd _ rfl fun _ => ?_
        unfold crtCheck at hc
        split at hc
        · cases hc
        · next hpq =>
          split at hc
          · cases hc
          · next hn => exact lt_of_lt_of_le (crtResult_lt _ (by tauto) (by tauto)) (not_lt.mp hn)
  | hdin32 v => simp [isAppend] at hi
  | hdin8 v => simp [isAppend] at hi

/-- The inversion lemma for commands: an error is recorded, or one of the two effects happens; then the bookkeeping. -/
theorem command_cases (i : Instr) (s t : State) (hi : isAppend i = false) (h : exec i s = .next t) :
    (∃ c, bodyOf i s = .error c ∧ t = finishCommand (raiseError c s)) ∨ ∃ u, Effect i s u ∧ t = finishCommand u := by
  rw [exec_command i s hi] at h
  injection h with h
  cases hb : bodyOf i s with
  | error c => left; exact ⟨c, rfl, by rw [← h, hb]; rfl⟩
  | ok u => right; exact ⟨u, bodyOf_effect i s u hi hb, by rw [← h, hb]; rfl⟩

/-- The frame of R137's loop: the accumulators, the counter and hfin stay, and so do the bytes outside the range. -/
theorem appendUntilFull_frame (bs : List Byte) (u : HashState) :
    (appendUntilFull bs u).1.h = u.h ∧ (appendUntilFull bs u).1.hcnt = u.hcnt ∧
      (appendUntilFull bs u).1.hfin = u.hfin ∧
      (∀ x : Fin 64, x.val < u.buflen ∨ u.buflen + bs.length ≤ x.val →
        (appendUntilFull bs u).1.buf[x] = u.buf[x]) := by
  induction bs generalizing u with
  | nil => exact ⟨rfl, rfl, rfl, fun _ _ => rfl⟩
  | cons b bs ih =>
    have hbuf : ∀ x : Fin 64, x.val < u.buflen ∨ u.buflen + (b :: bs).length ≤ x.val →
        (appendByte b u).buf[x] = u.buf[x] := by
      intro x hx
      simp only [List.length_cons] at hx
      simp only [appendByte_buf, Fin.getElem_fin]
      rw [Vector.getElem_setIfInBounds, if_neg (by omega)]
    rw [appendUntilFull]
    by_cases he : (appendByte b u).buflen = 64
    · simp only [he, if_true]
      exact ⟨rfl, rfl, rfl, hbuf⟩
    · simp only [he, if_false]
      obtain ⟨h1, h2, h3, h4⟩ := ih (appendByte b u)
      refine ⟨h1, h2, h3, fun x hx => ?_⟩
      rw [h4 x (by simp only [List.length_cons] at hx; simp; omega)]
      exact hbuf x hx

/-- The inversion lemma for appends: an error is recorded and nothing else happens, or the checks of R136 passed and
the loop of R137 ran. -/
theorem append_cases (bytes : List Byte) (s : State) :
    (∃ c, appendCheck bytes.length s = some c ∧ appendBytes bytes s = .error c) ∨
    (appendCheck bytes.length s = none ∧ s.busy = false ∧ s.sha.hfin = false ∧
      s.sha.hcnt.toNat + bytes.length ≤ lengthLimit ∧
      let r := appendUntilFull bytes { s.sha with hcnt := s.sha.hcnt + BitVec.ofNat 64 bytes.length }
      ((r.2 = none ∧ appendBytes bytes s = .ok { s with sha := r.1 }) ∨
        ∃ rest, r.2 = some rest ∧ appendBytes bytes s = .ok { s with sha := r.1, pend := .fill rest, busy := true })) := by
  unfold appendBytes
  cases hc : appendCheck bytes.length s with
  | some c => left; exact ⟨c, rfl, rfl⟩
  | none =>
    right
    unfold appendCheck at hc
    split at hc
    · cases hc
    · next h1 =>
      split at hc
      · cases hc
      · next h2 =>
        split at hc
        · cases hc
        · next h3 =>
          refine ⟨rfl, by simpa using h1, by simpa using h2, not_lt.mp h3, ?_⟩
          rcases hr : appendUntilFull bytes { s.sha with hcnt := s.sha.hcnt + BitVec.ofNat 64 bytes.length } with ⟨u, _ | rest⟩
          · left; exact ⟨rfl, by simp⟩
          · right; exact ⟨rest, rfl, by simp⟩

/-- R135, R136: no append takes the byte counter past the limit. -/
theorem append_hcnt_le (bytes : List Byte) (s : State) (h : s.sha.hcnt.toNat ≤ lengthLimit) :
    (orRaise (appendBytes bytes s) s).sha.hcnt.toNat ≤ lengthLimit := by
  rcases append_cases bytes s with ⟨c, _, e⟩ | ⟨_, _, _, hn, hr⟩
  · rw [e]; exact h
  · have hc : (s.sha.hcnt + BitVec.ofNat 64 bytes.length).toNat ≤ lengthLimit := by
      refine le_trans ?_ hn
      simp only [BitVec.toNat_add, BitVec.toNat_ofNat]
      exact le_trans (Nat.mod_le _ _) (Nat.add_le_add_left (Nat.mod_le _ _) _)
    have hf := (appendUntilFull_frame bytes
      { s.sha with hcnt := s.sha.hcnt + BitVec.ofNat 64 bytes.length }).2.1
    rcases hr with ⟨_, e⟩ | ⟨rest, _, e⟩ <;> rw [e, orRaise_ok] <;> exact hf ▸ hc

/-- R136: when every check passes. -/
theorem appendCheck_none (n : Nat) (s : State) (h1 : s.busy = false) (h2 : s.sha.hfin = false)
    (h3 : s.sha.hcnt.toNat + n ≤ lengthLimit) : appendCheck n s = none := by
  unfold appendCheck
  rw [if_neg (by simp [h1]), if_neg (by simp [h2]), if_neg (by omega)]

/-- An operand depends on the pending operation and the big registers alone. -/
theorem operand_congr (s s' : State) (hpend : s'.pend = s.pend) (hb : s'.b = s.b) (r : BReg) :
    operand s' r = operand s r := by
  unfold operand readBig
  rw [hpend, hb]

/-- A body reads the build parameters, BUSY, the SHA unit, the big registers and the pending operation, and writes the
last four at most. Everything else of the state goes through it unread and unchanged. -/
theorem bodyOf_congr (i : Instr) (s s' : State) (hcfg : s'.cfg = s.cfg) (hbusy : s'.busy = s.busy)
    (hsha : s'.sha = s.sha) (hb : s'.b = s.b) (hpend : s'.pend = s.pend) :
    bodyOf i s' = (bodyOf i s).map fun t => { s' with busy := t.busy, sha := t.sha, b := t.b, pend := t.pend } := by
  have ho := operand_congr s s' hpend hb
  have hcrt : ∀ c k, crtOperands c k s' = crtOperands c k s := by
    intro c k
    simp only [crtOperands, ho]
  have hok : ∀ u : HashState, ({ s' with sha := u } : State) =
      { s' with busy := s.busy, sha := u, b := s.b, pend := s.pend } := by
    intro u
    rw [← hbusy, ← hb, ← hpend]
  have hwrite : ∀ rd v, writeBig rd v s' =
      { s' with busy := s.busy, sha := s.sha, b := (writeBig rd v s).b, pend := s.pend } := by
    intro rd v
    unfold writeBig
    rw [← hbusy, ← hsha, ← hb, ← hpend]
  have happ : ∀ bytes, appendBytes bytes s' = (appendBytes bytes s).map fun t =>
      { s' with busy := t.busy, sha := t.sha, b := t.b, pend := t.pend } := by
    intro bytes
    unfold appendBytes appendCheck
    rw [hbusy, hsha]
    split
    · rfl
    · split
      · refine congrArg Except.ok ?_
        simp only
        rw [hb, hpend]
      · refine congrArg Except.ok ?_
        simp only
        rw [hb]
  cases i with
  | shaInit => exact congrArg Except.ok (hok _)
  | shaCompress =>
    simp only [bodyOf, shaCompressBody, hsha]
    by_cases h1 : s.sha.hfin = true
    · simp only [if_pos h1]; rfl
    · by_cases h2 : s.sha.buflen ≠ 0
      · simp only [if_neg h1, if_pos h2]; rfl
      · by_cases h3 : lengthLimit < s.sha.hcnt.toNat + 64
        · simp only [if_neg h1, if_neg h2, if_pos h3]; rfl
        · simp only [if_neg h1, if_neg h2, if_neg h3]
          exact congrArg Except.ok (hok _)
  | shaFinal =>
    simp only [bodyOf, shaFinalBody, hsha]
    by_cases h1 : s.sha.hfin = true
    · simp only [if_pos h1]; rfl
    · by_cases h3 : lengthLimit < s.sha.hcnt.toNat
      · simp only [if_neg h1, if_pos h3]; rfl
      · simp only [if_neg h1, if_neg h3]
        exact congrArg Except.ok (hok _)
  | modexp rd x y z chk =>
    simp only [bodyOf, modexpBody, ho]
    by_cases h1 : operand s z = 0
    · simp only [if_pos h1]; rfl
    · by_cases h2 : chk = true ∧ operand s z ≤ operand s x
      · simp only [if_neg h1, if_pos h2]; rfl
      · simp only [if_neg h1, if_neg h2]
        exact congrArg Except.ok (hwrite _ _)
  | modinv rd x y =>
    simp only [bodyOf, modinvBody, ho]
    by_cases h1 : operand s y = 0
    · simp only [if_pos h1]; rfl
    · by_cases h2 : Nat.gcd (operand s x) (operand s y) ≠ 1
      · simp only [if_neg h1, if_pos h2]; rfl
      · simp only [if_neg h1, if_neg h2]
        exact congrArg Except.ok (hwrite _ _)
  | gcd rd x y =>
    simp only [bodyOf, gcdBody, ho]
    exact congrArg Except.ok (hwrite _ _)
  | crtDec rd x k chk =>
    simp only [bodyOf, crtDecBody, hcrt]
    rw [show s'.cfg.opwBits = s.cfg.opwBits by rw [hcfg]]
    by_cases h1 : maxBank < k.val
    · simp only [if_pos h1]; rfl
    · simp only [if_neg h1]
      split
      · rfl
      · exact congrArg Except.ok (hwrite _ _)
  | hdin32 v => exact happ _
  | hdin8 v => exact happ _

end Sys2Proof.Laws
end

