-- ==== Sys2Proof/Laws/PerInstr.lean ====
section
/-! SUPPORT. The statements made for every instruction, one lemma per constructor: an instruction is read back from its
encoding. -/

namespace Sys2Proof.Laws.RoundTrip

/-- The instruction, if well formed, is read back from its encoding. -/
def Statement (i : Instr) : Prop := WellFormed i → decode (encode i) = .ok i

theorem shaInit : Statement .shaInit := by
  intro _; simp [encode, decode, decodeCommand, whenZero]

theorem shaCompress : Statement .shaCompress := by
  intro _; simp [encode, decode, decodeCommand, whenZero, opShaCompress, opShaInit]

theorem shaFinal : Statement .shaFinal := by
  intro _; simp [encode, decode, decodeCommand, whenZero, opShaFinal, opShaCompress, opShaInit]

theorem modexp (rd base exponent modulus : BReg) (chk : Bool) : Statement (.modexp rd base exponent modulus chk) := by
  intro _; simp [encode, decode, decodeCommand, opModexp, opShaFinal, opShaCompress, opShaInit]

theorem modinv (rd a m : BReg) : Statement (.modinv rd a m) := by
  intro _; simp [encode, decode, decodeCommand, whenZero, opModinv, opModexp, opShaFinal, opShaCompress, opShaInit]

theorem gcd (rd a b : BReg) : Statement (.gcd rd a b) := by
  intro _
  simp [encode, decode, decodeCommand, whenZero, opGcd, opModinv, opModexp, opShaFinal, opShaCompress, opShaInit]

theorem crtDec (rd c bank : BReg) (chk : Bool) : Statement (.crtDec rd c bank chk) := by
  intro h
  have hb : ¬ maxBank < bank.val := by simpa [WellFormed, Instr.wf] using h
  simp [encode, decode, decodeCommand, opCrtDec, opGcd, opModinv, opModexp, opShaFinal, opShaCompress, opShaInit, hb]

theorem hdin32 (v : Word) : Statement (.hdin32 v) := by intro _; simp [encode, decode]

theorem hdin8 (v : Word) : Statement (.hdin8 v) := by
  intro _; simp [encode, decode, addrHdin8, addrHdin32]

end Sys2Proof.Laws.RoundTrip
end

