-- ==== Sys2Proof/Laws/Window.lean ====
section
/-! SUPPORT. The words of a big number (R12, R70): reading after writing, and the value as the sum of its words; and the
address map read in both directions (R71). -/

namespace Sys2Proof.Laws

open Sys2Proof.Machine

/-- Any word of a number with one word replaced. -/
theorem setWord_word (n j : Nat) (v : Word) (x : Nat) :
    setWord n j v / 2 ^ (32 * x) % 2 ^ 32 = if x = j then v.toNat else n / 2 ^ (32 * x) % 2 ^ 32 := by
  have hv : v.toNat < 2 ^ 32 := v.isLt
  have hpos : ∀ k, 0 < 2 ^ k := fun k => Nat.two_pow_pos k
  set lo := n % 2 ^ (32 * j) with hlo
  set hi := n / 2 ^ (32 * (j + 1)) with hhi
  have hlolt : lo < 2 ^ (32 * j) := Nat.mod_lt _ (hpos _)
  have hstep : 2 ^ (32 * (j + 1)) = 2 ^ (32 * j) * 2 ^ 32 := by rw [← pow_add]; ring_nf
  have hset : setWord n j v = lo + 2 ^ (32 * j) * (v.toNat + 2 ^ 32 * hi) := by
    unfold setWord; rw [← hlo, ← hhi, hstep]; ring
  rcases lt_trichotomy x j with h | h | h
  · rw [if_neg (by omega), hset]
    obtain ⟨d, rfl⟩ : ∃ d, j = x + 1 + d := ⟨j - x - 1, by omega⟩
    have e : 2 ^ (32 * (x + 1 + d)) = 2 ^ (32 * x) * (2 ^ 32 * 2 ^ (32 * d)) := by
      rw [← pow_add, ← pow_add]; ring_nf
    have hmod : n % 2 ^ (32 * (x + 1 + d)) / 2 ^ (32 * x) % 2 ^ 32 = n / 2 ^ (32 * x) % 2 ^ 32 := by
      rw [e, Nat.mod_mul_right_div_self, Nat.mod_mul_right_mod]
    rw [e, mul_assoc (2 ^ (32 * x)), Nat.add_mul_div_left _ _ (hpos _), mul_assoc (2 ^ 32), Nat.add_mul_mod_self_left,
      hlo, hmod]
  · subst h
    rw [if_pos rfl, hset, Nat.add_mul_div_left _ _ (hpos _), Nat.div_eq_of_lt hlolt, zero_add,
      Nat.add_mul_mod_self_left, Nat.mod_eq_of_lt hv]
  · rw [if_neg (by omega)]
    have hsplit : ∀ m : Nat, m / 2 ^ (32 * x) = m / 2 ^ (32 * (j + 1)) / 2 ^ (32 * (x - (j + 1))) := by
      intro m
      have e : 32 * x = 32 * (j + 1) + 32 * (x - (j + 1)) := by omega
      rw [Nat.div_div_eq_div_mul, ← pow_add, ← e]
    have hhi' : setWord n j v / 2 ^ (32 * (j + 1)) = hi := by
      rw [hset, hstep, ← Nat.div_div_eq_div_mul, Nat.add_mul_div_left _ _ (hpos _), Nat.div_eq_of_lt hlolt, zero_add,
        Nat.add_mul_div_left _ _ (hpos _), Nat.div_eq_of_lt hv, zero_add]
    rw [hsplit (setWord n j v), hhi', hsplit n]

/-- Replacing a word inside a bound keeps the bound. -/
theorem setWord_lt (n j k : Nat) (v : Word) (hj : j < k) (hn : n < 2 ^ (32 * k)) : setWord n j v < 2 ^ (32 * k) := by
  have hv : v.toNat < 2 ^ 32 := v.isLt
  obtain ⟨d, rfl⟩ : ∃ d, k = j + 1 + d := ⟨k - j - 1, by omega⟩
  have e1 : 2 ^ (32 * (j + 1)) = 2 ^ 32 * 2 ^ (32 * j) := by rw [← pow_add]; ring_nf
  have e2 : 2 ^ (32 * (j + 1 + d)) = 2 ^ (32 * (j + 1)) * 2 ^ (32 * d) := by rw [← pow_add]; ring_nf
  have hlo : n % 2 ^ (32 * j) < 2 ^ (32 * j) := Nat.mod_lt _ (Nat.two_pow_pos _)
  have hhi : n / 2 ^ (32 * (j + 1)) + 1 ≤ 2 ^ (32 * d) := by
    rw [Nat.succ_le_iff, Nat.div_lt_iff_lt_mul (Nat.two_pow_pos _), mul_comm, ← e2]; exact hn
  have hmid : n % 2 ^ (32 * j) + v.toNat * 2 ^ (32 * j) < 2 ^ (32 * (j + 1)) := by
    rw [e1]
    calc n % 2 ^ (32 * j) + v.toNat * 2 ^ (32 * j) < (v.toNat + 1) * 2 ^ (32 * j) := by rw [add_mul, one_mul]; omega
      _ ≤ 2 ^ 32 * 2 ^ (32 * j) := Nat.mul_le_mul_right _ (by omega)
  unfold setWord
  calc n % 2 ^ (32 * j) + v.toNat * 2 ^ (32 * j) + n / 2 ^ (32 * (j + 1)) * 2 ^ (32 * (j + 1))
      < (n / 2 ^ (32 * (j + 1)) + 1) * 2 ^ (32 * (j + 1)) := by rw [add_mul, one_mul]; omega
    _ ≤ 2 ^ (32 * d) * 2 ^ (32 * (j + 1)) := Nat.mul_le_mul_right _ hhi
    _ = 2 ^ (32 * (j + 1 + d)) := by rw [e2, mul_comm]

/-- Two numbers below 2^(32k) with the same k words are the same number. -/
theorem eq_of_words (k m n : Nat) (hm : m < 2 ^ (32 * k)) (hn : n < 2 ^ (32 * k))
    (h : ∀ x < k, m / 2 ^ (32 * x) % 2 ^ 32 = n / 2 ^ (32 * x) % 2 ^ 32) : m = n := by
  induction k generalizing m n with
  | zero => simp at hm hn; omega
  | succ k ih =>
    have e : 2 ^ (32 * (k + 1)) = 2 ^ (32 * k) * 2 ^ 32 := by rw [← pow_add]; ring_nf
    have h0 : m % 2 ^ 32 = n % 2 ^ 32 := by simpa using h 0 (by omega)
    have hdiv : m / 2 ^ 32 = n / 2 ^ 32 := by
      apply ih
      · rw [Nat.div_lt_iff_lt_mul (by norm_num), ← e]; exact hm
      · rw [Nat.div_lt_iff_lt_mul (by norm_num), ← e]; exact hn
      · intro x hx
        have := h (x + 1) (by omega)
        have e2 : 2 ^ (32 * (x + 1)) = 2 ^ 32 * 2 ^ (32 * x) := by rw [← pow_add]; ring_nf
        rw [e2, ← Nat.div_div_eq_div_mul, ← Nat.div_div_eq_div_mul] at this
        exact this
    rw [← Nat.div_add_mod m (2 ^ 32), ← Nat.div_add_mod n (2 ^ 32), hdiv, h0]

/-- R12: the words up to k add up to the number modulo 2^(32k). -/
theorem sum_of_words (n k : Nat) :
    ((List.range k).map fun j => (getWord n j).toNat * 2 ^ (32 * j)).sum = n % 2 ^ (32 * k) := by
  induction k with
  | zero => simp [Nat.mod_one]
  | succ k ih =>
    have e : 2 ^ (32 * (k + 1)) = 2 ^ (32 * k) * 2 ^ 32 := by rw [← pow_add]; ring_nf
    rw [List.range_succ, List.map_append, List.sum_append, ih]
    simp only [List.map_cons, List.map_nil, List.sum_cons, List.sum_nil, add_zero, getWord, BitVec.toNat_ofNat]
    rw [e, Nat.mod_mul]
    ring

/-- OPW is 32 · OPWW for every legal OPW (R5). -/
theorem opwBits_eq_words (c : Config) : c.opwBits = 32 * c.words := by
  obtain ⟨w⟩ := c; cases w <;> rfl

/-- BSTRIDE is 4 · OPWW (R5). -/
theorem stride_eq_words (c : Config) : c.stride = 4 * c.words := by
  obtain ⟨w⟩ := c; cases w <;> rfl

/-- The register window holds all sixteen big registers for every legal OPW (R71). -/
theorem stride_pos_le (c : Config) : 0 < c.stride ∧ c.stride ≤ 512 := by
  obtain ⟨w⟩ := c; cases w <;> decide

/-! ### The address map -/

/-- R71, the map as a relation: `r` is the register at the word-aligned offset `n`. -/
def IsAt (c : Config) (n : Nat) : RegName → Prop
  | .id => n = 0x000
  | .param => n = 0x004
  | .ctrl => n = 0x008
  | .status => n = 0x00C
  | .errcode => n = 0x010
  | .cmd => n = 0x014
  | .lastcmd => n = 0x018
  | .h k => n = 0x020 + 4 * k.val
  | .hcntLo => n = 0x034
  | .hcntHi => n = 0x038
  | .hbuflen => n = 0x03C
  | .hdin32 => n = 0x040
  | .hdin8 => n = 0x044
  | .blk k => n = 0x080 + 4 * k.val
  | .bw i j => j < c.words ∧ n = 0x1000 + i.val * c.stride + 4 * j
  | .reserved =>
    n = 0x01C ∨ (0x048 ≤ n ∧ n ≤ 0x07C) ∨ (0x0C0 ≤ n ∧ n ≤ 0xFFC) ∨ 0x1000 + 16 * c.stride ≤ n

/-- One step down the list of offsets. -/
theorem ite_elim {p : Prop} [Decidable p] {P : RegName → Prop} {x y : RegName} (hx : p → P x) (hy : ¬ p → P y) :
    P (if p then x else y) := by
  by_cases h : p
  · rw [if_pos h]; exact hx h
  · rw [if_neg h]; exact hy h

/-- `regAt` finds the register the map gives. -/
theorem regAt_isAt (c : Config) (a : Addr) (ha : a.toNat % 4 = 0) : IsAt c a.toNat (regAt c a) := by
  unfold regAt
  generalize a.toNat = n at ha
  simp only
  iterate 7
    refine ite_elim (fun h => h) (fun _ => ?_)
  refine ite_elim (fun h => by simp only [IsAt]; omega) (fun _ => ?_)
  refine ite_elim (fun h => by simp only [IsAt, Fin.val_ofNat]; omega) (fun _ => ?_)
  iterate 5
    refine ite_elim (fun h => h) (fun _ => ?_)
  refine ite_elim (fun h => by simp only [IsAt]; omega) (fun _ => ?_)
  refine ite_elim (fun h => by simp only [IsAt, Fin.val_ofNat]; omega) (fun _ => ?_)
  refine ite_elim (fun h => by simp only [IsAt]; omega) (fun _ => ?_)
  obtain ⟨w⟩ := c
  refine ite_elim (fun h => ?_) (fun h => by simp only [IsAt]; omega)
  cases w <;> simp only [IsAt, Fin.val_ofNat, Config.stride, Config.words, Config.opwBits, OpWidth.bits] at h ⊢ <;> omega

/-- The map gives an offset to at most one register. -/
theorem isAt_unique (c : Config) (n : Nat) (r r' : RegName) (h : IsAt c n r) (h' : IsAt c n r') : r = r' := by
  obtain ⟨w⟩ := c
  have hw : ∀ i j i' j' : Nat, i < 16 → i' < 16 → j < Config.words ⟨w⟩ → j' < Config.words ⟨w⟩ →
      i * Config.stride ⟨w⟩ + 4 * j = i' * Config.stride ⟨w⟩ + 4 * j' → i = i' ∧ j = j' := by
    intro i j i' j' _ _ h1 h2 h3
    cases w <;> simp only [Config.stride, Config.words, Config.opwBits, OpWidth.bits] at h1 h2 h3 <;> omega
  have hb : ∀ i j : Nat, i < 16 → j < Config.words ⟨w⟩ → i * Config.stride ⟨w⟩ + 4 * j < 16 * Config.stride ⟨w⟩ := by
    intro i j hi hj
    cases w <;> simp only [Config.stride, Config.words, Config.opwBits, OpWidth.bits] at hj ⊢ <;> omega
  cases r <;> cases r' <;> simp only [IsAt] at h h' <;>
    first
    | rfl
    | (exfalso; omega)
    | (exfalso; rename_i i j; have := hb i.val j i.isLt h.1; omega)
    | (exfalso; rename_i i j; have := hb i.val j i.isLt h'.1; omega)
    | (congr 1; apply Fin.ext; omega)
    | (rename_i i j i' j'
       obtain ⟨e1, e2⟩ := hw i.val j i'.val j' i.isLt i'.isLt h.1 h'.1 (by omega)
       rw [Fin.ext e1, e2])

/-- Reading the map forwards. -/
theorem regAt_of_isAt (c : Config) (a : Addr) (ha : a.toNat % 4 = 0) (r : RegName) (h : IsAt c a.toNat r) :
    regAt c a = r :=
  isAt_unique c a.toNat _ _ (regAt_isAt c a ha) h

end Sys2Proof.Laws
end

