-- ==== Sys2Proof/Laws/Step.lean ====
section
/-! SUPPORT. What one step does on each kind of turn: later proofs cite these lemmas instead of unfolding `step`. -/

namespace Sys2Proof.Laws

open Sys2Proof.Machine Sys2Proof.Safety

/-- A word-aligned address has two zero low bits. -/
theorem low_bits_eq_zero_iff (a : Addr) : a.extractLsb' 0 2 = 0#2 ↔ a.toNat % 4 = 0 := by
  rw [BitVec.toNat_eq, BitVec.extractLsb'_toNat]
  simp

/-- R64: when an access is legal. -/
theorem illegalAccess_eq_false_iff (t : Transfer) :
    illegalAccess t = false ↔ t.addr.toNat % 4 = 0 ∧ (t.write = true → t.strb = 0xF#4) := by
  rw [← low_bits_eq_zero_iff]
  simp [illegalAccess]

/-- A legal write is a full write. -/
theorem eq_fullWrite (t : Transfer) (hw : t.write = true) (h : illegalAccess t = false) :
    t = fullWrite t.addr t.data := by
  obtain ⟨w, a, d, m⟩ := t
  have hs := ((illegalAccess_eq_false_iff _).mp h).2 hw
  simp only at hw hs
  subst hw hs
  rfl

theorem legal_fullWrite (a : Addr) (v : Word) (h : a.toNat % 4 = 0) : illegalAccess (fullWrite a v) = false :=
  (illegalAccess_eq_false_iff _).mpr ⟨h, fun _ => rfl⟩

variable {s : State} {ts : List Turn}

theorem step_idle (h : s.turns = []) : step s = engineTurn s := by
  unfold step
  rw [h]

theorem step_engine (h : s.turns = .engine :: ts) : step s = engineTurn { s with turns := ts } := by
  unfold step popTurn
  rw [h]
  simp only [List.tail_cons]

theorem step_host {t : Transfer} (h : s.turns = .host t :: ts) : step s = hostTurn t { s with turns := ts } := by
  unfold step popTurn
  rw [h]
  simp only [List.tail_cons]

theorem step_reset {p : Option Transfer} (h : s.turns = .reset p :: ts) :
    step s = .next (resetTurn p { s with turns := ts }) := by
  unfold step popTurn
  rw [h]
  simp only [List.tail_cons]

/-- A legal write to a register that is no append port (R67). -/
theorem step_write {a : Addr} {v : Word} (h : s.turns = .host (fullWrite a v) :: ts) (ha : a.toNat % 4 = 0)
    (h1 : a ≠ addrHdin32) (h2 : a ≠ addrHdin8) :
    step s = .next { writeReg (regAt s.cfg a) v { s with turns := ts } with reply := some (.write false) } := by
  rw [step_host h]
  unfold hostTurn
  rw [legal_fullWrite a v ha]
  simp only [fullWrite, Bool.false_eq_true, if_false, if_true, decode, h1, h2]
  rfl

/-- A legal write to an append port runs the append (R96). -/
theorem step_append {a : Addr} {v : Word} {i : Instr} (h : s.turns = .host (fullWrite a v) :: ts)
    (ha : a.toNat % 4 = 0) (hd : decode (.busWrite a v) = .ok i) :
    step s = exec i { s with turns := ts, reply := some (.write false) } := by
  rw [step_host h]
  unfold hostTurn
  rw [legal_fullWrite a v ha]
  simp only [fullWrite, Bool.false_eq_true, if_false, if_true, hd]

/-- A legal read (R66). -/
theorem step_read {t : Transfer} (h : s.turns = .host t :: ts) (hw : t.write = false) (ha : t.addr.toNat % 4 = 0) :
    step s = .next { (readReg (regAt s.cfg t.addr) { s with turns := ts }).2 with
      reply := some (.read (readReg (regAt s.cfg t.addr) { s with turns := ts }).1 false) } := by
  have hl : illegalAccess t = false := (illegalAccess_eq_false_iff t).mpr ⟨ha, by simp [hw]⟩
  rw [step_host h]
  unfold hostTurn
  rw [hl]
  simp only [hw, Bool.false_eq_true, if_false]
  rfl

/-- An illegal access (R65). -/
theorem step_illegal {t : Transfer} (h : s.turns = .host t :: ts) (hl : illegalAccess t = true) :
    step s = .next (busError t { s with turns := ts }) := by
  rw [step_host h]
  unfold hostTurn
  rw [hl]
  rfl

/-- What an ENGINE turn can do (R113): nothing is pending, a FILL completes, an illegal word fails, or the pending
command runs. -/
theorem engineTurn_cases (s : State) :
    (s.pend = .none ∧ engineTurn s = .next s) ∨
    (∃ rest, s.pend = .fill rest ∧ engineTurn s = .next (completeFill rest s)) ∨
    (∃ w latched r, s.pend = .command w latched ∧ decodeCommand w = .error r ∧
      engineTurn s = .next (finishCommand (raiseError .illegalCmd s))) ∨
    (∃ w latched i, s.pend = .command w latched ∧ decodeCommand w = .ok i ∧ engineTurn s = exec i s) := by
  unfold engineTurn
  cases hp : s.pend with
  | none => exact .inl ⟨rfl, rfl⟩
  | fill rest => exact .inr (.inl ⟨rest, rfl, rfl⟩)
  | command w latched =>
    cases hd : decodeCommand w with
    | error r => exact .inr (.inr (.inl ⟨w, latched, r, rfl, hd, by simp only [decode, hd]; rfl⟩))
    | ok i => exact .inr (.inr (.inr ⟨w, latched, i, rfl, hd, by simp only [decode, hd]⟩))

/-- What a HOST turn can do (R61, R65 to R67). -/
theorem hostTurn_cases (t : Transfer) (s : State) :
    (illegalAccess t = true ∧ hostTurn t s = .next (busError t s)) ∨
    (t.write = false ∧ t.addr.toNat % 4 = 0 ∧ hostTurn t s = .next (busRead t s)) ∨
    (∃ a v, t = fullWrite a v ∧ a.toNat % 4 = 0 ∧ a ≠ addrHdin32 ∧ a ≠ addrHdin8 ∧
      hostTurn t s = .next { writeReg (regAt s.cfg a) v s with reply := some (.write false) }) ∨
    (∃ a v i, t = fullWrite a v ∧ ((a = addrHdin32 ∧ i = .hdin32 v) ∨ (a = addrHdin8 ∧ i = .hdin8 v)) ∧
      hostTurn t s = exec i { s with reply := some (.write false) }) := by
  cases hl : illegalAccess t with
  | true => exact .inl ⟨rfl, by unfold hostTurn; rw [hl]; rfl⟩
  | false =>
    have ha := ((illegalAccess_eq_false_iff t).mp hl).1
    cases hw : t.write with
    | false => exact .inr (.inl ⟨rfl, ha, by unfold hostTurn; rw [hl, hw]; rfl⟩)
    | true =>
      have he := eq_fullWrite t hw hl
      have hh : hostTurn t s = match decode (.busWrite t.addr t.data) with
          | .ok i => exec i { s with reply := some (.write false) }
          | .error _ => .next (busWrite t s) := by
        unfold hostTurn
        rw [hl, hw]
        rfl
      right; right
      by_cases h1 : t.addr = addrHdin32
      · exact .inr ⟨_, _, _, he, .inl ⟨h1, rfl⟩, by rw [hh]; simp only [decode, h1, if_true]⟩
      · by_cases h2 : t.addr = addrHdin8
        · exact .inr ⟨_, _, _, he, .inr ⟨h2, rfl⟩, by
            rw [hh]
            have hne : ¬ addrHdin8 = addrHdin32 := by decide
            simp only [decode, h2, hne, if_true, if_false]⟩
        · exact .inl ⟨_, _, he, ha, h1, h2, by rw [hh]; simp only [decode, h1, h2, if_false]; rfl⟩

/-- A command word never decodes to an append. -/
theorem isAppend_of_decodeCommand {w : Word} {i : Instr} (h : decodeCommand w = .ok i) : isAppend i = false := by
  cases i with
  | hdin32 v => simp [decodeCommand, whenZero] at h; repeat' (split at h <;> try simp at h)
  | hdin8 v => simp [decodeCommand, whenZero] at h; repeat' (split at h <;> try simp at h)
  | shaInit => rfl
  | shaCompress => rfl
  | shaFinal => rfl
  | modexp _ _ _ _ _ => rfl
  | modinv _ _ _ => rfl
  | gcd _ _ _ => rfl
  | crtDec _ _ _ _ => rfl

/-- The invariants look at nothing but these fields. -/
theorem stateInv_of_eq {s t : State} (h : StateInv s) (hcfg : t.cfg = s.cfg) (hbusy : t.busy = s.busy)
    (herr : t.err = s.err) (hcode : t.errcode = s.errcode) (hlen : t.sha.buflen = s.sha.buflen)
    (hfin : t.sha.hfin = s.sha.hfin) (hb : t.b = s.b) (hpend : t.pend = s.pend) : StateInv t := by
  refine ⟨?_, ?_, ?_, ?_, ?_, ?_, ?_⟩
  · rw [hbusy, hpend]; exact h.busy_iff
  · rw [hbusy, hlen]; exact h.idle_buflen
  · rw [hfin, hlen]; exact h.final_empty
  · rw [herr, hcode]; exact h.no_err
  · rw [herr, hcode]; exact h.err_code
  · rw [hcfg, hb]; exact h.big_bound
  · have := h.pending_ok
    unfold PendingOk at this ⊢
    rw [hpend, hlen, hb, hfin]
    exact this

/-- The three kinds of turn, read from a step that answered. With no turn lined up it is the ENGINE's. -/
theorem step_cases {s t : State} (h : step s = .next t) :
    (∃ p ts, s.turns = .reset p :: ts ∧ t = resetTurn p { s with turns := ts }) ∨
    (∃ tr ts, s.turns = .host tr :: ts ∧ hostTurn tr { s with turns := ts } = .next t) ∨
    ((s.turns = [] ∨ ∃ ts, s.turns = .engine :: ts) ∧ engineTurn (popTurn s) = .next t) := by
  cases ht : s.turns with
  | nil =>
    refine .inr (.inr ⟨.inl rfl, ?_⟩)
    rw [step_idle ht] at h
    have hpop : popTurn s = s := by
      unfold popTurn
      rw [ht, List.tail_nil, ← ht]
    rw [hpop, h]
  | cons x ts =>
    cases x with
    | engine =>
      refine .inr (.inr ⟨.inr ⟨ts, rfl⟩, ?_⟩)
      rw [step_engine ht] at h
      unfold popTurn
      rw [ht]
      exact h
    | host tr =>
      rw [step_host ht] at h
      exact .inr (.inl ⟨tr, ts, rfl, h⟩)
    | reset p =>
      rw [step_reset ht] at h
      cases h
      exact .inl ⟨p, ts, rfl, rfl⟩

/-- An ENGINE turn always answers. -/
theorem engineTurn_next (s : State) : ∃ t, engineTurn s = .next t := by
  rcases engineTurn_cases s with ⟨_, e⟩ | ⟨_, _, e⟩ | ⟨_, _, _, _, _, e⟩ | ⟨_, _, i, _, _, e⟩
  · exact ⟨_, e⟩
  · exact ⟨_, e⟩
  · exact ⟨_, e⟩
  · obtain ⟨t, ht⟩ := exec_next i s
    exact ⟨t, e.trans ht⟩

/-- What an append does to the state: an error is recorded, or the SHA unit takes the bytes, with a FILL pending when
they fill the block. -/
theorem append_effect (bytes : List Byte) (s : State) (hl : bytes.length ≤ 4) :
    (∃ c, appendCheck bytes.length s = some c ∧ orRaise (appendBytes bytes s) s = raiseError c s) ∨
    (s.busy = false ∧ s.sha.hfin = false ∧ ∃ u : HashState, u.hfin = false ∧ u.h = s.sha.h ∧
      ((orRaise (appendBytes bytes s) s = { s with sha := u } ∧ (s.sha.buflen ≤ 63 → u.buflen ≤ 63)) ∨
        ∃ rest, orRaise (appendBytes bytes s) s = { s with sha := u, pend := .fill rest, busy := true } ∧
          (s.sha.buflen ≤ 63 → u.buflen = 64 ∧ rest.length ≤ 3))) := by
  rcases append_cases bytes s with ⟨c, hc, he⟩ | ⟨_, hb, hf, _, hr⟩
  · exact .inl ⟨c, hc, by rw [he]; rfl⟩
  · refine .inr ⟨hb, hf, ?_⟩
    have hlen : ({ s.sha with hcnt := s.sha.hcnt + BitVec.ofNat 64 bytes.length } : HashState).buflen = s.sha.buflen := rfl
    generalize hu0 : ({ s.sha with hcnt := s.sha.hcnt + BitVec.ofNat 64 bytes.length } : HashState) = u0 at hr hlen
    obtain ⟨f1, f2, f3, f4⟩ := appendUntilFull_frame bytes u0
    have h0 : u0.hfin = false ∧ u0.h = s.sha.h := by subst hu0; exact ⟨hf, rfl⟩
    refine ⟨(appendUntilFull bytes u0).1, f3.trans h0.1, f1.trans h0.2, ?_⟩
    rcases hr with ⟨hr, he⟩ | ⟨rest, hr, he⟩
    · refine .inl ⟨by rw [he]; rfl, fun hb63 => ?_⟩
      by_cases hroom : u0.buflen + bytes.length < 64
      · rw [appendUntilFull_room _ _ hroom]
        simp only
        omega
      · rw [appendUntilFull_full _ _ (by omega) (by omega)] at hr
        cases hr
    · refine .inr ⟨rest, by rw [he]; rfl, fun hb63 => ?_⟩
      by_cases hroom : u0.buflen + bytes.length < 64
      · rw [appendUntilFull_room _ _ hroom] at hr
        cases hr
      · rw [appendUntilFull_full _ _ (by omega) (by omega)] at hr ⊢
        cases hr
        refine ⟨rfl, ?_⟩
        rw [List.length_drop]
        omega

/-- An append instruction is an append of at most four bytes. -/
theorem exec_append_bytes {i : Instr} (hi : isAppend i = true) :
    ∃ bytes : List Byte, bytes.length ≤ 4 ∧ ∀ s, exec i s = .next (orRaise (appendBytes bytes s) s) := by
  cases i with
  | hdin32 v => exact ⟨hdin32Bytes v, by simp [hdin32Bytes, wbytes], fun _ => rfl⟩
  | hdin8 v => exact ⟨hdin8Bytes v, by simp [hdin8Bytes], fun _ => rfl⟩
  | shaInit => cases hi
  | shaCompress => cases hi
  | shaFinal => cases hi
  | modexp _ _ _ _ _ => cases hi
  | modinv _ _ _ => cases hi
  | gcd _ _ _ => cases hi
  | crtDec _ _ _ _ => cases hi

/-- An operand that was latched is read from the latch (R116). -/
theorem operand_latched {s : State} {w : Word} {latched : Latched} {i : Instr} (hp : s.pend = .command w latched)
    (hl : latched = latch w s.b) (hd : decodeCommand w = .ok i) (r : BReg) (hr : r ∈ sourceRegs i) :
    operand s r = s.b[r] := by
  have hlook : ∀ rs : List BReg, r ∈ rs → (rs.map fun r => (r, s.b[r])).lookup r = some s.b[r] := by
    intro rs
    induction rs with
    | nil => intro h; cases h
    | cons x xs ih =>
      intro h
      simp only [List.map_cons, List.lookup_cons]
      by_cases e : r = x
      · subst e; simp
      · have hne : (r == x) = false := by simpa using e
        rw [hne]
        exact ih (by simpa [e] using h)
  unfold operand
  rw [hp]
  subst hl
  simp only [latch, hd]
  rw [hlook _ hr]
  rfl

/-- A write of the register map, case by case (R67). -/
theorem writeReg_cases (r : RegName) (v : Word) (s : State) (h1 : r ≠ .hdin32) (h2 : r ≠ .hdin8) :
    (r = .ctrl ∧ writeReg r v s = writeCtrl v s) ∨ (r = .status ∧ writeReg r v s = writeStatus v s) ∨
    (r = .cmd ∧ writeReg r v s = submitCommand v s) ∨
    (∃ f : HashState → HashState, (∀ u, (f u).buflen = u.buflen ∧ (f u).hfin = u.hfin) ∧
      writeReg r v s = writeData (fun s => { s with sha := f s.sha }) s) ∨
    (∃ i j, r = .bw i j ∧ writeReg r v s = writeData (fun s => writeBig i (setWord (readBig s i) j v) s) s) ∨
    writeReg r v s = s := by
  cases r with
  | ctrl => exact .inl ⟨rfl, rfl⟩
  | status => exact .inr (.inl ⟨rfl, rfl⟩)
  | cmd => exact .inr (.inr (.inl ⟨rfl, rfl⟩))
  | h k => exact .inr (.inr (.inr (.inl ⟨fun u => { u with h := u.h.set k v }, fun _ => ⟨rfl, rfl⟩, rfl⟩)))
  | hcntLo =>
    exact .inr (.inr (.inr (.inl
      ⟨fun u => { u with hcnt := u.hcnt.extractLsb' 32 32 ++ v }, fun _ => ⟨rfl, rfl⟩, rfl⟩)))
  | hcntHi =>
    exact .inr (.inr (.inr (.inl
      ⟨fun u => { u with hcnt := v ++ u.hcnt.extractLsb' 0 32 }, fun _ => ⟨rfl, rfl⟩, rfl⟩)))
  | blk k =>
    exact .inr (.inr (.inr (.inl ⟨fun u => { u with buf := writeBlk k v u.buf }, fun _ => ⟨rfl, rfl⟩, rfl⟩)))
  | bw i j => exact .inr (.inr (.inr (.inr (.inl ⟨i, j, rfl, rfl⟩))))
  | hdin32 => exact absurd rfl h1
  | hdin8 => exact absurd rfl h2
  | id => exact .inr (.inr (.inr (.inr (.inr rfl))))
  | param => exact .inr (.inr (.inr (.inr (.inr rfl))))
  | errcode => exact .inr (.inr (.inr (.inr (.inr rfl))))
  | lastcmd => exact .inr (.inr (.inr (.inr (.inr rfl))))
  | hbuflen => exact .inr (.inr (.inr (.inr (.inr rfl))))
  | reserved => exact .inr (.inr (.inr (.inr (.inr rfl))))

/-- An offset that is no append port's holds another register. -/
theorem regAt_ne_append (c : Config) (a : Addr) (ha : a.toNat % 4 = 0) (h1 : a ≠ addrHdin32) (h2 : a ≠ addrHdin8) :
    regAt c a ≠ .hdin32 ∧ regAt c a ≠ .hdin8 := by
  have h := regAt_isAt c a ha
  constructor
  · intro hr
    rw [hr] at h
    exact h1 (BitVec.eq_of_toNat_eq h)
  · intro hr
    rw [hr] at h
    exact h2 (BitVec.eq_of_toNat_eq h)

/-- The host's run, one step longer. -/
theorem run_succ {s t : State} (h : step s = .next t) (n : Nat) : core.run (n + 1) s = core.run n t := by
  have hc : core.step s = .next t := h
  simp only [Host.Core.run]
  rw [hc]

/-- A HOST turn takes no other turn. -/
theorem hostTurn_turns {s t : State} {tr : Transfer} (h : hostTurn tr s = .next t) : t.turns = s.turns := by
  rcases hostTurn_cases tr s with ⟨_, e⟩ | ⟨_, _, e⟩ | ⟨a, v, _, ha, h1, h2, e⟩ | ⟨a, v, i, _, ha, e⟩
  · rw [e] at h; cases h; rfl
  · rw [e] at h; cases h
    unfold busRead readReg
    simp only
    split <;> rfl
  · rw [e] at h; cases h
    obtain ⟨n1, n2⟩ := regAt_ne_append s.cfg a ha h1 h2
    simp only
    rcases writeReg_cases (regAt s.cfg a) v s n1 n2 with ⟨_, e⟩ | ⟨_, e⟩ | ⟨_, e⟩ | ⟨f, _, e⟩ | ⟨i, j, _, e⟩ | e <;> rw [e]
    · unfold writeCtrl softReset
      simp only
      split
      · split
        · rfl
        · rfl
      · rfl
    · unfold writeStatus
      simp only
      split
      · split <;> rfl
      · split <;> rfl
    · unfold submitCommand; split <;> rfl
    · unfold writeData; split <;> rfl
    · unfold writeData; split <;> rfl
  · rw [e] at h
    have hi : isAppend i = true := by rcases ha with ⟨_, rfl⟩ | ⟨_, rfl⟩ <;> rfl
    obtain ⟨bytes, hl, hb⟩ := exec_append_bytes hi
    rw [hb] at h; cases h
    rcases append_effect bytes { s with reply := some (.write false) } hl with
      ⟨c, _, e⟩ | ⟨_, _, u, _, _, ⟨e, _⟩ | ⟨rest, e, _⟩⟩ <;> rw [e] <;> rfl

/-- An ENGINE turn takes no other turn, and leaves nothing pending. -/
theorem engineTurn_turns {s t : State} (h : engineTurn s = .next t) : t.turns = s.turns ∧ t.pend = .none := by
  rcases engineTurn_cases s with ⟨hp, e⟩ | ⟨rest, hp, e⟩ | ⟨w, l, r, hp, hd, e⟩ | ⟨w, l, i, hp, hd, e⟩
  · rw [e] at h; cases h; exact ⟨rfl, hp⟩
  · rw [e] at h; cases h; exact ⟨rfl, rfl⟩
  · rw [e] at h; cases h; exact ⟨rfl, rfl⟩
  · rw [e] at h
    rcases command_cases i s t (isAppend_of_decodeCommand hd) h with ⟨c, _, rfl⟩ | ⟨u, hu, rfl⟩
    · exact ⟨rfl, rfl⟩
    · cases hu with
      | big rd v hd' hv => exact ⟨rfl, rfl⟩
      | sha u hd' hu hf => exact ⟨rfl, rfl⟩

/-- A step takes exactly one turn. -/
theorem step_turns {s t : State} (h : step s = .next t) : t.turns = s.turns.tail := by
  rcases step_cases h with ⟨p, ts, ht, rfl⟩ | ⟨tr, ts, ht, e⟩ | ⟨_, e⟩
  · rw [ht]
    unfold resetTurn
    split <;> rfl
  · rw [ht, hostTurn_turns e]; rfl
  · rw [(engineTurn_turns e).1]; rfl

end Sys2Proof.Laws
end

