-- ==== Sys2Proof/Tests/Slice0.lean ====
section
/-! SUPPORT. Tests of the model. Expected values are copied from 95_test_vectors.md (V1 to V123) or from the rule named;
the last part gives, for every statement with hypotheses, states and operands that meet them. -/

namespace Sys2Proof.Tests

open Sys2Proof.Machine Sys2Proof.Safety

-- One test at a time: each test's thread keeps a large stack, and together they pass the memory limit.
set_option Elab.async false

/-! ### Well-formedness -/

/-- R94(d), V103: a key bank base of 12 is refused; R91: 11 is the highest legal one. -/
theorem test_wf_bank_12_refused : ¬ WellFormed (.crtDec 0 0 12 false) := by decide
theorem test_wf_bank_15_refused : ¬ WellFormed (.crtDec 15 15 15 true) := by decide
theorem test_wf_bank_11_accepted : WellFormed (.crtDec 15 15 11 true) := by decide

/-! ### Decoding: words written out from R93, R96 and R97 -/

theorem test_decode_sha_init : decodeCommand 0x00000010#32 = .ok .shaInit := by decide
theorem test_decode_sha_compress : decodeCommand 0x00000011#32 = .ok .shaCompress := by decide
theorem test_decode_sha_final : decodeCommand 0x00000012#32 = .ok .shaFinal := by decide
/-- CHK = 0, RSV = 0; mod = B5, exp = B4, base = B3, d = B2: fields 0 | 0101 | 0100 | 0011 | 0010 | 0x20. -/
theorem test_decode_modexp : decodeCommand 0b00000000010101000011001000100000#32 = .ok (.modexp 2 3 4 5 false) := by
  decide
theorem test_decode_modexp_chk : decodeCommand 0x01210320#32 = .ok (.modexp 3 0 1 2 true) := by decide
/-- m = B6, a = B7, d = B5. -/
theorem test_decode_modinv : decodeCommand 0b00000000000001100111010100100001#32 = .ok (.modinv 5 7 6) := by decide
/-- b = B9, a = B8, d = B10. -/
theorem test_decode_gcd : decodeCommand 0b00000000000010011000101000100010#32 = .ok (.gcd 10 8 9) := by decide
theorem test_decode_crt_dec : decodeCommand 0x00083430#32 = .ok (.crtDec 4 3 8 false) := by decide
theorem test_decode_crt_dec_chk : decodeCommand 0x010B0030#32 = .ok (.crtDec 0 0 11 true) := by decide
theorem test_decode_hdin32 : decode (.busWrite 0x040#14 0x61626364#32) = .ok (.hdin32 0x61626364#32) := by decide
theorem test_decode_hdin8 : decode (.busWrite 0x044#14 0x00000100#32) = .ok (.hdin8 0x00000100#32) := by decide
theorem test_decode_other_write : decode (.busWrite 0x048#14 0#32) = .error .notAnAppend := by decide

/-- V99 to V108: each illegal word, and why. -/
theorem test_decode_unassigned :
    decodeCommand 0x00000000#32 = .error .unassignedOpcode ∧ decodeCommand 0x00000013#32 = .error .unassignedOpcode := by
  decide
theorem test_decode_must_be_zero :
    decodeCommand 0x00000110#32 = .error .fieldNotZero ∧ decodeCommand 0x01000010#32 = .error .fieldNotZero ∧
    decodeCommand 0x01076521#32 = .error .fieldNotZero ∧ decodeCommand 0x00176521#32 = .error .fieldNotZero ∧
    decodeCommand 0x00FF0022#32 = .error .fieldNotZero ∧ decodeCommand 0x00108030#32 = .error .fieldNotZero := by
  decide
theorem test_decode_reserved_bits :
    decodeCommand 0x02000020#32 = .error .reservedBits ∧ decodeCommand 0x80000020#32 = .error .reservedBits := by
  decide
theorem test_decode_bank_12 : decodeCommand 0x000C0030#32 = .error .bankTooHigh := by decide

/-- The table's numbering: a format C row, and the two MMIO-W rows with and without their operand word. -/
theorem test_table_modexp : decodeTableWord 32 0x01210320 = some (.modexp 3 0 1 2 true) := by decide
theorem test_table_hdin32 : decodeTableWord 16 0x0040 = some (.hdin32 0#32) := by decide
theorem test_table_hdin8_with_data : decodeTableWord 48 0x000000610044 = some (.hdin8 0x61#32) := by decide
theorem test_table_illegal : decodeTableWord 32 0x000C0030 = none := by decide

/-! ### Small states -/

/-- The reset state with every big register 0, so that a test can compare them. -/
def idle : State := { State.reset with b := Vector.replicate 16 0 }

/-- `idle` with some big registers loaded. -/
def loaded (l : List (BReg × BigNat)) : State := l.foldl (fun s p => writeBig p.1 p.2 s) idle

/-- An instruction's next state. -/
def after (i : Instr) (s : State) : State := stateOf (exec i s) s

/-- The same, through a step with the given turn. -/
def afterTurn (t : Turn) (s : State) : State := stateOf (step { s with turns := [t] }) s

/-- A message of n bytes 0x61 already streamed into `idle`'s block. -/
def streamed (n : Nat) : State :=
  { idle with
    sha := { idle.sha with
      buf := Vector.ofFn fun x : Fin 64 => if x.val < n then 0x61#8 else 0x00#8
      buflen := n
      hcnt := BitVec.ofNat 64 n } }

/-- `idle` with the byte counter set. -/
def counted (n : Nat) : State := { idle with sha := { idle.sha with hcnt := BitVec.ofNat 64 n } }

/-- `idle`, finalized. -/
def finalized : State := { idle with sha := { idle.sha with hfin := true } }

/-- A MODEXP B3, B0, B1, B2 accepted and not yet complete (V118's operands). -/
def running : State := acceptCommand 0x00210320#32 (loaded [(0, 3), (1, 200), (2, 1000003)])

/-- A FILL with two leftover bytes pending (V21, right after the write). -/
def filling : State := after (.hdin32 0x62636465#32) (streamed 62)

/-! ### One step of each instruction -/

/-- V27. -/
theorem test_sha_init : (after .shaInit finalized).sha = HashState.fresh ∧ (after .shaInit finalized).done = true := by
  decide
/-- V12. -/
theorem test_sha_compress :
    (after .shaCompress idle).sha.h =
      #v[0x92B404E5#32, 0x56588CED#32, 0x6C1ACD4E#32, 0xBF053F68#32, 0x09F73A93#32] ∧
    (after .shaCompress idle).sha.hcnt = 64#64 := by
  decide +kernel
/-- V23. -/
theorem test_sha_compress_partial :
    (after .shaCompress (streamed 1)).errcode = 0x03#8 ∧ (after .shaCompress (streamed 1)).sha = (streamed 1).sha := by
  decide +kernel
/-- V1. -/
theorem test_sha_final_empty :
    (after .shaFinal idle).sha.h = #v[0xDA39A3EE#32, 0x5E6B4B0D#32, 0x3255BFEF#32, 0x95601890#32, 0xAFD80709#32] ∧
    (after .shaFinal idle).sha.hfin = true := by
  decide +kernel
/-- V5: 56 bytes need a second block; its last word is the bit length. -/
theorem test_sha_final_two_blocks :
    (after .shaFinal (streamed 56)).sha.h =
      #v[0xC2DB330F#32, 0x6083854C#32, 0x99D4B5BF#32, 0xB6E8F29F#32, 0x201BE699#32] ∧
    blkWord (after .shaFinal (streamed 56)).sha.buf 15 = 0x000001C0#32 := by
  decide +kernel
/-- V17. -/
theorem test_hdin32 :
    (after (.hdin32 0x61626364#32) idle).sha.buflen = 4 ∧ (after (.hdin32 0x61626364#32) idle).sha.hcnt = 4#64 ∧
    blkWord (after (.hdin32 0x61626364#32) idle).sha.buf 0 = 0x61626364#32 := by
  decide +kernel
/-- V21. -/
theorem test_hdin32_fills :
    filling.pend = .fill [0x64#8, 0x65#8] ∧ filling.busy = true ∧ filling.sha.hcnt = 66#64 ∧
    (afterTurn .engine filling).sha.buflen = 2 ∧ blkWord (afterTurn .engine filling).sha.buf 0 = 0x64656161#32 ∧
    (afterTurn .engine filling).sha.h =
      #v[0x95F83CE1#32, 0x472A21DB#32, 0x8A6DCE41#32, 0x45A4587E#32, 0x116C0E7B#32] := by
  decide +kernel
/-- V18. -/
theorem test_hdin8_ignores_high_bits :
    (after (.hdin8 0x00000100#32) idle).sha.buflen = 1 ∧ (after (.hdin8 0x00000100#32) idle).sha.buf[0] = 0x00#8 := by
  decide +kernel
/-- V28. -/
theorem test_hdin8_length_overflow :
    (after (.hdin8 0x61#32) (counted 0x1FFFFFFFFFFFFFFF)).errcode = 0x05#8 ∧
    (after (.hdin8 0x61#32) (counted 0x1FFFFFFFFFFFFFFF)).done = false := by
  decide +kernel
/-- V50: the sources are read before the result is written. -/
theorem test_modexp_same_register : (after (.modexp 0 0 0 2 false) (loaded [(0, 3), (2, 7)])).b[0] = 6 := by
  decide +kernel
/-- V46: base = m with CHK. -/
theorem test_modexp_chk :
    (after (.modexp 3 0 1 2 true) (loaded [(0, 7), (1, 7), (2, 7), (3, 42)])).errcode = 0x08#8 ∧
    (after (.modexp 3 0 1 2 true) (loaded [(0, 7), (1, 7), (2, 7), (3, 42)])).b[3] = 42 := by
  decide +kernel
/-- V60. -/
theorem test_modinv : (after (.modinv 3 0 1) (loaded [(0, 7), (1, 780)])).b[3] = 223 := by decide +kernel
/-- V64. -/
theorem test_modinv_not_invertible : (after (.modinv 3 0 1) (loaded [(0, 6), (1, 9)])).errcode = 0x07#8 := by
  decide +kernel
/-- V76. -/
theorem test_gcd : (after (.gcd 3 0 1) (loaded [(0, 12), (1, 18)])).b[3] = 6 := by decide +kernel
/-- V98: the bank overlaps the destination; m1 < m2. -/
theorem test_crt_dec :
    (after (.crtDec 8 3 8 false) (loaded [(8, 61), (9, 53), (10, 43), (11, 15), (12, 38), (3, 1317)])).b[8] = 65 := by
  decide +kernel
/-- V95. -/
theorem test_crt_dec_result_width :
    (after (.crtDec 4 3 8 false) (loaded [(8, 2 ^ 1100), (9, 2 ^ 1000), (10, 1), (11, 1), (3, 5)])).errcode = 0x09#8 := by
  decide +kernel

/-! ### The bus -/

/-- V109. -/
theorem test_read_id :
    (afterTurn (.host { write := false, addr := 0x000#14, data := 0#32, strb := 0#4 }) idle).reply =
      some (.read 0x43520100#32 false) := by
  decide +kernel
/-- V110, for OPW = 4096. -/
theorem test_param_4096 : paramWord ⟨.w4096⟩ = 0x00101000#32 := by decide
/-- V112: H0 with pstrb = 0x3. -/
theorem test_partial_write :
    (afterTurn (.host { write := true, addr := 0x020#14, data := 0#32, strb := 0x3#4 }) idle).reply = some (.write true) ∧
    (afterTurn (.host { write := true, addr := 0x020#14, data := 0#32, strb := 0x3#4 }) idle).sha = idle.sha := by
  decide +kernel
/-- V117: B1.w1 at 0x1104. -/
theorem test_read_big_word :
    (afterTurn (.host { write := false, addr := 0x1104#14, data := 0#32, strb := 0#4 })
      (loaded [(1, 0x1122334455667788)])).reply = some (.read 0x11223344#32 false) := by
  decide +kernel
/-- V118: a CMD write while busy. -/
theorem test_busy_command :
    (afterTurn (.host (fullWrite 0x014#14 0x10#32)) running).errcode = 0x02#8 ∧
    (afterTurn (.host (fullWrite 0x014#14 0x10#32)) running).pend = running.pend := by
  decide +kernel
/-- V122: B0 to B2 are kept by a soft reset, the CTRL bit 0 of the write is ignored, and nothing is pending. -/
theorem test_soft_reset :
    (afterTurn (.host (fullWrite 0x008#14 0x80000001#32)) running).pend = .none ∧
    (afterTurn (.host (fullWrite 0x008#14 0x80000001#32)) running).irqEn = false ∧
    (afterTurn (.host (fullWrite 0x008#14 0x80000001#32)) running).b[2] = 1000003 := by
  decide +kernel

/-! ### Witnesses: states and operands that meet the hypotheses of the statements -/

/-- The state invariant holds of the idle state, of a running command, of a pending FILL and of a finalized state. -/
theorem test_witness_inv_idle : StateInv idle :=
  ⟨by decide, by decide, by decide, by decide, by decide, by decide +kernel, trivial⟩
theorem test_witness_inv_running : StateInv running :=
  ⟨by decide +kernel, by decide +kernel, by decide +kernel, by decide +kernel, by decide +kernel, by decide +kernel,
    ⟨by decide +kernel, by decide +kernel⟩⟩
theorem test_witness_inv_filling : StateInv filling :=
  ⟨by decide +kernel, by decide +kernel, by decide +kernel, by decide +kernel, by decide +kernel, by decide +kernel,
    ⟨by decide +kernel, by decide +kernel, by decide +kernel⟩⟩

/-- EncodeDecodeAgree, DecodeEncodeAgree: every field at its highest value. -/
theorem test_witness_decode :
    decode (.command 0x01FFFF20#32) = .ok (.modexp 15 15 15 15 true) ∧ WellFormed (.modexp 15 15 15 15 true) := by
  decide

/-- IllegalWordsFail: V103's word (k = 12, one past the limit) matches no row; it can be written while idle and be
pending. -/
theorem test_witness_illegal_word :
    ¬ (0x000C0030#32 &&& 0xFFFFFFFF#32 = 0x00000010#32 ∨ 0x000C0030#32 &&& 0xFFFFFFFF#32 = 0x00000011#32 ∨
       0x000C0030#32 &&& 0xFFFFFFFF#32 = 0x00000012#32 ∨ 0x000C0030#32 &&& 0xFE0000FF#32 = 0x00000020#32 ∨
       0x000C0030#32 &&& 0xFFF000FF#32 = 0x00000021#32 ∨ 0x000C0030#32 &&& 0xFFF000FF#32 = 0x00000022#32 ∨
       (0x000C0030#32 &&& 0xFEF000FF#32 = 0x00000030#32 ∧ ((0x000C0030#32).extractLsb' 16 4).toNat ≤ 11)) ∧
    idle.busy = false ∧ (acceptCommand 0x000C0030#32 idle).pend = .command 0x000C0030#32 [] := by
  decide +kernel

/-- OperationsByAddress: the soft reset's bit. -/
theorem test_witness_soft_reset_bit : (0x80000000#32).getLsbD 31 = true := by decide

/-- StepRunsDecodedInstruction, EngineTurnCompletes, CommandsComputeFromLatchedValues, LatchedOperands…: a pending
command that decodes, one that does not, a pending FILL, and nothing pending. -/
theorem test_witness_pending :
    running.pend = .command 0x00210320#32 (latch 0x00210320#32 running.b) ∧
    decodeCommand 0x00210320#32 = .ok (.modexp 3 0 1 2 false) ∧ (2 : BReg) ∈ sourceRegs (.modexp 3 0 1 2 false) ∧
    decodeCommand 0x00000013#32 = .error .unassignedOpcode ∧ filling.pend = .fill [0x64#8, 0x65#8] ∧
    idle.pend = .none ∧ (0x044#14).toNat % 4 = 0 := by
  decide +kernel

/-- PlacedWordRunsNext, both kinds of code. -/
theorem test_witness_placed :
    decodeTableWord 32 0x00210320 = some (.modexp 3 0 1 2 false) ∧ decodeTableWord 16 0x0044 = some (.hdin8 0#32) := by
  decide

/-- PendingOperationCompletes and InvariantKeptByEveryStep: a step from a state with the invariant answers. -/
theorem test_witness_step : ∃ t, step running = .next t := ⟨_, rfl⟩

/-- CommandSubmission's last clause: a step after which a command is pending. -/
theorem test_witness_submission :
    (afterTurn (.host (fullWrite 0x014#14 0x10#32)) idle).pend = .command 0x10#32 [] ∧ running.busy = true := by
  decide +kernel

/-- BusyTransferKeepsOperation: a transfer while busy that is no soft reset. -/
theorem test_witness_busy_transfer :
    running.busy = true ∧
    ¬ ((fullWrite 0x014#14 0x10#32).write = true ∧ (fullWrite 0x014#14 0x10#32).strb = 0xF#4 ∧
      (fullWrite 0x014#14 0x10#32).addr = 0x008#14 ∧ (fullWrite 0x014#14 0x10#32).data.getLsbD 31 = true) := by
  decide +kernel

/-- IssuedCommandRuns. -/
theorem test_witness_issue :
    WellFormed (.gcd 3 0 1) ∧ encode (.gcd 3 0 1) = .command 0x00010322#32 ∧ idle.busy = false := by
  decide

/-- ErrorRecording and ErrorsArePrecise: an instruction of each class that fails, from a state without and with an
earlier error. -/
theorem test_witness_errors :
    idle.err = false ∧ idle.errcode = 0#8 ∧ (after (.modexp 3 0 1 2 false) idle).err = true ∧
    (after (.hdin8 0#32) (clearError finalized)).err = true ∧
    (after (.modinv 3 0 1) (clearError (raiseError .busy idle))).err = true := by
  decide +kernel

/-- ErrorRecordIsSticky. -/
theorem test_witness_sticky : (raiseError .busy idle).err = true ∧ (raiseError .busy idle).errcode ≠ 0#8 := by decide

/-- FinalizedUntilInit, and the last clause of ShaInitMeaning (with any instruction but SHA_INIT). -/
theorem test_witness_finalized : finalized.sha.hfin = true ∧ finalized.busy = false ∧ finalized.errcode = 0#8 := by
  decide

/-- BigRegisterChanges: the completion of a command, and an idle word write (the last word of B15 under OPW = 2048). -/
theorem test_witness_big_register :
    (afterTurn .engine running).b[3] ≠ running.b[3] ∧
    (afterTurn (.host (fullWrite 0x1FFC#14 1#32)) idle).b[15] ≠ idle.b[15] := by
  decide +kernel

/-- IllegalAccessHasNoEffect, both clauses. -/
theorem test_witness_illegal_access : (0x002#14).toNat % 4 ≠ 0 ∧ 0x3#4 ≠ 0xF#4 := by decide

/-- ControlReads, ControlWrites: the first and last reserved offsets of each range (V113), for OPW = 2048. -/
theorem test_witness_reserved :
    (0x048#14).toNat = 0x048 ∧ (0x07C#14).toNat = 0x07C ∧ (0x0C0#14).toNat = 0x0C0 ∧ (0xFFC#14).toNat = 0xFFC ∧
    0x1000 + 16 * Config.standard.stride ≤ (0x2000#14).toNat ∧ (0x3FFC#14).toNat % 4 = 0 ∧
    (0x7FFFFFFF#32).getLsbD 31 = false := by
  decide

/-- DataReadsWhileIdle, DataReadsWhileBusy, DataWrites: the first and last register of each range. -/
theorem test_witness_data_ranges :
    (0x020#14).toNat = 0x020 + 4 * (0 : Fin 5).val ∧ (0x030#14).toNat = 0x020 + 4 * (4 : Fin 5).val ∧
    (0x0BC#14).toNat = 0x080 + 4 * (15 : Fin 16).val ∧ 63 < Config.standard.words ∧
    (0x1FFC#14).toNat = 0x1000 + (15 : BReg).val * Config.standard.stride + 4 * 63 ∧
    (0x1FFC#14).toNat < 0x1000 + 16 * Config.standard.stride ∧ idle.busy = false ∧ running.busy = true := by
  decide +kernel

/-- AddressMapIsOneToOne, RegisterWritesAreIdempotent, BigValueIsSumOfWords, LoadbLoadsTheRegister: the last word under
the widest OPW, and the largest value. -/
theorem test_witness_big_words :
    127 < Config.words ⟨.w4096⟩ ∧ regAt ⟨.w4096⟩ 0x2FFC#14 = .bw 15 127 ∧ regAt ⟨.w4096⟩ 0x3000#14 = .reserved ∧
    (loaded [(0, 2 ^ 2048 - 1)]).b[0] < 2 ^ Config.standard.opwBits ∧ idle.busy = false := by
  decide +kernel

/-- HardwareReset's last clause: a read presented during the reset. -/
theorem test_witness_reset_read :
    ∃ p, step { running with turns := [.reset (some { write := false, addr := 0x000#14, data := 0#32, strb := 0#4 })] } =
      .next p := ⟨_, rfl⟩

/-- SoftReset: a pending big-number command, and a pending SHA command. -/
theorem test_witness_soft_reset :
    decodeCommand 0x00210320#32 = .ok (.modexp 3 0 1 2 false) ∧ (acceptCommand 0x10#32 idle).pend = .command 0x10#32 [] ∧
    decodeCommand 0x10#32 = .ok .shaInit := by
  decide +kernel

/-- ShaCompressMeaning and ShaFinalChecks, at the limits (V31 to V34). -/
theorem test_witness_length_limit :
    (counted (2 ^ 61 - 1 - 63)).sha.hcnt.toNat + 64 > 2 ^ 61 - 1 ∧
    (counted (2 ^ 61 - 1 - 64)).sha.hcnt.toNat + 64 ≤ 2 ^ 61 - 1 ∧ (counted (2 ^ 61)).sha.hcnt.toNat > 2 ^ 61 - 1 ∧
    (counted 0).sha.buflen = 0 ∧ (streamed 1).sha.buflen ≠ 0 ∧ (counted 0).sha.hfin = false := by
  decide +kernel

/-- ShaFinalEffect at 55, 56 and 63 bytes (V4, V5, V8). -/
theorem test_witness_final :
    (streamed 55).sha.buflen ≤ 55 ∧ 56 ≤ (streamed 56).sha.buflen ∧ (streamed 63).sha.buflen ≤ 63 ∧
    (streamed 63).sha.hfin = false ∧ (streamed 63).sha.hcnt.toNat ≤ 2 ^ 61 - 1 := by
  decide +kernel

/-- AppendChecks at the limits (V28, V29). -/
theorem test_witness_append_checks :
    (counted (2 ^ 61 - 4)).sha.hcnt.toNat + 4 > 2 ^ 61 - 1 ∧ (counted (2 ^ 61 - 1)).sha.hcnt.toNat + 1 > 2 ^ 61 - 1 ∧
    (counted 0).busy = false ∧ running.busy = true ∧ finalized.sha.hfin = true := by
  decide +kernel

/-- Hdin32Meaning and Hdin8Meaning at 59, 60 and 63 bytes, and with the counter at its last legal value (V30). -/
theorem test_witness_appends :
    (streamed 59).sha.buflen ≤ 59 ∧ 60 ≤ (streamed 60).sha.buflen ∧ (streamed 63).sha.buflen = 63 ∧
    (streamed 63).busy = false ∧ (streamed 63).sha.hfin = false ∧
    (counted (2 ^ 61 - 5)).sha.hcnt.toNat + 4 ≤ 2 ^ 61 - 1 ∧ (counted (2 ^ 61 - 2)).sha.hcnt.toNat + 1 ≤ 2 ^ 61 - 1 := by
  decide +kernel

/-- R99: HASHBYTES of five bytes, the first WAIT with one failing poll. The block of V21 fills, the poll reads BUSY = 1,
and after the ENGINE's turn the last one reads BUSY = 0. -/
theorem test_hashbytes_polls_again :
    (match core.run 2 ({ (streamed 62) with
        turns := hashBytes Config.standard [1] [0x62#8, 0x63#8, 0x64#8, 0x65#8, 0x66#8] } : State) with
      | .next t => some t.reply
      | .fault _ => none
      | .refused _ => none) = some (some (.read 0x00000001#32 false)) ∧
    (match core.run 4 ({ (streamed 62) with
        turns := hashBytes Config.standard [1] [0x62#8, 0x63#8, 0x64#8, 0x65#8, 0x66#8] } : State) with
      | .next t => some (t.reply, t.sha.buflen)
      | .fault _ => none
      | .refused _ => none) = some (some (.read 0x00000000#32 false), 2) := by
  decide +kernel

/-- HashBytesAppendsTheMessage: the same state and bytes, with turns to come after them. -/
theorem test_witness_hashbytes :
    (streamed 62).busy = false ∧ (streamed 62).pend = .none ∧ (streamed 62).sha.hfin = false ∧
    (streamed 62).sha.hcnt.toNat + [0x62#8, 0x63#8, 0x64#8, 0x65#8, 0x66#8].length ≤ 2 ^ 61 - 1 := by
  decide +kernel

/-- ShaFinalChecks, last clause: an idle write of HCNT_HI takes the counter past the limit. -/
theorem test_witness_counter_past_limit :
    idle.sha.hcnt.toNat ≤ 2 ^ 61 - 1 ∧
    (afterTurn (.host (fullWrite 0x038#14 0x20000000#32)) idle).sha.hcnt.toNat > 2 ^ 61 - 1 := by
  decide +kernel

/-- FillCompletion: a FILL with 0 and one with 3 leftover bytes. -/
theorem test_witness_fill :
    (after (.hdin8 0x61#32) (streamed 63)).pend = .fill [] ∧
    (after (.hdin32 0x61626364#32) (streamed 63)).pend = .fill [0x62#8, 0x63#8, 0x64#8] := by
  decide +kernel

/-- ChunkingInvariance and CompressEqualsAppending: two splits of "abcd", and an idle state at a block boundary. -/
theorem test_witness_chunking :
    messageOf [.word 0x61626364#32] = messageOf [.byte 0x61#32, .byte 0x62#32, .byte 0x63#32, .byte 0x64#32] ∧
    idle.busy = false ∧ idle.pend = .none ∧ idle.sha.hfin = false ∧ idle.sha.buflen = 0 ∧
    idle.sha.hcnt.toNat + 64 ≤ 2 ^ 61 - 1 := by
  decide +kernel

/-- ModexpMeaning: m = 0, base = m with CHK, base = m − 1 with CHK (V44, V46, V47). -/
theorem test_witness_modexp :
    operand (loaded [(2, 0)]) 2 = 0 ∧ operand (loaded [(0, 7), (2, 7)]) 0 ≥ operand (loaded [(0, 7), (2, 7)]) 2 ∧
    operand (loaded [(0, 6), (2, 7)]) 0 < operand (loaded [(0, 6), (2, 7)]) 2 := by
  decide +kernel

/-- ModinvMeaning: m = 0, a = 0 with m = 7, and m = 1 (V70, V65, V61). GcdMeaning: 0 and 0 (V73). -/
theorem test_witness_modinv :
    operand (loaded [(0, 2)]) 1 = 0 ∧ Nat.gcd (operand (loaded [(1, 7)]) 0) (operand (loaded [(1, 7)]) 1) ≠ 1 ∧
    Nat.gcd (operand (loaded [(1, 1)]) 0) (operand (loaded [(1, 1)]) 1) = 1 ∧ operand idle 0 = 0 := by
  decide +kernel

/-- CrtDecMeaning: p = 0; n = 2^OPW exactly, and above it; c = n with CHK (V92, V96, V95, V88). -/
theorem test_witness_crt :
    operand idle 11 = 0 ∧ (2 ^ 1024 : Nat) * 2 ^ 1024 ≤ 2 ^ idle.cfg.opwBits ∧
    (2 ^ 1100 : Nat) * 2 ^ 1000 > 2 ^ idle.cfg.opwBits ∧ operand (loaded [(3, 3233)]) 3 ≥ 61 * 53 ∧
    (11 : BReg).val ≤ 11 := by
  decide +kernel

/-- CrtDecEqualsFullExponentiation: key K1, in the highest bank, with u = 65 and c = 1317 (V51, V80). -/
theorem test_witness_key :
    (61 : Nat).Prime ∧ (53 : Nat).Prime ∧ 7 * 223 % Nat.lcm 60 52 = 1 % Nat.lcm 60 52 ∧ 223 % 60 = 43 ∧
    223 % 52 = 15 ∧ 38 * 53 % 61 = 1 ∧ 61 * 53 ≤ 2 ^ idle.cfg.opwBits ∧ 65 ^ 7 % 3233 = 1317 ∧
    operand (loaded [(11, 61), (12, 53), (13, 43), (14, 15), (15, 38), (3, 1317)]) (Fin.ofNat 16 (11 + 4)) = 38 := by
  refine ⟨by norm_num, by norm_num, ?_⟩
  decide +kernel

/-- FrameOfCommands and FrameOfAppends: a next state of each. -/
theorem test_witness_frames :
    (∃ t, exec (.gcd 3 0 1) idle = .next t) ∧ destReg (.gcd 3 0 1) ≠ some 4 ∧ (∃ t, exec (.hdin32 0#32) idle = .next t) ∧
    (∃ t, exec (.hdin8 0#32) idle = .next t) :=
  ⟨⟨_, rfl⟩, by decide, ⟨_, rfl⟩, ⟨_, rfl⟩⟩

end Sys2Proof.Tests
end

/-! ### The words of a big register -/

namespace Sys2Proof.Proofs

open Sys2Proof.Machine Sys2Proof.Laws

/-- R12, R35: BW[i][j] has the value of word j of B[i]. -/
@[simp] theorem regValue_bw (i : BReg) (j : Nat) (s : State) : regValue (.bw i j) s = getWord s.b[i] j := rfl

/-- Settles O34: the words add up to B[i] modulo 2^OPW (`sum_of_words`), and B[i] is below that bound. -/
theorem bigValueIsSumOfWords : Obligations.BigValueIsSumOfWords := by
  intro s i hlt
  have hbound : s.b[i] < 2 ^ (32 * s.cfg.words) := opwBits_eq_words s.cfg ▸ hlt
  calc s.b[i] = s.b[i] % 2 ^ (32 * s.cfg.words) := (Nat.mod_eq_of_lt hbound).symm
    _ = ((List.range s.cfg.words).map fun j => (getWord s.b[i] j).toNat * 2 ^ (32 * j)).sum :=
      (sum_of_words s.b[i] s.cfg.words).symm
    _ = ((List.range s.cfg.words).map fun j => (regValue (.bw i j) s).toNat * 2 ^ (32 * j)).sum := by
      simp only [regValue_bw]

end Sys2Proof.Proofs

/-! ### What a soft reset leaves (R232) -/

namespace Sys2Proof.Machine

/-- R232: a soft reset gives every piece of state a fixed value, but for the big registers and the draws they take. -/
theorem softReset_eq (s : State) : softReset s =
    { s with
      pend := .none, busy := false, irqEn := false, done := false, err := false, errcode := 0#8, lastcmd := 0#32
      sha := HashState.fresh, b := (softReset s).b, draws := (softReset s).draws } := by
  unfold softReset
  split <;> rfl

@[simp] theorem softReset_cfg (s : State) : (softReset s).cfg = s.cfg := by rw [softReset_eq]
@[simp] theorem softReset_irqEn (s : State) : (softReset s).irqEn = false := by rw [softReset_eq]
@[simp] theorem softReset_busy (s : State) : (softReset s).busy = false := by rw [softReset_eq]
@[simp] theorem softReset_done (s : State) : (softReset s).done = false := by rw [softReset_eq]
@[simp] theorem softReset_err (s : State) : (softReset s).err = false := by rw [softReset_eq]
@[simp] theorem softReset_errcode (s : State) : (softReset s).errcode = 0#8 := by rw [softReset_eq]
@[simp] theorem softReset_lastcmd (s : State) : (softReset s).lastcmd = 0#32 := by rw [softReset_eq]
@[simp] theorem softReset_sha (s : State) : (softReset s).sha = HashState.fresh := by rw [softReset_eq]
@[simp] theorem softReset_pend (s : State) : (softReset s).pend = .none := by rw [softReset_eq]
@[simp] theorem softReset_turns (s : State) : (softReset s).turns = s.turns := by rw [softReset_eq]
@[simp] theorem softReset_reply (s : State) : (softReset s).reply = s.reply := by rw [softReset_eq]

/-- A STATUS write does not reach LASTCMD. -/
@[simp] theorem writeStatus_lastcmd (v : Word) (s : State) : (writeStatus v s).lastcmd = s.lastcmd := by
  simp only [writeStatus]
  split <;> split <;> rfl

end Sys2Proof.Machine

/-! ### What each kind of turn can do to the state -/

namespace Sys2Proof.Proofs

open Sys2Proof.Machine Sys2Proof.Safety Sys2Proof.Laws

/-- R71: an aligned offset lies where the map has its register. -/
theorem isAt_of_regAt {c : Config} {a : Addr} (ha : a.toNat % 4 = 0) {r : RegName} (hr : regAt c a = r) :
    IsAt c a.toNat r :=
  hr ▸ regAt_isAt c a ha

/-- R38: a read of a data register while busy. -/
theorem readReg_unspec {r : RegName} {s : State} (hb : s.busy = true) (hu : unspecWhenBusy r = true) :
    readReg r s = (Config.freeWord s.draws, { s with draws := s.draws + 1 }) :=
  if_pos (by rw [hb, hu]; rfl)

/-- R66: a read changes nothing but the answer and the count of draws. -/
theorem busRead_eq (t : Transfer) (s : State) :
    ∃ v n, busRead t s = { s with reply := some (.read v false), draws := n } := by
  simp only [busRead, readReg]
  split
  · exact ⟨_, _, rfl⟩
  · exact ⟨_, _, rfl⟩

/-- A reset turn is a hardware reset, but for the answer and its draw. -/
theorem resetTurn_eq (p : Option Transfer) (s : State) :
    ∃ r n, resetTurn p s = { hardwareReset s with reply := r, draws := n } := by
  cases p with
  | none => exact ⟨_, _, rfl⟩
  | some t => exact ⟨_, _, rfl⟩

/-- What a HOST turn can lead to: nothing but an answer (an illegal access or a read), a write of a register, or an
append of at most four bytes. -/
theorem hostTurn_next_cases {tr : Transfer} {s t : State} (h : hostTurn tr s = .next t) :
    (∃ r n, t = { s with reply := r, draws := n }) ∨
    (∃ a v, tr = fullWrite a v ∧ a.toNat % 4 = 0 ∧ regAt s.cfg a ≠ .hdin32 ∧ regAt s.cfg a ≠ .hdin8 ∧
      t = { writeReg (regAt s.cfg a) v s with reply := some (.write false) }) ∨
    (∃ bytes : List Byte, bytes.length ≤ 4 ∧
      t = orRaise (appendBytes bytes { s with reply := some (.write false) })
        { s with reply := some (.write false) }) := by
  rcases hostTurn_cases tr s with ⟨_, e⟩ | ⟨_, _, e⟩ | ⟨a, v, htr, ha, h1, h2, e⟩ | ⟨a, v, i, _, hi, e⟩
  · rw [e] at h
    cases h
    exact .inl ⟨_, _, rfl⟩
  · obtain ⟨w, n, hread⟩ := busRead_eq tr s
    rw [e, hread] at h
    cases h
    exact .inl ⟨_, _, rfl⟩
  · rw [e] at h
    cases h
    obtain ⟨n1, n2⟩ := regAt_ne_append s.cfg a ha h1 h2
    exact .inr (.inl ⟨a, v, htr, ha, n1, n2, rfl⟩)
  · have happ : isAppend i = true := by rcases hi with ⟨_, rfl⟩ | ⟨_, rfl⟩ <;> rfl
    obtain ⟨bytes, hlen, hexec⟩ := exec_append_bytes happ
    rw [e, hexec] at h
    cases h
    exact .inr (.inr ⟨bytes, hlen, rfl⟩)

end Sys2Proof.Proofs

/-! ### The invariants of R39 -/

namespace Sys2Proof.Proofs

open Sys2Proof.Machine Sys2Proof.Safety Sys2Proof.Laws

/-- The fields that the invariants do not look at. -/
theorem stateInv_unseen {s : State} (h : StateInv s) {ie dn : Bool} {lc : Word} {ts : List Turn} {r : Option Reply}
    {n : Nat} :
    StateInv { s with irqEn := ie, done := dn, lastcmd := lc, turns := ts, reply := r, draws := n } :=
  stateInv_of_eq h rfl rfl rfl rfl rfl rfl rfl rfl

/-- R116: what a pending command says of the state. -/
theorem pending_command {s : State} {w : Word} {latched : Latched} (h : StateInv s)
    (hp : s.pend = .command w latched) : latched = latch w s.b ∧ s.sha.buflen ≤ 63 := by
  have hok := h.pending_ok
  rwa [PendingOk, hp] at hok

/-- R36: what a pending FILL says of the state. -/
theorem pending_fill {s : State} {rest : List Byte} (h : StateInv s) (hp : s.pend = .fill rest) :
    s.sha.buflen = 64 ∧ rest.length ≤ 3 ∧ s.sha.hfin = false := by
  have hok := h.pending_ok
  rwa [PendingOk, hp] at hok

/-! #### The error record (I4, I5) -/

/-- R200: every error code lies in 1..9. -/
theorem code_range (c : ErrorCode) : 0x01 ≤ c.code.toNat ∧ c.code.toNat ≤ 0x09 := by
  cases c <;> decide

/-- R204: recording an error keeps the invariants. An earlier code that is kept belongs to an ERR already set. -/
theorem stateInv_raiseError {s : State} (h : StateInv s) (c : ErrorCode) : StateInv (raiseError c s) where
  busy_iff := h.busy_iff
  idle_buflen := h.idle_buflen
  final_empty := h.final_empty
  no_err := fun e => absurd e (by simp)
  err_code := fun _ => by
    rw [raiseError_errcode]
    split
    · exact code_range c
    · next hcode =>
      have herr : s.err = true := by
        by_contra hne
        exact hcode (h.no_err (Bool.eq_false_iff.mpr hne))
      exact h.err_code herr
  big_bound := h.big_bound
  pending_ok := h.pending_ok

/-- R25: clearing the error record keeps the invariants. -/
theorem stateInv_clearError {s : State} (h : StateInv s) : StateInv (clearError s) where
  busy_iff := h.busy_iff
  idle_buflen := h.idle_buflen
  final_empty := h.final_empty
  no_err := fun _ => rfl
  err_code := fun e => absurd e (by simp)
  big_bound := h.big_bound
  pending_ok := h.pending_ok

/-! #### Idle states (I1, I2) -/

/-- I1: an idle core has nothing pending. -/
theorem pend_eq_none_of_idle {s : State} (h : StateInv s) (hb : s.busy = false) : s.pend = .none := by
  by_contra hp
  exact absurd (h.busy_iff.mpr hp) (by rw [hb]; decide)

/-- What an idle state has to satisfy: what is said of a pending operation falls away. -/
theorem stateInv_of_idle {s : State} (hbusy : s.busy = false) (hpend : s.pend = .none) (hlen : s.sha.buflen ≤ 63)
    (hfin : s.sha.hfin = true → s.sha.buflen = 0) (hno : s.err = false → s.errcode = 0#8)
    (herr : s.err = true → 0x01 ≤ s.errcode.toNat ∧ s.errcode.toNat ≤ 0x09)
    (hb : ∀ i : BReg, s.b[i] < 2 ^ s.cfg.opwBits) : StateInv s where
  busy_iff := by rw [hbusy, hpend]; simp
  idle_buflen := fun _ => hlen
  final_empty := hfin
  no_err := hno
  err_code := herr
  big_bound := hb
  pending_ok := by unfold PendingOk; rw [hpend]; trivial

/-! #### The big registers (I6) -/

/-- Setting one register to a value below a bound keeps all of them below it. -/
theorem set_lt {b : Vector BigNat 16} {n : Nat} (hb : ∀ i : BReg, b[i] < n) (rd : BReg) {v : BigNat} (hv : v < n)
    (i : BReg) : (b.set rd v)[i] < n := by
  rw [Fin.getElem_fin, Vector.getElem_set]
  split
  · exact hv
  · exact hb i

/-- R11: a free big number has OPW bits. -/
theorem drawBig_lt (cfg : Config) (n : Nat) : drawBig cfg n < 2 ^ cfg.opwBits := Nat.mod_lt _ (Nat.two_pow_pos _)

/-- R231: after a hardware reset every big register has OPW bits. -/
theorem drawBank_lt (cfg : Config) (n : Nat) (i : BReg) : (drawBank cfg n)[i] < 2 ^ cfg.opwBits := by
  rw [drawBank, Fin.getElem_fin, Vector.getElem_ofFn]
  exact drawBig_lt cfg _

/-- R232: a soft reset leaves every big register with OPW bits, the aborted destination included. -/
theorem softReset_b_lt {s : State} (hb : ∀ i : BReg, s.b[i] < 2 ^ s.cfg.opwBits) (i : BReg) :
    (softReset s).b[i] < 2 ^ s.cfg.opwBits := by
  unfold softReset
  split
  · exact hb i
  · next rd _ => exact set_lt hb rd (drawBig_lt s.cfg s.draws) i

/-- The operands of the pending command have OPW bits, being the latched registers (R116). -/
theorem operand_lt {s : State} {w : Word} {latched : Latched} {i : Instr} (h : StateInv s)
    (hp : s.pend = .command w latched) (hd : decodeCommand w = .ok i) :
    ∀ r ∈ sourceRegs i, operand s r < 2 ^ s.cfg.opwBits := by
  intro r hr
  rw [operand_latched hp (pending_command h hp).1 hd r hr]
  exact h.big_bound r

/-! #### Resets -/

/-- R230: the invariants hold after a hardware reset. -/
theorem stateInv_afterReset (cfg : Config) (n : Nat) : StateInv (State.afterReset cfg n) :=
  stateInv_of_idle rfl rfl (Nat.zero_le _) (fun _ => rfl) (fun _ => rfl) (fun e => absurd e Bool.false_ne_true)
    (drawBank_lt cfg n)

theorem stateInv_resetTurn (p : Option Transfer) (s : State) : StateInv (resetTurn p s) := by
  obtain ⟨r, n, e⟩ := resetTurn_eq p s
  rw [e]
  exact stateInv_unseen (stateInv_afterReset s.cfg s.draws)

/-- R232: a soft reset leaves an idle core with a fresh SHA unit and no error. -/
theorem stateInv_softReset {s : State} (h : StateInv s) : StateInv (softReset s) := by
  refine stateInv_of_idle (softReset_busy s) (softReset_pend s) ?_ ?_ ?_ ?_ ?_
  · rw [softReset_sha]; exact Nat.zero_le _
  · rw [softReset_sha]; exact fun _ => rfl
  · exact fun _ => softReset_errcode s
  · rw [softReset_err]; exact fun e => absurd e Bool.false_ne_true
  · rw [softReset_cfg]; exact softReset_b_lt h.big_bound

/-! #### The ENGINE -/

/-- R139: completing a FILL leaves its at most three bytes in the buffer, and the state is not final. -/
theorem stateInv_completeFill {s : State} {rest : List Byte} (h : StateInv s) (hp : s.pend = .fill rest) :
    StateInv (completeFill rest s) := by
  obtain ⟨_, hrest, hfin⟩ := pending_fill h hp
  have hunit : (fillUnit rest s.sha).buflen = rest.length ∧ (fillUnit rest s.sha).hfin = s.sha.hfin := by
    rw [fillUnit, foldl_appendByte]
    exact ⟨Nat.zero_add _, rfl⟩
  refine stateInv_of_idle rfl rfl ?_ ?_ h.no_err h.err_code h.big_bound
  · rw [completeFill_sha, hunit.1]; omega
  · rw [completeFill_sha, hunit.2, hfin]; exact fun e => absurd e Bool.false_ne_true

/-- R113: a command that fails. -/
theorem stateInv_failedCommand {s : State} {w : Word} {latched : Latched} (h : StateInv s)
    (hp : s.pend = .command w latched) (c : ErrorCode) : StateInv (finishCommand (raiseError c s)) :=
  have hr := stateInv_raiseError h c
  stateInv_of_idle rfl rfl (pending_command hr hp).2 hr.final_empty hr.no_err hr.err_code hr.big_bound

/-- R113: the pending command completes, with an error or with one of its two effects. -/
theorem stateInv_command {s t : State} {w : Word} {latched : Latched} {i : Instr} (h : StateInv s)
    (hp : s.pend = .command w latched) (hd : decodeCommand w = .ok i) (he : exec i s = .next t) : StateInv t := by
  have hlen := (pending_command h hp).2
  rcases command_cases i s t (isAppend_of_decodeCommand hd) he with ⟨c, _, rfl⟩ | ⟨u, hu, rfl⟩
  · exact stateInv_failedCommand h hp c
  · cases hu with
    | big rd v _ hv =>
      exact stateInv_of_idle rfl rfl hlen h.final_empty h.no_err h.err_code
        (set_lt h.big_bound rd (hv (operand_lt h hp hd)))
    | sha u _ hu _ _ =>
      obtain ⟨hlen', hfin'⟩ := hu hlen
      exact stateInv_of_idle rfl rfl hlen' hfin' h.no_err h.err_code h.big_bound

theorem stateInv_engineTurn {s t : State} (h : StateInv s) (he : engineTurn s = .next t) : StateInv t := by
  rcases engineTurn_cases s with ⟨_, e⟩ | ⟨rest, hp, e⟩ | ⟨w, latched, r, hp, _, e⟩ | ⟨w, latched, i, hp, hd, e⟩ <;>
    rw [e] at he
  · cases he
    exact h
  · cases he
    exact stateInv_completeFill h hp
  · cases he
    exact stateInv_failedCommand h hp _
  · exact stateInv_command h hp hd he

/-! #### The HOST -/

/-- R112: acceptance latches the operands, at a partly filled block since the core is idle. -/
theorem stateInv_submitCommand {s : State} (h : StateInv s) (v : Word) : StateInv (submitCommand v s) := by
  unfold submitCommand
  split
  · exact stateInv_raiseError h _
  · next hb =>
    have hlen : s.sha.buflen ≤ 63 := h.idle_buflen (Bool.eq_false_iff.mpr hb)
    exact
      { busy_iff := by simp
        idle_buflen := fun _ => hlen
        final_empty := h.final_empty
        no_err := h.no_err
        err_code := h.err_code
        big_bound := h.big_bound
        pending_ok := ⟨rfl, hlen⟩ }

/-- R24: a CTRL write sets IRQ_EN, or resets. -/
theorem stateInv_writeCtrl {s : State} (h : StateInv s) (v : Word) : StateInv (writeCtrl v s) := by
  unfold writeCtrl
  split
  · exact stateInv_softReset h
  · exact stateInv_unseen h

/-- R25: a STATUS write clears DONE, which the invariants do not see, and the error record. -/
theorem stateInv_writeStatus {s : State} (h : StateInv s) (v : Word) : StateInv (writeStatus v s) := by
  have hdone : StateInv (if v.getLsbD 1 then { s with done := false } else s) := by
    split
    · exact stateInv_unseen h
    · exact h
  simp only [writeStatus]
  split
  · exact stateInv_clearError hdone
  · exact hdone

/-- R67: a data write raises BUSY, or happens in an idle state. -/
theorem stateInv_writeData {s : State} {f : State → State} (h : StateInv s)
    (hf : s.busy = false → StateInv (f s)) : StateInv (writeData f s) := by
  unfold writeData
  split
  · exact stateInv_raiseError h _
  · next hb => exact hf (Bool.eq_false_iff.mpr hb)

/-- R70: an idle write of a word of B[i] that the map has. -/
theorem stateInv_writeWord {s : State} (h : StateInv s) (hb : s.busy = false) (i : BReg) {j : Nat}
    (hj : j < s.cfg.words) (v : Word) : StateInv (writeBig i (setWord (readBig s i) j v) s) := by
  have hv : setWord s.b[i] j v < 2 ^ s.cfg.opwBits := by
    have hi := h.big_bound i
    rw [opwBits_eq_words] at hi ⊢
    exact setWord_lt _ _ _ _ hj hi
  have hpend := pend_eq_none_of_idle h hb
  exact stateInv_of_idle hb hpend (h.idle_buflen hb) h.final_empty h.no_err h.err_code
    (set_lt h.big_bound i hv)

/-- R67: a write of a register other than the append ports. -/
theorem stateInv_writeReg {s : State} (h : StateInv s) (r : RegName) (v : Word) (h1 : r ≠ .hdin32) (h2 : r ≠ .hdin8)
    (hj : ∀ i j, r = .bw i j → j < s.cfg.words) : StateInv (writeReg r v s) := by
  rcases writeReg_cases r v s h1 h2 with ⟨_, e⟩ | ⟨_, e⟩ | ⟨_, e⟩ | ⟨f, hf, e⟩ | ⟨i, j, hr, e⟩ | e <;> rw [e]
  · exact stateInv_writeCtrl h v
  · exact stateInv_writeStatus h v
  · exact stateInv_submitCommand h v
  · obtain ⟨hlen, hfin⟩ := hf s.sha
    exact stateInv_writeData h fun _ => stateInv_of_eq h rfl rfl rfl rfl hlen hfin rfl rfl
  · exact stateInv_writeData h fun hb => stateInv_writeWord h hb i (hj i j hr) v
  · exact h

/-- R136 to R138: an append raises an error, leaves a partly filled block, or fills it and makes a FILL pending. -/
theorem stateInv_append {s : State} (h : StateInv s) (bytes : List Byte) (hl : bytes.length ≤ 4) :
    StateInv (orRaise (appendBytes bytes s) s) := by
  rcases append_effect bytes s hl with ⟨c, _, e⟩ | ⟨hb, _, u, hfin, _, ⟨e, hroom⟩ | ⟨rest, e, hfull⟩⟩ <;> rw [e]
  · exact stateInv_raiseError h c
  · have hpend := pend_eq_none_of_idle h hb
    exact stateInv_of_idle hb hpend (hroom (h.idle_buflen hb))
      (fun hf => absurd (hfin.symm.trans hf) Bool.false_ne_true) h.no_err h.err_code h.big_bound
  · obtain ⟨hlen, hrest⟩ := hfull (h.idle_buflen hb)
    exact
      { busy_iff := by simp
        idle_buflen := fun hidle => absurd hidle (by simp)
        final_empty := fun hf => absurd (hfin.symm.trans hf) Bool.false_ne_true
        no_err := h.no_err
        err_code := h.err_code
        big_bound := h.big_bound
        pending_ok := ⟨hlen, hrest, hfin⟩ }

theorem stateInv_hostTurn {tr : Transfer} {s t : State} (h : StateInv s) (he : hostTurn tr s = .next t) :
    StateInv t := by
  rcases hostTurn_next_cases he with ⟨r, n, rfl⟩ | ⟨a, v, _, ha, h1, h2, rfl⟩ | ⟨bytes, hl, rfl⟩
  · exact stateInv_unseen h
  · exact stateInv_unseen (stateInv_writeReg h _ v h1 h2 fun i j hr => (isAt_of_regAt ha hr).1)
  · exact stateInv_append (s := { s with reply := some (.write false) }) (stateInv_unseen h) bytes hl

/-! #### The obligations -/

/-- Settles O13, by the three kinds of turn: each keeps the invariants. -/
theorem invariantKeptByEveryStep : Obligations.InvariantKeptByEveryStep := by
  intro s t h he
  have hturns : ∀ ts, StateInv { s with turns := ts } := fun ts => stateInv_unseen h
  rcases step_cases he with ⟨p, ts, _, rfl⟩ | ⟨tr, ts, _, e⟩ | ⟨_, e⟩
  · exact stateInv_resetTurn p _
  · exact stateInv_hostTurn (hturns ts) e
  · exact stateInv_engineTurn (hturns s.turns.tail) e

/-- Settles O12, by `stateInv_afterReset`, of which State.reset is the default core's case. -/
theorem invariantHoldsAtReset : Obligations.InvariantHoldsAtReset :=
  ⟨stateInv_afterReset _ _, stateInv_afterReset⟩

end Sys2Proof.Proofs

/-! ### LASTCMD -/

namespace Sys2Proof.Proofs

open Sys2Proof.Machine Sys2Proof.Safety Sys2Proof.Laws

/-- No completion reaches LASTCMD. -/
theorem engineTurn_lastcmd {s t : State} (h : engineTurn s = .next t) : t.lastcmd = s.lastcmd := by
  rcases engineTurn_cases s with ⟨_, e⟩ | ⟨_, _, e⟩ | ⟨_, _, _, _, _, e⟩ | ⟨w, latched, i, _, hd, e⟩ <;> rw [e] at h
  · cases h; rfl
  · cases h; rfl
  · cases h; rfl
  · rcases command_cases i s t (isAppend_of_decodeCommand hd) h with ⟨c, _, rfl⟩ | ⟨u, hu, rfl⟩
    · rfl
    · cases hu with
      | big rd v hd hv => rfl
      | sha u hd hu hf hn => rfl

/-- No append reaches LASTCMD. -/
theorem append_lastcmd (bytes : List Byte) (s : State) (hl : bytes.length ≤ 4) :
    (orRaise (appendBytes bytes s) s).lastcmd = s.lastcmd := by
  rcases append_effect bytes s hl with ⟨c, _, e⟩ | ⟨_, _, u, _, _, ⟨e, _⟩ | ⟨rest, e, _⟩⟩
  · rw [e, raiseError_lastcmd]
  · rw [e]
  · rw [e]

/-- R67: a data write that keeps LASTCMD keeps it also when it is dropped. -/
theorem writeData_lastcmd {f : State → State} {s : State} (hf : (f s).lastcmd = s.lastcmd) :
    (writeData f s).lastcmd = s.lastcmd := by
  unfold writeData
  split
  · rfl
  · exact hf

/-- Of the register writes only an accepted CMD write and a soft reset reach LASTCMD (R28, R112, R232). -/
theorem writeReg_lastcmd (r : RegName) (v : Word) (s : State) (h1 : r ≠ .hdin32) (h2 : r ≠ .hdin8) :
    (writeReg r v s).lastcmd = s.lastcmd ∨
    (r = .cmd ∧ s.busy = false ∧ (writeReg r v s).lastcmd = v) ∨
    (r = .ctrl ∧ v.getLsbD 31 = true ∧ (writeReg r v s).lastcmd = 0#32) := by
  rcases writeReg_cases r v s h1 h2 with ⟨hr, e⟩ | ⟨_, e⟩ | ⟨hr, e⟩ | ⟨f, _, e⟩ | ⟨i, j, _, e⟩ | e <;> rw [e]
  · unfold writeCtrl
    split
    · next h31 => exact .inr (.inr ⟨hr, h31, softReset_lastcmd s⟩)
    · exact .inl rfl
  · exact .inl (writeStatus_lastcmd v s)
  · unfold submitCommand
    split
    · exact .inl rfl
    · next hb => exact .inr (.inl ⟨hr, Bool.eq_false_iff.mpr hb, rfl⟩)
  · exact .inl (writeData_lastcmd rfl)
  · exact .inl (writeData_lastcmd rfl)
  · exact .inl rfl

/-- Settles O24, by the three kinds of turn; of the HOST's only a register write can change LASTCMD
(`writeReg_lastcmd`). -/
theorem lastCommandChanges : Obligations.LastCommandChanges := by
  intro s t he
  rcases step_cases he with ⟨p, ts, ht, rfl⟩ | ⟨tr, ts, ht, e⟩ | ⟨_, e⟩
  · obtain ⟨r, n, e⟩ := resetTurn_eq p { s with turns := ts }
    exact .inr (.inr (.inr ⟨p, ts, ht, by rw [e]; rfl⟩))
  · rcases hostTurn_next_cases e with ⟨r, n, rfl⟩ | ⟨a, v, rfl, ha, h1, h2, rfl⟩ | ⟨bytes, hl, rfl⟩
    · exact .inl rfl
    · rcases writeReg_lastcmd _ v { s with turns := ts } h1 h2 with hl | ⟨hr, hb, hl⟩ | ⟨hr, h31, hl⟩
      · exact .inl hl
      · obtain rfl : a = 0x014#14 := BitVec.eq_of_toNat_eq (isAt_of_regAt ha hr)
        exact .inr (.inl ⟨v, ts, ht, hb, hl⟩)
      · obtain rfl : a = 0x008#14 := BitVec.eq_of_toNat_eq (isAt_of_regAt ha hr)
        exact .inr (.inr (.inl ⟨v, ts, ht, h31, hl⟩))
    · exact .inl (append_lastcmd bytes _ hl)
  · exact .inl ((engineTurn_lastcmd e).trans (popTurn_lastcmd s))

end Sys2Proof.Proofs

/-! ### Reads of data registers while busy, and the interrupt output -/

namespace Sys2Proof.Proofs

open Sys2Proof.Machine Sys2Proof.Safety Sys2Proof.Laws

/-- R38, R71: the register at an offset of the three data ranges is one whose busy reads are unspecified. -/
theorem unspecWhenBusy_of_isAt {c : Config} {n : Nat} {r : RegName} (h : IsAt c n r)
    (hn : (0x020 ≤ n ∧ n < 0x040) ∨ (0x080 ≤ n ∧ n < 0x0C0) ∨ (0x1000 ≤ n ∧ n < 0x1000 + 16 * c.stride)) :
    unspecWhenBusy r = true := by
  cases r with
  | h _ | hcntLo | hcntHi | hbuflen | blk _ | bw _ _ => rfl
  | id | param | ctrl | status | errcode | cmd | lastcmd | hdin32 | hdin8 | reserved =>
    simp only [IsAt] at h
    omega

/-- Settles O30: the offset is a data register's (`unspecWhenBusy_of_isAt`), so the read draws a free word. -/
theorem dataReadsWhileBusy : Obligations.DataReadsWhileBusy := by
  intro s ts tr ht hw hb ha hn
  have hu := unspecWhenBusy_of_isAt (regAt_isAt s.cfg tr.addr ha) hn
  rw [step_read ht hw ha, readReg_unspec (s := { s with turns := ts }) hb hu]
  exact ⟨_, rfl⟩

/-- Settles O23: the output is R37's formula, and IRQ_EN is 0 after a reset. -/
theorem interruptOutput : Obligations.InterruptOutput := by
  refine ⟨fun s => ?_, fun cfg n => rfl⟩
  rw [irq, Bool.and_eq_true, Bool.or_eq_true]

end Sys2Proof.Proofs

/-! ### The register window: where a register is, and one access to it -/

namespace Sys2Proof.Proofs

open Sys2Proof.Machine Sys2Proof.Safety Sys2Proof.Laws

/-- R71: a register that is not reserved has one offset. -/
theorem isAt_offset_unique {c : Config} {m n : Nat} {r : RegName} (hr : r ≠ .reserved) (hm : IsAt c m r)
    (hn : IsAt c n r) : m = n := by
  cases r with
  | reserved => exact absurd rfl hr
  | bw i j => exact hm.2.trans hn.2.symm
  | id | param | ctrl | status | errcode | cmd | lastcmd | h _ | hcntLo | hcntHi | hbuflen | hdin32 | hdin8 | blk _ =>
    exact Eq.trans hm (Eq.symm hn)

/-- R71: a register that is not reserved lies at a word-aligned offset. -/
theorem isAt_aligned {c : Config} {n : Nat} {r : RegName} (hr : r ≠ .reserved) (h : IsAt c n r) : n % 4 = 0 := by
  have hstride := stride_eq_words c
  cases r with
  | reserved => exact absurd rfl hr
  | bw i j =>
    obtain ⟨_, rfl⟩ := h
    rw [hstride, Nat.mul_left_comm]
    omega
  | id | param | ctrl | status | errcode | cmd | lastcmd | h _ | hcntLo | hcntHi | hbuflen | hdin32 | hdin8 | blk _ =>
    simp only [IsAt] at h
    omega

/-- R71: the words of the big registers lie inside the register window. -/
theorem bwOffset_lt (c : Config) (i : BReg) {j : Nat} (hj : j < c.words) :
    0x1000 + i.val * c.stride + 4 * j < 0x1000 + 16 * c.stride := by
  have hi := Nat.mul_le_mul_right c.stride (Nat.le_of_lt_succ i.isLt)
  rw [stride_eq_words] at hi ⊢
  omega

/-- R71: a register's offset is where the map has it. -/
theorem offsetOf_isAt (c : Config) (r : RegName) (hj : ∀ i j, r = .bw i j → j < c.words) :
    IsAt c (offsetOf c r).toNat r := by
  cases r with
  | h k | blk k =>
    refine BitVec.toNat_ofNat _ _ |>.trans (Nat.mod_eq_of_lt ?_)
    omega
  | bw i j =>
    have hlt := bwOffset_lt c i (hj i j rfl)
    have hle := (stride_pos_le c).2
    refine ⟨hj i j rfl, BitVec.toNat_ofNat _ _ |>.trans (Nat.mod_eq_of_lt ?_)⟩
    omega
  | reserved => exact .inl rfl
  | id | param | ctrl | status | errcode | cmd | lastcmd | hcntLo | hcntHi | hbuflen | hdin32 | hdin8 => rfl

/-- R71: every offset the map gives out is a multiple of four. -/
theorem offsetOf_aligned (c : Config) (r : RegName) (hj : ∀ i j, r = .bw i j → j < c.words) :
    (offsetOf c r).toNat % 4 = 0 := by
  by_cases hr : r = .reserved
  · rw [hr]
    exact (by decide : (0x01C#14).toNat % 4 = 0)
  · exact isAt_aligned hr (offsetOf_isAt c r hj)

/-- Settles O33: both directions go through the map as a relation, which gives an offset to one register
(`regAt_of_isAt`) and a register one offset (`isAt_offset_unique`). -/
theorem addressMapIsOneToOne : Obligations.AddressMapIsOneToOne := by
  intro c
  refine ⟨fun r hj => regAt_of_isAt c _ (offsetOf_aligned c r hj) r (offsetOf_isAt c r hj), fun a ha hr => ?_⟩
  have hat := regAt_isAt c a ha
  have hj : ∀ i j, regAt c a = .bw i j → j < c.words := fun i j h => (isAt_of_regAt ha h).1
  exact ⟨BitVec.eq_of_toNat_eq (isAt_offset_unique hr (offsetOf_isAt c _ hj) hat), hj⟩

/-- Settles O27: the access is illegal by R64, and `busError` answers it without touching the core. -/
theorem illegalAccessHasNoEffect : Obligations.IllegalAccessHasNoEffect := by
  intro s ts tr ht hbad
  have hill : illegalAccess tr = true := by
    rw [← Bool.not_eq_false, illegalAccess_eq_false_iff]
    rintro ⟨hal, hstrb⟩
    rcases hbad with hmis | ⟨hw, hpart⟩
    · exact hmis hal
    · exact hpart (hstrb hw)
  exact step_illegal ht hill

end Sys2Proof.Proofs

/-! ### Registers as numbers -/

namespace Sys2Proof.Proofs

open Sys2Proof.Machine Sys2Proof.Laws

/-- A concatenation as a number. -/
theorem append_eq_ofNat {m n : Nat} (x : BitVec m) (y : BitVec n) :
    x ++ y = BitVec.ofNat (m + n) (x.toNat * 2 ^ n + y.toNat) := by
  have h : (x ++ y).toNat = x.toNat * 2 ^ n + y.toNat := by
    rw [BitVec.toNat_append, ← Nat.shiftLeft_add_eq_or_of_lt y.isLt, Nat.shiftLeft_eq]
  rw [← h, BitVec.ofNat_toNat, BitVec.setWidth_eq]

/-- A field of a word as a number. -/
theorem extractLsb'_eq_ofNat {w : Nat} (x : BitVec w) (lo n : Nat) :
    x.extractLsb' lo n = BitVec.ofNat n (x.toNat / 2 ^ lo % 2 ^ n) := by
  apply BitVec.eq_of_toNat_eq
  rw [BitVec.extractLsb'_toNat, Nat.shiftRight_eq_div_pow, BitVec.toNat_ofNat, Nat.mod_mod]

/-- R23: PARAM has NBREG = 16 in bits 23:16 and OPW below. -/
theorem paramWord_eq (c : Config) : paramWord c = BitVec.ofNat 32 (0x00100000 + c.opwBits) := by
  obtain ⟨w⟩ := c
  cases w <;> rfl

/-- R24: CTRL reads as IRQ_EN alone. -/
theorem ctrlWord_eq (s : State) : ctrlWord s = BitVec.ofNat 32 s.irqEn.toNat := by
  rw [ctrlWord]
  cases s.irqEn <;> rfl

/-- R25: STATUS as the sum of its four flags. -/
theorem statusWord_eq (s : State) :
    statusWord s =
      BitVec.ofNat 32 (s.busy.toNat + 2 * s.done.toNat + 4 * s.err.toNat + 8 * s.sha.hfin.toNat) := by
  rw [statusWord]
  cases s.busy <;> cases s.done <;> cases s.err <;> cases s.sha.hfin <;> rfl

/-- R26: ERRCODE reads as the code, zero-extended. -/
theorem errcodeWord_eq (s : State) : errcodeWord s = s.errcode.setWidth 32 :=
  (BitVec.setWidth_eq_append (by decide)).symm

/-- R31: HBUFLEN reads the low six bits of `buflen`. -/
theorem hbuflenWord_eq (s : State) : hbuflenWord s = BitVec.ofNat 32 (s.sha.buflen % 64) := by
  rw [hbuflenWord, append_eq_ofNat, BitVec.toNat_ofNat, BitVec.toNat_ofNat, Nat.zero_mod, Nat.zero_mul, Nat.zero_add]

/-- R30: HCNT_LO and HCNT_HI as numbers. -/
theorem hcntLo_eq (n : BitVec 64) : n.extractLsb' 0 32 = BitVec.ofNat 32 (n.toNat % 2 ^ 32) := by
  rw [extractLsb'_eq_ofNat, Nat.pow_zero, Nat.div_one]

theorem hcntHi_eq (n : BitVec 64) : n.extractLsb' 32 32 = BitVec.ofNat 32 (n.toNat / 2 ^ 32) := by
  have hn := n.isLt
  rw [extractLsb'_eq_ofNat, Nat.mod_eq_of_lt (by omega)]

/-- R10: a big-endian word as a number. -/
theorem be32_eq (b0 b1 b2 b3 : Byte) :
    be32 b0 b1 b2 b3 =
      BitVec.ofNat 32 (b0.toNat * 2 ^ 24 + b1.toNat * 2 ^ 16 + b2.toNat * 2 ^ 8 + b3.toNat) := by
  apply BitVec.eq_of_toNat_eq
  have h0 := b0.isLt
  have h1 := b1.isLt
  have h2 := b2.isLt
  have h3 := b3.isLt
  simp only [be32, append_eq_ofNat, BitVec.toNat_ofNat]
  omega

/-- R12: a word of a big number, the word cut to its 32 bits. -/
theorem getWord_eq (n j : Nat) : getWord n j = BitVec.ofNat 32 (n / 2 ^ (32 * j) % 2 ^ 32) :=
  BitVec.eq_of_toNat_eq (by rw [getWord, BitVec.toNat_ofNat, BitVec.toNat_ofNat, Nat.mod_mod])

/-- R30: the counter with its low half replaced. -/
theorem hcnt_withLo (n : BitVec 64) (v : Word) :
    n.extractLsb' 32 32 ++ v = BitVec.ofNat 64 (n.toNat / 2 ^ 32 * 2 ^ 32 + v.toNat) := by
  have hn := n.isLt
  rw [append_eq_ofNat, hcntHi_eq, BitVec.toNat_ofNat, Nat.mod_eq_of_lt (by omega)]

/-- R30: the counter with its high half replaced. -/
theorem hcnt_withHi (n : BitVec 64) (v : Word) :
    v ++ n.extractLsb' 0 32 = BitVec.ofNat 64 (v.toNat * 2 ^ 32 + n.toNat % 2 ^ 32) := by
  rw [append_eq_ofNat, hcntLo_eq, BitVec.toNat_ofNat, Nat.mod_mod]

/-- R33: writing BLKk replaces the four bytes of the buffer that are word k, most significant first. -/
theorem getElem_writeBlk (k : Fin 16) (v : Word) (buf : Vector Byte 64) (x : Nat) (hx : x < 64) :
    (writeBlk k v buf)[x] =
      if x / 4 = k.val then BitVec.ofNat 8 (v.toNat / 2 ^ (24 - 8 * (x % 4)) % 2 ^ 8) else buf[x] := by
  simp only [writeBlk, Vector.getElem_set, extractLsb'_eq_ofNat]
  by_cases h : x / 4 = k.val
  · obtain hr | hr | hr | hr : x % 4 = 0 ∨ x % 4 = 1 ∨ x % 4 = 2 ∨ x % 4 = 3 := by omega
    · rw [if_neg (by omega), if_neg (by omega), if_neg (by omega), if_pos (by omega), if_pos h, hr]
    · rw [if_neg (by omega), if_neg (by omega), if_pos (by omega), if_pos h, hr]
    · rw [if_neg (by omega), if_pos (by omega), if_pos h, hr]
    · rw [if_pos (by omega), if_pos h, hr]
  · rw [if_neg (by omega), if_neg (by omega), if_neg (by omega), if_neg (by omega), if_neg h]

/-- R33: writing BLKk twice. -/
theorem writeBlk_writeBlk (k : Fin 16) (v : Word) (buf : Vector Byte 64) :
    writeBlk k v (writeBlk k v buf) = writeBlk k v buf := by
  refine Vector.ext fun x hx => ?_
  rw [getElem_writeBlk, getElem_writeBlk]
  split_ifs <;> rfl

/-- R70: replacing a word of a big number twice. Every word agrees, and both numbers have a bound in words. -/
theorem setWord_setWord (n j : Nat) (v : Word) : setWord (setWord n j v) j v = setWord n j v := by
  have hn : n < 2 ^ (32 * (n + j + 1)) :=
    lt_of_lt_of_le Nat.lt_two_pow_self (Nat.pow_le_pow_right Nat.two_pos (by omega))
  have h1 := setWord_lt n j (n + j + 1) v (by omega) hn
  have h2 := setWord_lt _ j (n + j + 1) v (by omega) h1
  refine eq_of_words (n + j + 1) _ _ h2 h1 fun x _ => ?_
  rw [setWord_word, setWord_word]
  split_ifs <;> rfl

end Sys2Proof.Proofs

/-! ### Reads of the register window -/

namespace Sys2Proof.Proofs

open Sys2Proof.Machine Sys2Proof.Safety Sys2Proof.Laws

/-- R22 to R35: no register shows the turns to come. -/
theorem regValue_turns (r : RegName) (s : State) (ts : List Turn) :
    regValue r { s with turns := ts } = regValue r s := by
  cases r <;> rfl

/-- R66: a read whose value is specified. -/
theorem readReg_value {r : RegName} {s : State} (h : (s.busy && unspecWhenBusy r) = false) :
    readReg r s = (regValue r s, s) :=
  if_neg (Bool.eq_false_iff.mp h)

section

variable {s : State} {ts : List Turn} {tr : Transfer} {r : RegName}

/-- R66: an aligned read at the offset of a register with a specified value answers that value, without an effect. -/
theorem step_read_value (ht : s.turns = .host tr :: ts) (hw : tr.write = false) (ha : tr.addr.toNat % 4 = 0)
    (hr : IsAt s.cfg tr.addr.toNat r) (hu : (s.busy && unspecWhenBusy r) = false) :
    step s = .next { s with turns := ts, reply := some (.read (regValue r s) false) } := by
  rw [step_read ht hw ha, regAt_of_isAt _ _ ha r hr, readReg_value (s := { s with turns := ts }) hu, regValue_turns]

/-- R66: the same read of a register that is not reserved, its value written as `v`. -/
theorem step_read_register (ht : s.turns = .host tr :: ts) (hw : tr.write = false)
    (hu : (s.busy && unspecWhenBusy r) = false) (hne : r ≠ .reserved) (hr : IsAt s.cfg tr.addr.toNat r) {v : Word}
    (hv : regValue r s = v) :
    step s = .next { s with turns := ts, reply := some (.read v false) } :=
  hv ▸ step_read_value ht hw (isAt_aligned hne hr) hr hu

end

/-- Settles O28: each offset is its register's, whose value is specified at all times. -/
theorem controlReads : Obligations.ControlReads := by
  intro s ts tr ht hw
  have hread : ∀ r v, unspecWhenBusy r = false → r ≠ .reserved → IsAt s.cfg tr.addr.toNat r → regValue r s = v →
      step s = .next { s with turns := ts, reply := some (.read v false) } := fun r v hu hne hr hv =>
    step_read_register ht hw (by rw [hu, Bool.and_false]) hne hr hv
  refine ⟨fun h => ?_, fun h => ?_, fun h => ?_, fun h => ?_, fun h => ?_, fun h => ?_, ?_, fun ha hr => ?_⟩
  · exact hread .id _ rfl nofun (congrArg BitVec.toNat h) rfl
  · exact hread .param _ rfl nofun (congrArg BitVec.toNat h) (paramWord_eq s.cfg)
  · exact hread .ctrl _ rfl nofun (congrArg BitVec.toNat h) (ctrlWord_eq s)
  · exact hread .status _ rfl nofun (congrArg BitVec.toNat h) (statusWord_eq s)
  · exact hread .errcode _ rfl nofun (congrArg BitVec.toNat h) (errcodeWord_eq s)
  · exact hread .lastcmd _ rfl nofun (congrArg BitVec.toNat h) rfl
  · rintro (h | h | h)
    · exact hread .cmd _ rfl nofun (congrArg BitVec.toNat h) rfl
    · exact hread .hdin32 _ rfl nofun (congrArg BitVec.toNat h) rfl
    · exact hread .hdin8 _ rfl nofun (congrArg BitVec.toNat h) rfl
  · have hat : IsAt s.cfg tr.addr.toNat .reserved := hr.imp_left (congrArg BitVec.toNat)
    exact step_read_value ht hw ha hat (Bool.and_false _)

/-- Settles O29: each offset is its register's, and an idle core answers the value of any register. -/
theorem dataReadsWhileIdle : Obligations.DataReadsWhileIdle := by
  intro s ts tr ht hw hb
  have hread : ∀ r v, r ≠ .reserved → IsAt s.cfg tr.addr.toNat r → regValue r s = v →
      step s = .next { s with turns := ts, reply := some (.read v false) } := fun r v hne hr hv =>
    step_read_register ht hw (by rw [hb, Bool.false_and]) hne hr hv
  refine ⟨fun k h => ?_, fun h => ?_, fun h => ?_, fun h => ?_, fun k h => ?_, fun i j hj h => ?_⟩
  · exact hread (.h k) _ nofun h rfl
  · exact hread .hcntLo _ nofun (congrArg BitVec.toNat h) (hcntLo_eq s.sha.hcnt)
  · exact hread .hcntHi _ nofun (congrArg BitVec.toNat h) (hcntHi_eq s.sha.hcnt)
  · exact hread .hbuflen _ nofun (congrArg BitVec.toNat h) (hbuflenWord_eq s)
  · exact hread (.blk k) _ nofun h (be32_eq _ _ _ _)
  · exact hread (.bw i j) _ nofun ⟨hj, h⟩ (getWord_eq s.b[i] j)

end Sys2Proof.Proofs

/-! ### Writes of the register window -/

namespace Sys2Proof.Proofs

open Sys2Proof.Machine Sys2Proof.Safety Sys2Proof.Laws

/-- R67: a data write to an idle core. -/
theorem writeData_idle {f : State → State} {s : State} (hb : s.busy = false) : writeData f s = f s :=
  if_neg (Bool.eq_false_iff.mp hb)

/-- R67: a data write to a busy core is dropped. -/
theorem writeData_busy {f : State → State} {s : State} (hb : s.busy = true) : writeData f s = raiseError .busy s :=
  if_pos hb

/-- R24: a CTRL write without SRST. -/
theorem writeCtrl_noReset {v : Word} (s : State) (hv : v.getLsbD 31 = false) :
    writeCtrl v s = { s with irqEn := v.getLsbD 0 } :=
  if_neg (Bool.eq_false_iff.mp hv)

/-- R25: a STATUS write, field by field. -/
theorem writeStatus_eq (v : Word) (s : State) :
    writeStatus v s =
      { s with
        done := s.done && !v.getLsbD 1
        err := s.err && !v.getLsbD 2
        errcode := if v.getLsbD 2 then 0#8 else s.errcode } := by
  rw [writeStatus]
  cases v.getLsbD 1 <;> cases v.getLsbD 2 <;> simp [clearError]

/-- R67, R112: while busy a write to CMD or to a writable data register is dropped with BUSY. -/
theorem writeReg_dropped {c : Config} {n : Nat} {r : RegName} (h : IsAt c n r)
    (hn : n = 0x014 ∨ (0x020 ≤ n ∧ n < 0x03C) ∨ (0x080 ≤ n ∧ n < 0x0C0) ∨ (0x1000 ≤ n ∧ n < 0x1000 + 16 * c.stride))
    (v : Word) {s : State} (hb : s.busy = true) : writeReg r v s = raiseError .busy s := by
  cases r with
  | cmd => exact if_pos hb
  | h _ | hcntLo | hcntHi | blk _ | bw _ _ => rw [writeReg, writeData_busy hb]
  | id | param | ctrl | status | errcode | lastcmd | hbuflen | hdin32 | hdin8 | reserved =>
    simp only [IsAt] at h
    omega

/-- R67: while busy, a register write that is no soft reset reaches IRQ_EN, DONE and the error record alone. -/
theorem writeReg_busy {s : State} (hb : s.busy = true) (r : RegName) (v : Word) (h1 : r ≠ .hdin32) (h2 : r ≠ .hdin8)
    (hsrst : r = .ctrl → v.getLsbD 31 = false) :
    ∃ ie dn er ec, writeReg r v s = { s with irqEn := ie, done := dn, err := er, errcode := ec } := by
  rcases writeReg_cases r v s h1 h2 with ⟨hr, e⟩ | ⟨_, e⟩ | ⟨_, e⟩ | ⟨f, _, e⟩ | ⟨i, j, _, e⟩ | e <;> rw [e]
  · exact ⟨_, _, _, _, writeCtrl_noReset s (hsrst hr)⟩
  · exact ⟨_, _, _, _, writeStatus_eq v s⟩
  · exact ⟨_, _, _, _, if_pos hb⟩
  · exact ⟨_, _, _, _, writeData_busy hb⟩
  · exact ⟨_, _, _, _, writeData_busy hb⟩
  · exact ⟨_, _, _, _, rfl⟩

/-- Settles O18, by what a HOST turn can do: an answer, a register write (`writeReg_busy`), or an append, which a busy
core drops. -/
theorem busyTransferKeepsOperation : Obligations.BusyTransferKeepsOperation := by
  intro s t tr ts hb ht he hsrst
  rw [step_host ht] at he
  rcases hostTurn_next_cases he with ⟨r, n, rfl⟩ | ⟨a, v, rfl, ha, h1, h2, rfl⟩ | ⟨bytes, hl, rfl⟩
  · exact ⟨rfl, hb, rfl, rfl, rfl⟩
  · have hctrl : regAt s.cfg a = .ctrl → v.getLsbD 31 = false := fun hr =>
      Bool.eq_false_iff.mpr fun h31 => hsrst ⟨rfl, rfl, BitVec.eq_of_toNat_eq (isAt_of_regAt ha hr), h31⟩
    obtain ⟨ie, dn, er, ec, e⟩ := writeReg_busy (s := { s with turns := ts }) hb _ v h1 h2 hctrl
    rw [e]
    exact ⟨rfl, hb, rfl, rfl, rfl⟩
  · rcases append_effect bytes { s with turns := ts, reply := some (.write false) } hl with ⟨c, _, e⟩ | ⟨hidle, _⟩
    · rw [e]
      exact ⟨rfl, hb, rfl, rfl, rfl⟩
    · exact absurd hb (Bool.eq_false_iff.mp hidle)

section

variable {s : State} {ts : List Turn} {a : Addr} {v : Word} {r : RegName}

/-- R67: an aligned full write at the offset of a register that is no append port writes that register. -/
theorem step_write_at (ht : s.turns = .host (fullWrite a v) :: ts) (ha : a.toNat % 4 = 0) (hr : IsAt s.cfg a.toNat r)
    (h1 : r ≠ .hdin32) (h2 : r ≠ .hdin8) :
    step s = .next { writeReg r v { s with turns := ts } with reply := some (.write false) } := by
  have hport : ∀ p, r ≠ p → ¬ IsAt s.cfg a.toNat p := fun p hp hat => hp (isAt_unique _ _ _ _ hr hat)
  have h32 : a ≠ addrHdin32 := fun e => hport .hdin32 h1 (congrArg BitVec.toNat e)
  have h8 : a ≠ addrHdin8 := fun e => hport .hdin8 h2 (congrArg BitVec.toNat e)
  rw [step_write ht ha h32 h8, regAt_of_isAt _ _ ha r hr]

/-- R67: the same write to a register that is not reserved, whose offset is aligned by the map. -/
theorem step_write_register (ht : s.turns = .host (fullWrite a v) :: ts) (h1 : r ≠ .hdin32) (h2 : r ≠ .hdin8)
    (hne : r ≠ .reserved) (hr : IsAt s.cfg a.toNat r) :
    step s = .next { writeReg r v { s with turns := ts } with reply := some (.write false) } :=
  step_write_at ht (isAt_aligned hne hr) hr h1 h2

end

/-- Settles O31: CTRL and STATUS by their field-wise equations; a read-only register keeps the state as it is. -/
theorem controlWrites : Obligations.ControlWrites := by
  intro s ts a v ht
  refine ⟨fun h hv => ?_, fun h => ?_, ?_, fun ha hr => ?_⟩
  · rw [step_write_register (r := .ctrl) ht nofun nofun nofun (congrArg BitVec.toNat h), writeReg,
      writeCtrl_noReset _ hv]
  · rw [step_write_register (r := .status) ht nofun nofun nofun (congrArg BitVec.toNat h), writeReg, writeStatus_eq]
  · rintro (h | h | h | h | h)
    · exact step_write_register (r := .id) ht nofun nofun nofun (congrArg BitVec.toNat h)
    · exact step_write_register (r := .param) ht nofun nofun nofun (congrArg BitVec.toNat h)
    · exact step_write_register (r := .errcode) ht nofun nofun nofun (congrArg BitVec.toNat h)
    · exact step_write_register (r := .lastcmd) ht nofun nofun nofun (congrArg BitVec.toNat h)
    · exact step_write_register (r := .hbuflen) ht nofun nofun nofun (congrArg BitVec.toNat h)
  · have hat : IsAt s.cfg a.toNat .reserved := hr.imp_left (congrArg BitVec.toNat)
    exact step_write_at ht ha hat nofun nofun

/-- Settles O32: while idle each write is its register's update; while busy it is dropped (`writeReg_dropped`). -/
theorem dataWrites : Obligations.DataWrites := by
  intro s ts a v ht
  refine ⟨fun hb => ?_, fun hb ha hn => ?_⟩
  · have hidle : ({ s with turns := ts } : State).busy = false := hb
    refine ⟨fun k h => ?_, fun h => ?_, fun h => ?_, fun k h => ?_, fun i j hj h => ?_⟩
    · rw [step_write_register (r := .h k) ht nofun nofun nofun h, writeReg, writeData_idle hidle]
    · rw [← hcnt_withLo, step_write_register (r := .hcntLo) ht nofun nofun nofun (congrArg BitVec.toNat h), writeReg,
        writeData_idle hidle]
    · rw [← hcnt_withHi, step_write_register (r := .hcntHi) ht nofun nofun nofun (congrArg BitVec.toNat h), writeReg,
        writeData_idle hidle]
    · refine ⟨writeBlk k v s.sha.buf, fun x => getElem_writeBlk k v s.sha.buf x x.isLt, ?_⟩
      rw [step_write_register (r := .blk k) ht nofun nofun nofun h, writeReg, writeData_idle hidle]
    · refine ⟨setWord s.b[i] j v, setWord_word s.b[i] j v, ?_⟩
      rw [step_write_register (r := .bw i j) ht nofun nofun nofun ⟨hj, h⟩, writeReg, writeData_idle hidle, writeBig,
        readBig]
  · have hat := regAt_isAt s.cfg a ha
    have hport : ∀ p, IsAt s.cfg a.toNat p → p ≠ .hdin32 ∧ p ≠ .hdin8 := by
      intro p hp
      constructor <;> rintro rfl <;> simp only [IsAt] at hp <;> omega
    rw [step_write_at ht ha hat (hport _ hat).1 (hport _ hat).2,
      writeReg_dropped hat hn v (s := { s with turns := ts }) hb]
    rfl

/-! #### Writing twice -/

/-- R204: recording an error twice is recording it once. The first code is kept, and it is not 0. -/
theorem raiseError_raiseError (c : ErrorCode) (s : State) : raiseError c (raiseError c s) = raiseError c s := by
  have hcode : (raiseError c s).errcode ≠ 0#8 := by
    rw [raiseError_errcode]
    split
    · cases c <;> decide
    · assumption
  rw [raiseError, if_neg hcode]
  rfl

/-- R68: a data write is idempotent when its update is and does not touch BUSY. -/
theorem writeData_writeData {f : State → State} {s : State} (hf : (f s).busy = s.busy) (hff : f (f s) = f s) :
    writeData f (writeData f s) = writeData f s := by
  cases hb : s.busy with
  | true => rw [writeData_busy hb, writeData_busy (s := raiseError .busy s) hb, raiseError_raiseError]
  | false => rw [writeData_idle hb, writeData_idle (hf.trans hb), hff]

/-- R70: writing a word of a big register twice. -/
theorem writeBig_setWord_twice (i : BReg) (j : Nat) (v : Word) (s : State) :
    writeBig i (setWord (readBig (writeBig i (setWord (readBig s i) j v) s) i) j v)
      (writeBig i (setWord (readBig s i) j v) s) = writeBig i (setWord (readBig s i) j v) s := by
  have hread : readBig (writeBig i (setWord (readBig s i) j v) s) i = setWord (readBig s i) j v :=
    Vector.getElem_set_self i.isLt
  rw [hread, setWord_setWord]
  simp only [writeBig, Vector.set_set]

/-- Settles O35: each register's update is idempotent. -/
theorem registerWritesAreIdempotent : Obligations.RegisterWritesAreIdempotent := by
  rintro r v s (⟨k, rfl⟩ | rfl | rfl | ⟨k, rfl⟩ | ⟨i, j, rfl⟩) <;> simp only [writeReg]
  · exact writeData_writeData rfl (by simp only [Vector.set_set])
  · exact writeData_writeData rfl (by simp only [BitVec.extractLsb'_append_eq_left])
  · exact writeData_writeData rfl (by simp only [BitVec.extractLsb'_append_eq_right])
  · exact writeData_writeData rfl (by simp only [writeBlk_writeBlk])
  · exact writeData_writeData rfl (writeBig_setWord_twice i j v s)

end Sys2Proof.Proofs

/-! ### Command words and their fields (R90 to R97) -/

namespace Sys2Proof.Proofs

open Sys2Proof.Machine Sys2Proof.Laws

/-- Settles O2, one lemma of `RoundTrip` for each row. -/
theorem decodeEncodeAgree : Obligations.DecodeEncodeAgree := by
  intro i h
  cases i with
  | shaInit => exact RoundTrip.shaInit h
  | shaCompress => exact RoundTrip.shaCompress h
  | shaFinal => exact RoundTrip.shaFinal h
  | modexp rd x y z chk => exact RoundTrip.modexp rd x y z chk h
  | modinv rd x y => exact RoundTrip.modinv rd x y h
  | gcd rd x y => exact RoundTrip.gcd rd x y h
  | crtDec rd x k chk => exact RoundTrip.crtDec rd x k chk h
  | hdin32 v => exact RoundTrip.hdin32 v h
  | hdin8 v => exact RoundTrip.hdin8 v h

/-- R90: a word is an encoded command word exactly when its fields are the encoded ones and its reserved bits are 0. -/
theorem commandWord_eq_iff (op : BitVec 8) (rd r1 r2 r3 : BReg) (chk : Bool) (w : Word) :
    commandWord op rd r1 r2 r3 chk = w ↔
      rsvOf w = 0#7 ∧ opcodeOf w = op ∧ rdOf w = rd ∧ rs1Of w = r1 ∧ rs2Of w = r2 ∧ rs3Of w = r3 ∧ chkOf w = chk := by
  constructor
  · rintro rfl
    simp
  · rintro ⟨hrsv, rfl, rfl, rfl, rfl, rfl, rfl⟩
    exact commandWord_fields w hrsv

/-- R93: a format C word without operands, by its two checked parts. -/
theorem plainWord_of_fields {w : Word} {op : BitVec 8} (hrsv : rsvOf w = 0#7) (hop : opcodeOf w = op)
    (hz : w.extractLsb' 8 17 = 0#17) : commandWord op 0 0 0 0 false = w :=
  (commandWord_eq_iff _ _ _ _ _ _ w).mpr ⟨hrsv, hop, (operandBits_eq_zero w).mp hz⟩

/-- R93: a format C word with three operands (MODINV, GCD). -/
theorem threeOperandWord_of_fields {w : Word} {op : BitVec 8} (hrsv : rsvOf w = 0#7) (hop : opcodeOf w = op)
    (hz : w.extractLsb' 20 5 = 0#5) : commandWord op (rdOf w) (rs1Of w) (rs2Of w) 0 false = w :=
  (commandWord_eq_iff _ _ _ _ _ _ w).mpr ⟨hrsv, hop, rfl, rfl, rfl, (highBits_eq_zero w).mp hz⟩

/-- R93: a row with "must be 0" bits, when the word is that row's encoding as soon as those bits are 0. -/
theorem encode_of_whenZero {w c : Word} {z : Bool} {i j : Instr} (h : whenZero z j = .ok i) (hwf : WellFormed j)
    (he : encode j = .command c) (hc : z = true → c = w) : WellFormed i ∧ encode i = .command w := by
  obtain ⟨hz, rfl⟩ := whenZero_eq_ok.mp h
  exact ⟨hwf, by rw [he, hc hz]⟩

/-- R93, R94: along the decoder's branches, a word that is read as an instruction is that instruction's encoding. -/
theorem encode_of_decodeCommand {w : Word} {i : Instr} (h : decodeCommand w = .ok i) :
    WellFormed i ∧ encode i = .command w := by
  unfold decodeCommand at h
  split at h
  · cases h
  next hrsv =>
  replace hrsv := not_not.mp hrsv
  split at h
  · next hop => exact encode_of_whenZero h rfl rfl fun hz => plainWord_of_fields hrsv hop (eq_of_beq hz)
  split at h
  · next hop => exact encode_of_whenZero h rfl rfl fun hz => plainWord_of_fields hrsv hop (eq_of_beq hz)
  split at h
  · next hop => exact encode_of_whenZero h rfl rfl fun hz => plainWord_of_fields hrsv hop (eq_of_beq hz)
  split at h
  · next hop =>
    cases h
    exact ⟨rfl, congrArg Code.command (hop ▸ commandWord_fields w hrsv)⟩
  split at h
  · next hop => exact encode_of_whenZero h rfl rfl fun hz => threeOperandWord_of_fields hrsv hop (eq_of_beq hz)
  split at h
  · next hop => exact encode_of_whenZero h rfl rfl fun hz => threeOperandWord_of_fields hrsv hop (eq_of_beq hz)
  split at h
  · next hop =>
    split at h
    · cases h
    next hz =>
    split at h
    · cases h
    next hbank =>
    cases h
    have h3 : rs3Of w = 0 := congrArg BitVec.toFin (not_not.mp hz)
    refine ⟨decide_eq_true (not_lt.mp hbank), congrArg Code.command ?_⟩
    exact (commandWord_eq_iff _ _ _ _ _ _ w).mpr ⟨hrsv, hop, rfl, rfl, rfl, h3, rfl⟩
  · cases h

/-- R93, R97: the decoder and the encoder say the same of a command word. -/
theorem decodeCommand_eq_ok_iff {w : Word} {i : Instr} :
    decodeCommand w = .ok i ↔ WellFormed i ∧ encode i = .command w := by
  refine ⟨encode_of_decodeCommand, fun ⟨hwf, he⟩ => ?_⟩
  have h := decodeEncodeAgree i hwf
  rwa [he] at h

/-- R96: the decoder reads a bus write by its address, as one of the two append ports or as no operation. -/
theorem decode_busWrite_eq_ok_iff {a : Addr} {v : Word} {i : Instr} :
    decode (.busWrite a v) = .ok i ↔ (a = addrHdin32 ∧ i = .hdin32 v) ∨ (a = addrHdin8 ∧ i = .hdin8 v) := by
  have hne : addrHdin8 ≠ addrHdin32 := by decide
  by_cases h32 : a = addrHdin32
  · subst h32
    simp [decode, hne.symm, eq_comm]
  · by_cases h8 : a = addrHdin8
    · subst h8
      simp [decode, hne, eq_comm]
    · simp [decode, h32, h8]

/-- Settles O3: command words by `encode_of_decodeCommand`, bus writes by their two addresses. -/
theorem encodeDecodeAgree : Obligations.EncodeDecodeAgree := by
  intro c i h
  cases c with
  | command w => exact encode_of_decodeCommand h
  | busWrite a v =>
    obtain ⟨rfl, rfl⟩ | ⟨rfl, rfl⟩ := decode_busWrite_eq_ok_iff.mp h
    · exact ⟨rfl, rfl⟩
    · exact ⟨rfl, rfl⟩

/-! #### The masks of R93 -/

/-- The mask of `n` bits from bit `lo` on. -/
def fieldMask (lo n : Nat) : Word := (BitVec.allOnes n).setWidth 32 <<< lo

theorem getLsbD_fieldMask {lo n : Nat} (h : lo + n ≤ 32) (k : Nat) :
    (fieldMask lo n).getLsbD k = decide (lo ≤ k ∧ k < lo + n) := by
  simp only [fieldMask, BitVec.getLsbD_shiftLeft, BitVec.getLsbD_setWidth, BitVec.getLsbD_allOnes]
  grind

/-- A field's mask finds 0 exactly when the field is 0. -/
theorem and_fieldMask_eq_zero (w : Word) (lo n : Nat) (h : lo + n ≤ 32) :
    w &&& fieldMask lo n = 0#32 ↔ w.extractLsb' lo n = 0#n := by
  simp only [BitVec.eq_of_getLsbD_eq_iff, BitVec.getLsbD_and, BitVec.getLsbD_extractLsb', BitVec.getLsbD_zero,
    getLsbD_fieldMask h]
  constructor
  · intro hw k hk
    have hone := hw (lo + k) (by omega)
    rw [decide_eq_true (by omega), Bool.and_true] at hone
    rw [hone, Bool.and_false]
  · intro hw k _
    by_cases hin : lo ≤ k ∧ k < lo + n
    · have hone := hw (k - lo) (by omega)
      rw [decide_eq_true (by omega), Bool.true_and, Nat.add_sub_cancel' hin.1] at hone
      rw [hone, Bool.false_and]
    · rw [decide_eq_false hin, Bool.and_false]

/-- R93: a mask of the reserved bits, the opcode and one more field, and a match that has that field 0. -/
theorem maskMatch_field (w m : Word) (op : BitVec 8) (lo n : Nat) (hm : m = 0xFE0000FF#32 ||| fieldMask lo n)
    (hx : fieldMask lo n &&& 0xFE0000FF#32 = 0#32) (hn : lo + n ≤ 32) :
    w &&& m = op.setWidth 32 ↔ (rsvOf w = 0#7 ∧ opcodeOf w = op) ∧ w.extractLsb' lo n = 0#n := by
  rw [maskMatch_wider w m _ op hm hx, maskMatch, and_fieldMask_eq_zero w lo n hn]

section

variable (w : Word) {op : BitVec 8} {i : Instr}

/-- R93: a row without operands, whose mask is the whole word. -/
theorem decodes_plain_iff (hwf : WellFormed i) (he : encode i = .command (commandWord op 0 0 0 0 false)) :
    decodeCommand w = .ok i ↔ w &&& 0xFFFFFFFF#32 = commandWord op 0 0 0 0 false := by
  have hall : w &&& 0xFFFFFFFF#32 = w := BitVec.and_allOnes
  rw [decodeCommand_eq_ok_iff, he, hall, Code.command.injEq, eq_comm (a := w)]
  exact and_iff_right hwf

/-- R93: a row with three operands. -/
theorem decodes_threeOperand_iff (hwf : WellFormed i)
    (he : encode i = .command (commandWord op (rdOf w) (rs1Of w) (rs2Of w) 0 false)) :
    decodeCommand w = .ok i ↔ w &&& 0xFFF000FF#32 = op.setWidth 32 := by
  rw [decodeCommand_eq_ok_iff, he, Code.command.injEq, commandWord_eq_iff,
    maskMatch_field w _ op 20 5 (by decide) (by decide) (by decide), highBits_eq_zero]
  tauto

end

/-- R93: MODEXP's row. -/
theorem decodes_modexp_iff (w : Word) :
    decodeCommand w = .ok (.modexp (rdOf w) (rs1Of w) (rs2Of w) (rs3Of w) (chkOf w)) ↔
      w &&& 0xFE0000FF#32 = opModexp.setWidth 32 := by
  rw [decodeCommand_eq_ok_iff, encode, Code.command.injEq, commandWord_eq_iff, maskMatch]
  simp [WellFormed, Instr.wf]

/-- R93: CRT_DEC's row, with its limit on the bank. -/
theorem decodes_crtDec_iff (w : Word) :
    decodeCommand w = .ok (.crtDec (rdOf w) (rs1Of w) (rs2Of w) (chkOf w)) ↔
      w &&& 0xFEF000FF#32 = opCrtDec.setWidth 32 ∧ (rs2Of w).val ≤ maxBank := by
  have h3 : rs3Of w = 0 ↔ w.extractLsb' 20 4 = 0#4 :=
    ⟨fun h => congrArg BitVec.ofFin h, fun h => congrArg BitVec.toFin h⟩
  rw [decodeCommand_eq_ok_iff, encode, Code.command.injEq, commandWord_eq_iff,
    maskMatch_field w _ opCrtDec 20 4 (by decide) (by decide) (by decide), h3, WellFormed, Instr.wf, decide_eq_true_iff]
  tauto

/-- Settles O4, row by row. -/
theorem commandRowsMatchMasks : Obligations.CommandRowsMatchMasks := fun w =>
  ⟨decodes_plain_iff (op := opShaInit) w rfl rfl, decodes_plain_iff (op := opShaCompress) w rfl rfl,
    decodes_plain_iff (op := opShaFinal) w rfl rfl, decodes_modexp_iff w,
    decodes_threeOperand_iff (op := opModinv) w rfl rfl, decodes_threeOperand_iff (op := opGcd) w rfl rfl,
    decodes_crtDec_iff w⟩

/-- R93, R94: a word that is read as an instruction matches one of the seven rows. -/
theorem matches_of_decodeCommand {w : Word} {i : Instr} (h : decodeCommand w = .ok i) :
    w &&& 0xFFFFFFFF#32 = 0x00000010#32 ∨ w &&& 0xFFFFFFFF#32 = 0x00000011#32 ∨
      w &&& 0xFFFFFFFF#32 = 0x00000012#32 ∨ w &&& 0xFE0000FF#32 = 0x00000020#32 ∨
      w &&& 0xFFF000FF#32 = 0x00000021#32 ∨ w &&& 0xFFF000FF#32 = 0x00000022#32 ∨
      (w &&& 0xFEF000FF#32 = 0x00000030#32 ∧ (w.extractLsb' 16 4).toNat ≤ 11) := by
  obtain ⟨hinit, hcompress, hfinal, hmodexp, hmodinv, hgcd, hcrt⟩ := commandRowsMatchMasks w
  have hfields := (encode_of_decodeCommand h).2
  cases i with
  | shaInit => exact .inl (hinit.mp h)
  | shaCompress => exact .inr (.inl (hcompress.mp h))
  | shaFinal => exact .inr (.inr (.inl (hfinal.mp h)))
  | modexp rd x y z chk =>
    obtain ⟨_, _, rfl, rfl, rfl, rfl, rfl⟩ := (commandWord_eq_iff _ _ _ _ _ _ w).mp (Code.command.inj hfields)
    exact .inr (.inr (.inr (.inl (hmodexp.mp h))))
  | modinv rd x y =>
    obtain ⟨_, _, rfl, rfl, rfl, _, _⟩ := (commandWord_eq_iff _ _ _ _ _ _ w).mp (Code.command.inj hfields)
    exact .inr (.inr (.inr (.inr (.inl (hmodinv.mp h)))))
  | gcd rd x y =>
    obtain ⟨_, _, rfl, rfl, rfl, _, _⟩ := (commandWord_eq_iff _ _ _ _ _ _ w).mp (Code.command.inj hfields)
    exact .inr (.inr (.inr (.inr (.inr (.inl (hgcd.mp h))))))
  | crtDec rd x k chk =>
    obtain ⟨_, _, rfl, rfl, rfl, _, rfl⟩ := (commandWord_eq_iff _ _ _ _ _ _ w).mp (Code.command.inj hfields)
    exact .inr (.inr (.inr (.inr (.inr (.inr (hcrt.mp h))))))
  | hdin32 v => cases hfields
  | hdin8 v => cases hfields

end Sys2Proof.Proofs

/-! ### Illegal words, and operations selected by address (R94, R96) -/

namespace Sys2Proof.Proofs

open Sys2Proof.Machine Sys2Proof.Safety Sys2Proof.Laws

/-- R112: an accepted command is pending, with its operands latched. -/
theorem submitCommand_idle {v : Word} {s : State} (hb : s.busy = false) : submitCommand v s = acceptCommand v s :=
  if_neg (Bool.eq_false_iff.mp hb)

/-- R110: with nothing pending the ENGINE's turn passes. -/
theorem engineTurn_none {s : State} (hp : s.pend = .none) : engineTurn s = .next s := by
  rw [engineTurn, hp]

/-- R113, R139: the completion of a pending FILL. -/
theorem engineTurn_fill {s : State} {rest : List Byte} (hp : s.pend = .fill rest) :
    engineTurn s = .next (completeFill rest s) := by
  rw [engineTurn, hp]

/-- R94, R113: the completion of a pending word that is no command. -/
theorem engineTurn_illegal {s : State} {w : Word} {latched : Latched} {r : Reject} (hp : s.pend = .command w latched)
    (hd : decodeCommand w = .error r) : engineTurn s = .next (finishCommand (raiseError .illegalCmd s)) := by
  rw [engineTurn, hp]
  simp only [decode, hd]
  rfl

/-- R113: the completion of a pending command. -/
theorem engineTurn_command {s : State} {w : Word} {latched : Latched} {i : Instr} (hp : s.pend = .command w latched)
    (hd : decodeCommand w = .ok i) : engineTurn s = exec i s := by
  rw [engineTurn, hp]
  simp only [decode, hd]

/-- Settles O5: a word that decoded would match a row (`matches_of_decodeCommand`). -/
theorem illegalWordsFail : Obligations.IllegalWordsFail := by
  intro w hno
  have hrej : ∃ r, decodeCommand w = .error r := by
    cases hd : decodeCommand w with
    | ok i => exact absurd (matches_of_decodeCommand hd) hno
    | error r => exact ⟨r, rfl⟩
  refine ⟨hrej, fun s ts ht hb => ?_, fun s ts latched ht hp => ?_⟩
  · rw [step_write_register (r := .cmd) ht nofun nofun nofun rfl, writeReg,
      submitCommand_idle (s := { s with turns := ts }) hb]
    exact ⟨_, rfl, rfl, rfl, _, rfl⟩
  · obtain ⟨r, hd⟩ := hrej
    rw [step_engine ht, engineTurn_illegal (s := { s with turns := ts }) hp hd]
    rfl

/-- Settles O6: the decoder by its two addresses, the steps by what a write to an append port and to CTRL does. -/
theorem operationsByAddress : Obligations.OperationsByAddress := by
  refine ⟨fun a v i => ?_, fun s ts v => ⟨fun ht => ?_, fun ht => ?_, fun ht hv => ?_⟩⟩
  · have hall : a &&& 0x3FFF#14 = a := BitVec.and_allOnes
    rw [hall]
    exact decode_busWrite_eq_ok_iff
  · exact ⟨_, step_append ht rfl (decode_busWrite_eq_ok_iff.mpr (.inl ⟨rfl, rfl⟩))⟩
  · exact ⟨_, step_append ht rfl (decode_busWrite_eq_ok_iff.mpr (.inr ⟨rfl, rfl⟩))⟩
  · refine ⟨some (.write false), ?_⟩
    rw [step_write_register (r := .ctrl) ht nofun nofun nofun rfl, writeReg, writeCtrl, if_pos hv]

end Sys2Proof.Proofs

/-! ### The host's statements and pseudo-instructions (R97 to R99) -/

namespace Sys2Proof.Proofs

open Sys2Proof.Machine Sys2Proof.Safety Sys2Proof.Laws

/-! #### What no completion reads: the turns to come and the answer on the bus -/

/-- An instruction does the same whatever turns are to come and whatever the bus last answered, and keeps both. -/
theorem exec_with_bus {i : Instr} {s t : State} (h : exec i s = .next t) (ts : List Turn) (r : Option Reply) :
    exec i { s with turns := ts, reply := r } = .next { t with turns := ts, reply := r } := by
  have hown := bodyOf_congr i s s rfl rfl rfl rfl rfl
  have hother := bodyOf_congr i s { s with turns := ts, reply := r } rfl rfl rfl rfl rfl
  have hraise : orRaise (bodyOf i { s with turns := ts, reply := r }) { s with turns := ts, reply := r } =
      { orRaise (bodyOf i s) s with turns := ts, reply := r } := by
    rw [hother]
    cases hb : bodyOf i s with
    | error c => rfl
    | ok u =>
      rw [hb] at hown
      rw [Except.ok.inj hown]
      rfl
  cases hi : isAppend i with
  | false =>
    rw [exec_command i _ hi] at h ⊢
    cases h
    rw [hraise]
    rfl
  | true =>
    rw [exec_append i _ hi] at h ⊢
    cases h
    rw [hraise]

/-- No instruction takes a turn. -/
theorem exec_turns {i : Instr} {s t : State} (h : exec i s = .next t) : t.turns = s.turns := by
  have hsame : exec i s = .next { t with turns := s.turns, reply := s.reply } := exec_with_bus h s.turns s.reply
  rw [Host.Outcome.next.inj (h.symm.trans hsame)]

/-- R113: an ENGINE turn does the same whatever turns are to come and whatever the bus last answered. -/
theorem engineTurn_with_bus {s t : State} (h : engineTurn s = .next t) (ts : List Turn) (r : Option Reply) :
    engineTurn { s with turns := ts, reply := r } = .next { t with turns := ts, reply := r } := by
  rcases engineTurn_cases s with ⟨hp, e⟩ | ⟨rest, hp, e⟩ | ⟨w, latched, _, hp, hd, e⟩ | ⟨w, latched, i, hp, hd, e⟩ <;>
    rw [e] at h
  · cases h
    exact engineTurn_none hp
  · cases h
    exact engineTurn_fill hp
  · cases h
    rw [engineTurn_illegal (s := { s with turns := ts, reply := r }) hp hd]
    rfl
  · rw [engineTurn_command (s := { s with turns := ts, reply := r }) hp hd]
    exact exec_with_bus h ts r

/-- No completion changes the build parameters. -/
theorem engineTurn_cfg {s t : State} (h : engineTurn s = .next t) : t.cfg = s.cfg := by
  rcases engineTurn_cases s with ⟨_, e⟩ | ⟨_, _, e⟩ | ⟨_, _, _, _, _, e⟩ | ⟨w, latched, i, _, hd, e⟩ <;> rw [e] at h
  · cases h; rfl
  · cases h; rfl
  · cases h; rfl
  · rcases command_cases i s t (isAppend_of_decodeCommand hd) h with ⟨c, _, rfl⟩ | ⟨u, hu, rfl⟩
    · rfl
    · cases hu with
      | big rd v hd hv => rfl
      | sha u hd hu hf hn => rfl

/-! #### WAIT (R99) -/

/-- R99: one poll reads STATUS, busy or not. -/
theorem step_poll {s : State} {ts : List Turn} (ht : s.turns = rd s.cfg .status :: ts) :
    step s = .next { s with turns := ts, reply := some (.read (statusWord s) false) } :=
  step_read_register (r := .status) ht rfl (Bool.and_false _) nofun rfl rfl

/-- R99: polls change nothing but the bus's answer. -/
theorem run_polls (n k : Nat) {s : State} {ts : List Turn}
    (ht : s.turns = List.replicate n (rd s.cfg .status) ++ ts) :
    ∃ r, core.run (n + k) s = core.run k { s with turns := ts, reply := r } := by
  induction n generalizing s with
  | zero =>
    obtain rfl : s.turns = ts := ht
    exact ⟨s.reply, by rw [Nat.zero_add]⟩
  | succ n ih =>
    rw [List.replicate_succ, List.cons_append] at ht
    obtain ⟨r, hr⟩ := ih (s := { s with
      turns := List.replicate n (rd s.cfg .status) ++ ts, reply := some (.read (statusWord s) false) }) rfl
    exact ⟨r, by rw [Nat.add_right_comm, run_succ (step_poll ht), hr]⟩

/-- R99: `WAIT` lets the ENGINE complete what is pending, and its last poll reads STATUS after that. -/
theorem run_wait (polls k : Nat) {s t : State} {ts : List Turn} (ht : s.turns = wait s.cfg polls ++ ts)
    (he : engineTurn s = .next t) :
    core.run (polls + 2 + k) s = core.run k { t with turns := ts, reply := some (.read (statusWord t) false) } := by
  have hsplit : s.turns = List.replicate polls (rd s.cfg .status) ++ .engine :: rd s.cfg .status :: ts := by
    rw [ht, wait, List.append_assoc]
    rfl
  obtain ⟨r, hpolls⟩ := run_polls polls (k + 1 + 1) hsplit
  have hengine : step { s with turns := .engine :: rd s.cfg .status :: ts, reply := r } =
      .next { t with turns := rd s.cfg .status :: ts, reply := r } :=
    (step_engine rfl).trans (engineTurn_with_bus he _ r)
  have hlast := step_poll (s := { t with turns := rd s.cfg .status :: ts, reply := r }) (ts := ts)
    (by rw [engineTurn_cfg he])
  rw [show polls + 2 + k = polls + (k + 1 + 1) by omega, hpolls, run_succ hengine, run_succ hlast]
  rfl

/-- Settles O17: acceptance, then `run_wait` over the command's completion. -/
theorem issuedCommandRuns : Obligations.IssuedCommandRuns := by
  intro s i w polls ts hwf he hb ht
  have hissue : issue s.cfg i = wr s.cfg .cmd w := by rw [issue, he]
  have hd : decodeCommand w = .ok i := decodeCommand_eq_ok_iff.mpr ⟨hwf, he⟩
  rw [hissue] at ht
  have haccept : step s = .next { acceptCommand w { s with turns := ts } with
      turns := wait s.cfg polls ++ ts, reply := some (.write false) } := by
    rw [step_write_register (r := .cmd) ht nofun nofun nofun rfl, writeReg,
      submitCommand_idle (s := { s with turns := wait s.cfg polls ++ ts }) hb]
    rfl
  obtain ⟨u, hu⟩ := exec_next i (acceptCommand w { s with turns := ts })
  have hengine : engineTurn (acceptCommand w { s with turns := ts }) = .next u := (engineTurn_command rfl hd).trans hu
  have hwait := run_wait polls 0 rfl (engineTurn_with_bus hengine (wait s.cfg polls ++ ts) (some (.write false)))
  have hfinish := hu.symm.trans (exec_command i _ (isAppend_of_decodeCommand hd))
  obtain rfl : u.turns = ts := exec_turns hu
  exact ⟨u, hu, congrArg State.done (Host.Outcome.next.inj hfinish),
    congrArg State.busy (Host.Outcome.next.inj hfinish), (run_succ haccept (polls + 2)).trans hwait⟩

/-! #### LOADB (R99) -/

/-- R99: the words of `n` with the numbers `js`, written one after another into `m`. -/
def loadWords (n : BigNat) : List Nat → BigNat → BigNat
  | [], m => m
  | j :: js, m => loadWords n js (setWord m j (getWord n j))

/-- R70: the written words are those of `n`, the others stay. -/
theorem loadWords_word (n : BigNat) (js : List Nat) (m x : Nat) :
    loadWords n js m / 2 ^ (32 * x) % 2 ^ 32 =
      if x ∈ js then n / 2 ^ (32 * x) % 2 ^ 32 else m / 2 ^ (32 * x) % 2 ^ 32 := by
  induction js generalizing m with
  | nil => rfl
  | cons j js ih =>
    rw [loadWords, ih, setWord_word, getWord, BitVec.toNat_ofNat]
    by_cases hx : x ∈ js
    · rw [if_pos hx, if_pos (List.mem_cons_of_mem j hx)]
    · by_cases hj : x = j
      · rw [if_neg hx, if_pos hj, if_pos (hj ▸ List.mem_cons_self), hj]
      · rw [if_neg hx, if_neg hj, if_neg (by simp [hx, hj])]

/-- R70: words inside a bound keep it. -/
theorem loadWords_lt (n : BigNat) (js : List Nat) (m k : Nat) (hjs : ∀ j ∈ js, j < k) (hm : m < 2 ^ (32 * k)) :
    loadWords n js m < 2 ^ (32 * k) := by
  induction js generalizing m with
  | nil => exact hm
  | cons j js ih =>
    rw [List.forall_mem_cons] at hjs
    rw [loadWords]
    exact ih _ hjs.2 (setWord_lt m j k _ hjs.1 hm)

/-- R12: all the words of a number make the number. -/
theorem loadWords_range {m n k : Nat} (hm : m < 2 ^ (32 * k)) (hn : n < 2 ^ (32 * k)) :
    loadWords n (List.range k) m = n := by
  refine eq_of_words k _ _ (loadWords_lt n _ m k (fun j => List.mem_range.mp) hm) hn fun x hx => ?_
  rw [loadWords_word, if_pos (List.mem_range.mpr hx)]

/-- R67, R70: an idle core takes one word of a big register. -/
theorem step_writeWord {s : State} {ts : List Turn} {i : BReg} {j : Nat} {v : Word} (hb : s.busy = false)
    (hj : j < s.cfg.words) (ht : s.turns = wr s.cfg (.bw i j) v :: ts) :
    step s = .next { s with
      b := s.b.set i (setWord s.b[i] j v), turns := ts, reply := some (.write false) } := by
  have hat := offsetOf_isAt s.cfg (.bw i j) fun _ _ h => (RegName.bw.inj h).2 ▸ hj
  rw [step_write_register (r := .bw i j) ht nofun nofun nofun hat, writeReg,
    writeData_idle (s := { s with turns := ts }) hb]
  rfl

/-- R99: the word writes of LOADB, one after another. -/
theorem run_loadWords (n : BigNat) (i : BReg) (js : List Nat) {s : State} {ts : List Turn} (hb : s.busy = false)
    (hjs : ∀ j ∈ js, j < s.cfg.words)
    (ht : s.turns = (js.map fun j => wr s.cfg (.bw i j) (getWord n j)) ++ ts) :
    core.run js.length s = .next { s with
      b := s.b.set i (loadWords n js s.b[i]), turns := ts
      reply := if js = [] then s.reply else some (.write false) } := by
  induction js generalizing s with
  | nil =>
    obtain rfl : s.turns = ts := ht
    rw [show s.b.set i (loadWords n [] s.b[i]) = s.b from Vector.set_getElem_self i.isLt]
    rfl
  | cons j js ih =>
    rw [List.forall_mem_cons] at hjs
    obtain ⟨hj, hrest⟩ := hjs
    rw [List.map_cons, List.cons_append] at ht
    rw [List.length_cons, run_succ (step_writeWord hb hj ht)]
    refine (ih (s := { s with
      b := s.b.set i (setWord s.b[i] j (getWord n j))
      turns := (js.map fun j => wr s.cfg (.bw i j) (getWord n j)) ++ ts
      reply := some (.write false) }) hb hrest rfl).trans ?_
    simp only [Fin.getElem_fin, Vector.getElem_set_self, Vector.set_set, ite_self, loadWords,
      if_neg (List.cons_ne_nil j js)]

/-- Settles O36: the OPWW words of N make N (`loadWords_range`). -/
theorem loadbLoadsTheRegister : Obligations.LoadbLoadsTheRegister := by
  intro s i n ts hb hi hn ht
  rw [opwBits_eq_words] at hi hn
  have hpos : List.range s.cfg.words ≠ [] := by
    have := (stride_pos_le s.cfg).1
    rw [stride_eq_words] at this
    rw [Ne, List.range_eq_nil]
    omega
  have hrun := run_loadWords n i (List.range s.cfg.words) hb (fun j => List.mem_range.mp) ht
  rwa [List.length_range, loadWords_range hi hn, if_neg hpos] at hrun

end Sys2Proof.Proofs

/-! ### Appends, each completed before the next transfer, and HASHBYTES (R99, R134 to R139) -/

namespace Sys2Proof.Proofs

open Sys2Proof.Machine Sys2Proof.Safety Sys2Proof.Laws

/-! #### The SHA unit after completed appends -/

/-- R134 to R139: the SHA unit after the bytes are appended and every FILL they caused is completed. -/
def absorb (bytes : List Byte) (u : HashState) : HashState :=
  bytes.foldl (fun u b => padByte b u) { u with hcnt := u.hcnt + BitVec.ofNat 64 bytes.length }

@[simp] theorem absorb_nil (u : HashState) : absorb [] u = u := by simp [absorb]

@[simp] theorem absorb_hfin (bytes : List Byte) (u : HashState) : (absorb bytes u).hfin = u.hfin :=
  foldl_padByte_hfin bytes _

@[simp] theorem absorb_hcnt (bytes : List Byte) (u : HashState) :
    (absorb bytes u).hcnt = u.hcnt + BitVec.ofNat 64 bytes.length :=
  foldl_padByte_hcnt bytes _

/-- Appending in two parts. -/
theorem absorb_append (xs ys : List Byte) (u : HashState) : absorb (xs ++ ys) u = absorb ys (absorb xs u) := by
  have hcount : ({ absorb xs u with hcnt := (absorb xs u).hcnt + BitVec.ofNat 64 ys.length } : HashState) =
      xs.foldl (fun u b => padByte b u) { u with hcnt := u.hcnt + BitVec.ofNat 64 (xs ++ ys).length } := by
    rw [absorb_hcnt, List.length_append, BitVec.ofNat_add, ← BitVec.add_assoc, absorb, ← foldl_padByte_with_hcnt]
  rw [absorb, List.foldl_append, ← hcount, ← absorb]

/-- R136: an idle, unfinalized core with room for `n` more bytes and nothing pending. -/
structure CanAppend (s : State) (n : Nat) : Prop where
  idle : s.busy = false
  settled : s.pend = .none
  unfinalized : s.sha.hfin = false
  room : s.sha.hcnt.toNat + n ≤ lengthLimit

theorem CanAppend.mono {s : State} {m n : Nat} (h : CanAppend s n) (hm : m ≤ n) : CanAppend s m where
  idle := h.idle
  settled := h.settled
  unfinalized := h.unfinalized
  room := (Nat.add_le_add_left hm _).trans h.room

/-- After the first bytes of a message there is room for the rest of it. -/
theorem CanAppend.after_absorb {s : State} {xs : List Byte} {n : Nat} (h : CanAppend s (xs.length + n)) (ts : List Turn)
    (r : Option Reply) : CanAppend { s with sha := absorb xs s.sha, turns := ts, reply := r } n where
  idle := h.idle
  settled := h.settled
  unfinalized := (absorb_hfin xs s.sha).trans h.unfinalized
  room := by
    have hroom := h.room
    rw [lengthLimit] at hroom ⊢
    rw [absorb_hcnt, BitVec.toNat_add, BitVec.toNat_ofNat]
    omega

/-- R137: an append that leaves room in the block is complete. -/
theorem absorb_of_room {bytes : List Byte} {u u' : HashState} (hl : bytes.length ≤ 64)
    (h : appendUntilFull bytes { u with hcnt := u.hcnt + BitVec.ofNat 64 bytes.length } = (u', none)) :
    u' = absorb bytes u := by
  have hsettled := appendUntilFull_settled bytes { u with hcnt := u.hcnt + BitVec.ofNat 64 bytes.length } hl
  rwa [h] at hsettled

/-- R137, R139: an append that fills the block is complete after its FILL. -/
theorem absorb_of_full {bytes rest : List Byte} {u u' : HashState} (hl : bytes.length ≤ 64)
    (h : appendUntilFull bytes { u with hcnt := u.hcnt + BitVec.ofNat 64 bytes.length } = (u', some rest)) :
    fillUnit rest u' = absorb bytes u := by
  have hsettled := appendUntilFull_settled bytes { u with hcnt := u.hcnt + BitVec.ofNat 64 bytes.length } hl
  rwa [h] at hsettled

/-- R137 to R139: an append with room, and the ENGINE's completion of the FILL that it may have caused. -/
theorem append_completes {s : State} {bytes : List Byte} (h : CanAppend s bytes.length) (hl : bytes.length ≤ 64) :
    ∃ t, appendBytes bytes s = .ok t ∧ engineTurn t = .next { s with sha := absorb bytes s.sha } := by
  rcases append_cases bytes s with ⟨c, hc, _⟩ | ⟨_, _, _, _, ⟨hr, he⟩ | ⟨rest, hr, he⟩⟩
  · rw [appendCheck_none _ s h.idle h.unfinalized h.room] at hc
    cases hc
  · have hunit := absorb_of_room hl (Prod.ext rfl hr)
    simp only [hunit] at he
    exact ⟨_, he, engineTurn_none h.settled⟩
  · have hunit := absorb_of_full hl (Prod.ext rfl hr)
    refine ⟨_, he, (engineTurn_fill rfl).trans ?_⟩
    simp only [completeFill, hunit, h.idle, h.settled]

/-- R137, R138: an append has at least one byte. -/
theorem append_bytes_ne_nil (x : Append) : x.bytes ≠ [] := by
  cases x <;> exact List.cons_ne_nil _ _

/-- R137, R138: an append has at most four bytes. -/
theorem append_bytes_length_le (x : Append) : x.bytes.length ≤ 4 := by
  cases x <;> simp [Append.bytes, wbytes]

/-- The same for an append as an instruction (R137, R138). -/
theorem exec_append_completes {s : State} {x : Append} (h : CanAppend s x.bytes.length) :
    ∃ t, exec x.instr s = .next t ∧ engineTurn t = .next { s with sha := absorb x.bytes s.sha } := by
  obtain ⟨t, ht, he⟩ := append_completes h ((append_bytes_length_le x).trans (by decide))
  have hexec : exec x.instr s = .next (orRaise (appendBytes x.bytes s) s) := by cases x <;> rfl
  exact ⟨t, by rw [hexec, ht]; rfl, he⟩

/-- R141: one append, completed before the next transfer. -/
theorem appendAndWait_eq {s : State} {x : Append} (h : CanAppend s x.bytes.length) :
    appendAndWait x s = { s with sha := absorb x.bytes s.sha } := by
  obtain ⟨t, ht, he⟩ := exec_append_completes h
  simp only [appendAndWait, ht, stateOf, he]

/-- R141: completed appends append their message. -/
theorem feed_eq (xs : List Append) {s : State} (h : CanAppend s (messageOf xs).length) :
    feed xs s = { s with sha := absorb (messageOf xs) s.sha } := by
  induction xs generalizing s with
  | nil => rw [messageOf, List.flatMap_nil, absorb_nil, feed, List.foldl_nil]
  | cons x xs ih =>
    have hmsg : messageOf (x :: xs) = x.bytes ++ messageOf xs := List.flatMap_cons
    rw [hmsg, List.length_append] at h
    rw [feed, List.foldl_cons, ← feed, appendAndWait_eq (h.mono (Nat.le_add_right _ _)), hmsg, absorb_append]
    exact ih (h.after_absorb s.turns s.reply)

/-! #### HASHBYTES -/

/-- R10: the bytes of a big-endian word. -/
theorem wbytes_be32 (b0 b1 b2 b3 : Byte) : wbytes (be32 b0 b1 b2 b3) = [b0, b1, b2, b3] := by
  have h0 := b0.isLt
  have h1 := b1.isLt
  have h2 := b2.isLt
  have h3 := b3.isLt
  simp only [wbytes, be32_eq, extractLsb'_eq_ofNat, BitVec.toNat_ofNat, List.cons.injEq, BitVec.toNat_eq,
    and_true]
  omega

/-- R138: HDIN8 takes the low byte. -/
theorem extractLsb'_setWidth_byte (b : Byte) : (b.setWidth 32).extractLsb' 0 8 = b := by
  have hb := b.isLt
  apply BitVec.eq_of_toNat_eq
  rw [BitVec.extractLsb'_toNat, BitVec.toNat_setWidth, Nat.shiftRight_zero]
  omega

/-- The message of single-byte appends. -/
theorem messageOf_bytes (bytes : List Byte) :
    messageOf (bytes.map fun b => Append.byte (b.setWidth 32)) = bytes := by
  induction bytes with
  | nil => rfl
  | cons b bytes ih =>
    rw [List.map_cons, messageOf, List.flatMap_cons, ← messageOf, ih, Append.bytes, extractLsb'_setWidth_byte]
    rfl

/-- What HASHBYTES leaves: the message appended, its turns taken, and the answer of the last poll, if there was one. -/
def afterHashBytes (bytes : List Byte) (ts : List Turn) (s : State) : State :=
  { s with
    sha := absorb bytes s.sha, turns := ts
    reply := if bytes = [] then s.reply
      else some (.read (statusWord { s with sha := absorb bytes s.sha }) false) }

/-- HASHBYTES in two parts. -/
theorem afterHashBytes_append {xs : List Byte} (hx : xs ≠ []) (ys : List Byte) (ts ts' : List Turn) (s : State) :
    afterHashBytes ys ts (afterHashBytes xs ts' s) = afterHashBytes (xs ++ ys) ts s := by
  have hne : xs ++ ys ≠ [] := by simp [hx]
  unfold afterHashBytes
  rw [if_neg hx, if_neg hne, absorb_append]
  by_cases hy : ys = []
  · rw [if_pos hy, hy, absorb_nil]
  · rw [if_neg hy]
    rfl

/-- R99: one write to an append port, and the `WAIT` after it. -/
theorem run_append (polls k : Nat) {s : State} {ts : List Turn} {a : Addr} {v : Word} {x : Append}
    (h : CanAppend s x.bytes.length) (ha : a.toNat % 4 = 0) (hd : decode (.busWrite a v) = .ok x.instr)
    (ht : s.turns = .host (fullWrite a v) :: (wait s.cfg polls ++ ts)) :
    core.run (polls + 2 + k + 1) s = core.run k (afterHashBytes x.bytes ts s) := by
  obtain ⟨t, hexec, he⟩ := exec_append_completes h
  have hcfg := engineTurn_cfg he
  have hstep := (step_append ht ha hd).trans (exec_with_bus hexec _ _)
  rw [run_succ hstep, run_wait polls k (by rw [← hcfg]) (engineTurn_with_bus he _ _), afterHashBytes,
    if_neg (append_bytes_ne_nil x)]
  rfl

/-- R99: one group of HASHBYTES, and the rest of it. -/
theorem run_group (polls : Nat) {s : State} {ts more : List Turn} {a : Addr} {v : Word} {x : Append}
    {rest : List Byte} (h : CanAppend s (x.bytes ++ rest).length) (ha : a.toNat % 4 = 0)
    (hd : decode (.busWrite a v) = .ok x.instr)
    (ht : s.turns = .host (fullWrite a v) :: (wait s.cfg polls ++ more) ++ ts)
    (ih : ∀ {s' : State}, s'.cfg = s.cfg → CanAppend s' rest.length → s'.turns = more ++ ts →
      core.run more.length s' = .next (afterHashBytes rest ts s')) :
    core.run (Turn.host (fullWrite a v) :: (wait s.cfg polls ++ more)).length s =
      .next (afterHashBytes (x.bytes ++ rest) ts s) := by
  have hlen : (Turn.host (fullWrite a v) :: (wait s.cfg polls ++ more)).length = polls + 2 + more.length + 1 := by
    simp only [wait, List.length_cons, List.length_append, List.length_replicate, List.length_nil]
  rw [List.length_append] at h
  rw [List.cons_append, List.append_assoc] at ht
  rw [hlen, run_append polls more.length (h.mono (Nat.le_add_right _ _)) ha hd ht,
    ih (s' := afterHashBytes x.bytes (more ++ ts) s) rfl (h.after_absorb _ _) rfl,
    afterHashBytes_append (append_bytes_ne_nil x)]

/-- R99: the transfers of HASHBYTES, along its groups. -/
theorem run_hashBytes (c : Config) (polls : List Nat) (bytes : List Byte) {s : State} {ts : List Turn}
    (hc : s.cfg = c) (h : CanAppend s bytes.length) (ht : s.turns = hashBytes c polls bytes ++ ts) :
    core.run (hashBytes c polls bytes).length s = .next (afterHashBytes bytes ts s) := by
  induction polls, bytes using hashBytes.induct generalizing s with
  | case1 polls b0 b1 b2 b3 rest ih =>
    subst hc
    rw [hashBytes] at ht ⊢
    have hbytes := wbytes_be32 b0 b1 b2 b3
    have hgroup := run_group (polls.headD 0) (x := .word (be32 b0 b1 b2 b3)) (rest := rest)
      (by rw [Append.bytes, hbytes]; exact h) rfl (decode_busWrite_eq_ok_iff.mpr (.inl ⟨rfl, rfl⟩)) ht ih
    rwa [Append.bytes, hbytes] at hgroup
  | case2 polls b rest hshort ih =>
    subst hc
    have hcons : hashBytes s.cfg polls (b :: rest) = wr s.cfg .hdin8 (b.setWidth 32) ::
        (wait s.cfg (polls.headD 0) ++ hashBytes s.cfg polls.tail rest) := by
      rw [hashBytes]
      exact hshort
    rw [hcons] at ht ⊢
    have hbyte := extractLsb'_setWidth_byte b
    have hgroup := run_group (polls.headD 0) (x := .byte (b.setWidth 32)) (rest := rest)
      (by rw [Append.bytes, hbyte]; exact h) rfl (decode_busWrite_eq_ok_iff.mpr (.inr ⟨rfl, rfl⟩)) ht ih
    rwa [Append.bytes, hbyte] at hgroup
  | case3 polls =>
    rw [hashBytes] at ht ⊢
    obtain rfl : s.turns = ts := ht
    rw [afterHashBytes, absorb_nil]
    rfl

/-- Settles O60: the transfers (`run_hashBytes`) and the single appends (`feed_eq`) both absorb the message. -/
theorem hashBytesAppendsTheMessage : Obligations.HashBytesAppendsTheMessage := by
  intro s polls bytes ts hb hp hf hroom ht
  have h : CanAppend s bytes.length := ⟨hb, hp, hf, hroom⟩
  have hmsg := messageOf_bytes bytes
  have hfeed := feed_eq (bytes.map fun b => Append.byte (b.setWidth 32)) (s := s) (by rwa [hmsg])
  rw [hmsg] at hfeed
  simp only [hfeed]
  exact ⟨hb, hp, run_hashBytes s.cfg polls bytes rfl h ht⟩

end Sys2Proof.Proofs

/-! ### The completion of a command by the ENGINE (R110, R113, R115) -/

namespace Sys2Proof.Proofs

open Sys2Proof.Machine Sys2Proof.Safety Sys2Proof.Laws

/-- Settles O7: the pending command by `engineTurn_command`, the bus write by `step_append`. -/
theorem stepRunsDecodedInstruction : Obligations.StepRunsDecodedInstruction := by
  intro s i
  refine ⟨fun ts w latched ht hp hd => ?_, fun w latched ht hp hd => ?_, fun ts a v ht ha hd => step_append ht ha hd⟩
  · rw [step_engine ht]
    exact engineTurn_command hp hd
  · rw [step_idle ht]
    exact engineTurn_command hp hd

/-- R113: the bookkeeping at the end of every command, successful or not. -/
theorem command_bookkeeping {i : Instr} {s t : State} (hi : isAppend i = false) (h : exec i s = .next t) :
    t.done = true ∧ t.pend = .none ∧ t.busy = false := by
  rw [exec_command i s hi] at h
  cases h
  exact ⟨rfl, rfl, rfl⟩

/-- Settles O9: one completion for each kind of pending operation. -/
theorem engineTurnCompletes : Obligations.EngineTurnCompletes := by
  intro s ts ht
  rw [step_engine ht]
  refine ⟨fun rest hp => ?_, fun w latched i hp hd => ?_, fun w latched r hp hd => ?_⟩
  · rw [engineTurn_fill (s := { s with turns := ts }) hp]
    rfl
  · have hrun : engineTurn { s with turns := ts } = exec i { s with turns := ts } := engineTurn_command hp hd
    obtain ⟨t, hexec⟩ := exec_next i { s with turns := ts }
    exact ⟨hrun, t, hrun.trans hexec, command_bookkeeping (isAppend_of_decodeCommand hd) hexec⟩
  · rw [engineTurn_illegal (s := { s with turns := ts }) hp hd]
    rfl

/-- Settles O58, by the two effects a command can have (`command_cases`). -/
theorem frameOfCommands : Obligations.FrameOfCommands := by
  intro i s t hi he
  rcases command_cases i s t ((isAppend_eq_false_iff i).mpr hi) he with ⟨c, _, rfl⟩ | ⟨u, hu, rfl⟩
  · exact ⟨fun _ _ => rfl, fun _ => rfl, rfl, rfl, rfl, rfl, rfl, rfl, rfl, rfl, rfl, .inr ⟨rfl, rfl, rfl⟩⟩
  · cases hu with
    | big rd v hd _ =>
      refine ⟨fun r hr => ?_, fun _ => rfl, rfl, rfl, rfl, rfl, rfl, rfl, rfl, rfl, rfl, .inl ⟨rfl, rfl⟩⟩
      have hne : rd ≠ r := fun e => hr (e ▸ hd)
      exact Vector.getElem_set_ne rd.isLt r.isLt (Fin.val_ne_of_ne hne)
    | sha u hd _ _ _ =>
      have hnone : (∃ rd, destReg i = some rd) → u = s.sha := fun ⟨_, hrd⟩ => nomatch hd.symm.trans hrd
      exact ⟨fun _ _ => rfl, hnone, rfl, rfl, rfl, rfl, rfl, rfl, rfl, rfl, rfl, .inl ⟨rfl, rfl⟩⟩

/-! #### Progress (R110) -/

/-- A HOST turn always answers. -/
theorem hostTurn_next (tr : Transfer) (s : State) : ∃ t, hostTurn tr s = .next t := by
  rcases hostTurn_cases tr s with ⟨_, e⟩ | ⟨_, _, e⟩ | ⟨_, _, _, _, _, _, e⟩ | ⟨_, _, i, _, _, e⟩
  · exact ⟨_, e⟩
  · exact ⟨_, e⟩
  · exact ⟨_, e⟩
  · obtain ⟨t, ht⟩ := exec_next i { s with reply := some (.write false) }
    exact ⟨t, e.trans ht⟩

/-- Every turn answers a next state. -/
theorem step_next (s : State) : ∃ t, step s = .next t := by
  cases hs : s.turns with
  | nil =>
    rw [step_idle hs]
    exact engineTurn_next s
  | cons x ts =>
    cases x with
    | engine =>
      rw [step_engine hs]
      exact engineTurn_next _
    | host tr =>
      rw [step_host hs]
      exact hostTurn_next tr _
    | reset p => exact ⟨_, step_reset hs⟩

/-- I1: with nothing pending the core is idle. -/
theorem idle_of_pend_eq_none {s : State} (h : StateInv s) (hp : s.pend = .none) : s.busy = false :=
  Bool.eq_false_iff.mpr fun hb => h.busy_iff.mp hb hp

/-- R110: one step for each turn lined up, and one more for the ENGINE, complete what is pending. -/
theorem run_completes (n : Nat) {s : State} (h : StateInv s) (hn : s.turns.length = n) :
    ∃ t : State, core.run (n + 1) s = .next t ∧ t.busy = false ∧ t.pend = .none ∧ t.turns = [] := by
  induction n generalizing s with
  | zero =>
    have hnil : s.turns = [] := List.length_eq_zero_iff.mp hn
    obtain ⟨t, he⟩ := engineTurn_next s
    obtain ⟨hturns, hpend⟩ := engineTurn_turns he
    exact ⟨t, run_succ ((step_idle hnil).trans he) 0, idle_of_pend_eq_none (stateInv_engineTurn h he) hpend, hpend,
      hturns.trans hnil⟩
  | succ n ih =>
    obtain ⟨u, hu⟩ := step_next s
    have hlen : u.turns.length = n := by rw [step_turns hu, List.length_tail, hn, Nat.add_sub_cancel]
    rw [run_succ hu]
    exact ih (invariantKeptByEveryStep s u h hu) hlen

/-- Settles O11, by induction on the number of turns lined up (`run_completes`). -/
theorem pendingOperationCompletes : Obligations.PendingOperationCompletes := by
  refine ⟨fun s h => run_completes _ h rfl, fun s hp => ⟨fun ht => ?_, fun ts ht => ?_⟩⟩
  · rw [step_idle ht, engineTurn_none hp]
  · rw [step_engine ht]
    exact engineTurn_none hp

end Sys2Proof.Proofs

/-! ### Acceptance and the latched operands (R111, R112, R116) -/

namespace Sys2Proof.Proofs

open Sys2Proof.Machine Sys2Proof.Safety Sys2Proof.Laws

/-- R67: a data write that keeps the pending operation keeps it also when it is dropped. -/
theorem writeData_pend {f : State → State} {s : State} (hf : (f s).pend = s.pend) : (writeData f s).pend = s.pend := by
  unfold writeData
  split
  · rfl
  · exact hf

/-- Of the register writes only an accepted CMD write and a soft reset reach the pending operation (R112, R232). -/
theorem writeReg_pend (r : RegName) (v : Word) (s : State) (h1 : r ≠ .hdin32) (h2 : r ≠ .hdin8) :
    (writeReg r v s).pend = s.pend ∨ (writeReg r v s).pend = .none ∨
    (r = .cmd ∧ s.busy = false ∧ (writeReg r v s).pend = .command v (latch v s.b)) := by
  rcases writeReg_cases r v s h1 h2 with ⟨_, e⟩ | ⟨_, e⟩ | ⟨hr, e⟩ | ⟨f, _, e⟩ | ⟨i, j, _, e⟩ | e <;> rw [e]
  · unfold writeCtrl
    split
    · exact .inr (.inl (softReset_pend s))
    · exact .inl rfl
  · exact .inl (by rw [writeStatus_eq])
  · unfold submitCommand
    split
    · exact .inl rfl
    · next hb => exact .inr (.inr ⟨hr, Bool.eq_false_iff.mpr hb, rfl⟩)
  · exact .inl (writeData_pend rfl)
  · exact .inl (writeData_pend rfl)
  · exact .inl rfl

/-- R137, R138: an append makes no command pending. -/
theorem append_pend (bytes : List Byte) (s : State) (hl : bytes.length ≤ 4) :
    (orRaise (appendBytes bytes s) s).pend = s.pend ∨ ∃ rest, (orRaise (appendBytes bytes s) s).pend = .fill rest := by
  rcases append_effect bytes s hl with ⟨c, _, e⟩ | ⟨_, _, u, _, _, ⟨e, _⟩ | ⟨rest, e, _⟩⟩ <;> rw [e]
  · exact .inl rfl
  · exact .inl rfl
  · exact .inr ⟨rest, rfl⟩

/-- Settles O14: a CMD write by `submitCommand`'s two cases; of the other turns none makes a command pending. -/
theorem commandSubmission : Obligations.CommandSubmission := by
  refine ⟨fun s ts v ht => ?_, fun s t v latched he hp => ?_⟩
  · rw [step_write_register (r := .cmd) ht nofun nofun nofun rfl, writeReg]
    refine ⟨fun hb => ?_, fun hb => ⟨some (.write false), ?_⟩⟩
    · rw [submitCommand_idle (s := { s with turns := ts }) hb]
      rfl
    · rw [submitCommand, if_pos hb]
      rfl
  · rcases step_cases he with ⟨p, ts, _, rfl⟩ | ⟨tr, ts, ht, e⟩ | ⟨_, e⟩
    · obtain ⟨r, n, e⟩ := resetTurn_eq p { s with turns := ts }
      rw [e] at hp
      cases hp
    · rcases hostTurn_next_cases e with ⟨r, n, rfl⟩ | ⟨a, w, rfl, ha, h1, h2, rfl⟩ | ⟨bytes, hl, rfl⟩
      · exact .inl rfl
      · rcases writeReg_pend _ w { s with turns := ts } h1 h2 with hsame | hnone | ⟨hr, hb, hcmd⟩
        · exact .inl hsame
        · cases hnone.symm.trans hp
        · cases hcmd.symm.trans hp
          obtain rfl : a = 0x014#14 := BitVec.eq_of_toNat_eq (isAt_of_regAt ha hr)
          exact .inr ⟨hb, ts, ht⟩
      · rcases append_pend bytes { s with turns := ts, reply := some (.write false) } hl with hsame | ⟨rest, hfill⟩
        · exact .inl hsame
        · cases hfill.symm.trans hp
    · cases (engineTurn_turns e).2.symm.trans hp

/-- R116: the latch of a word that decodes. -/
theorem latch_of_decodes {w : Word} {i : Instr} (hd : decodeCommand w = .ok i) (b : Vector BigNat 16) :
    latch w b = (sourceRegs i).map fun r => (r, b[r]) := by
  rw [latch, hd]

/-- R116: nothing is latched for an illegal word. -/
theorem latch_of_illegal {w : Word} {r : Reject} (hd : decodeCommand w = .error r) (b : Vector BigNat 16) :
    latch w b = [] := by
  rw [latch, hd]

/-- R195: the five registers of the key bank, in order. -/
theorem keyBank_eq (k : BReg) :
    [k, k + 1, k + 2, k + 3, k + 4] = (List.range 5).map fun n => Fin.ofNat 16 (k.val + n) := by
  revert k
  decide

/-- Settles O15: the latch is `sourceRegs` with their values, and an operand is read from it (`operand_latched`). -/
theorem latchedOperandsAreRegisterValues : Obligations.LatchedOperandsAreRegisterValues := by
  refine ⟨fun w b => ⟨?_, ?_, ?_, ?_, fun r hd => latch_of_illegal hd b⟩, fun s w i hd r hr => ?_,
    fun s w latched i h hp hd r hr => ?_⟩
  · intro rd x y z chk hd
    exact latch_of_decodes hd b
  · rintro rd x y (hd | hd)
    · exact latch_of_decodes hd b
    · exact latch_of_decodes hd b
  · intro rd x k chk hd
    rw [latch_of_decodes hd, sourceRegs, List.map_cons, keyBank_eq, List.map_map]
    rfl
  · rintro i hd (rfl | rfl | rfl)
    · exact latch_of_decodes hd b
    · exact latch_of_decodes hd b
    · exact latch_of_decodes hd b
  · exact operand_latched (s := acceptCommand w s) rfl rfl hd r hr
  · exact operand_latched hp (pending_command h hp).1 hd r hr

/-! #### Other contents of the big registers (R116) -/

/-- R116: an operand of the pending command has the value latched, whatever its register holds now. -/
theorem operand_of_latch {s : State} {w : Word} {b0 : Vector BigNat 16} {i : Instr}
    (hp : s.pend = .command w (latch w b0)) (hd : decodeCommand w = .ok i) {r : BReg} (hr : r ∈ sourceRegs i) :
    operand s r = b0[r] := by
  rw [operand, hp]
  simp only [latch_of_decodes hd, List.lookup_graph (fun r : BReg => b0[r]) hr, Option.getD_some]

/-- `b` with what the instruction wrote into its destination, if it has one, taken over from `written`. -/
def withDest (i : Instr) (written b : Vector BigNat 16) : Vector BigNat 16 :=
  match destReg i with
  | none => b
  | some rd => b.set rd written[rd]

theorem withDest_of_none {i : Instr} (hd : destReg i = none) (written b : Vector BigNat 16) :
    withDest i written b = b := by
  rw [withDest, hd]

theorem withDest_set {i : Instr} {rd : BReg} (hd : destReg i = some rd) (v : BigNat) (written b : Vector BigNat 16) :
    withDest i (written.set rd v) b = b.set rd v := by
  have hget : (written.set rd v)[rd] = v := Vector.getElem_set_self rd.isLt
  simp only [withDest, hd, hget]

/-- A command's body looks at the big registers through its operands alone: with the same operands it does the same
over any other contents, and writes the same value to its destination. -/
theorem bodyOf_with_big {i : Instr} {s : State} {b : Vector BigNat 16} (hi : isAppend i = false)
    (ho : ∀ r ∈ sourceRegs i, operand { s with b := b } r = operand s r) :
    bodyOf i { s with b := b } = (bodyOf i s).map fun t => { t with b := withDest i t.b b } := by
  have hwrite : ∀ rd v, destReg i = some rd →
      writeBig rd v { s with b := b } = { writeBig rd v s with b := withDest i (writeBig rd v s).b b } := by
    intro rd v hd
    simp only [writeBig, withDest_set hd]
  cases i with
  | shaInit => rfl
  | shaCompress =>
    simp only [bodyOf, shaCompressBody]
    split_ifs <;> rfl
  | shaFinal =>
    simp only [bodyOf, shaFinalBody]
    split_ifs <;> rfl
  | modexp rd x y z chk =>
    simp only [sourceRegs, List.forall_mem_cons] at ho
    simp only [bodyOf, modexpBody, ho]
    split_ifs
    · rfl
    · rfl
    · exact congrArg Except.ok (hwrite rd _ rfl)
  | modinv rd x y =>
    simp only [sourceRegs, List.forall_mem_cons] at ho
    simp only [bodyOf, modinvBody, ho]
    split_ifs
    · rfl
    · rfl
    · exact congrArg Except.ok (hwrite rd _ rfl)
  | gcd rd x y =>
    simp only [sourceRegs, List.forall_mem_cons] at ho
    simp only [bodyOf, gcdBody, ho]
    exact congrArg Except.ok (hwrite rd _ rfl)
  | crtDec rd x k chk =>
    simp only [sourceRegs, List.forall_mem_cons] at ho
    have hcrt : crtOperands x k { s with b := b } = crtOperands x k s := by simp only [crtOperands, ho]
    simp only [bodyOf, crtDecBody, hcrt]
    split_ifs
    · rfl
    · split
      · rfl
      · exact congrArg Except.ok (hwrite rd _ rfl)
  | hdin32 v => cases hi
  | hdin8 v => cases hi

/-- Settles O16: the operands are those latched, so the body does the same (`bodyOf_with_big`). -/
theorem commandsComputeFromLatchedValues : Obligations.CommandsComputeFromLatchedValues := by
  intro s w i b0 b hp hd
  have hi := isAppend_of_decodeCommand hd
  have hsame := bodyOf_with_big (s := s) (b := b) hi fun r hr =>
    (operand_of_latch (s := { s with b := b }) hp hd hr).trans (operand_of_latch hp hd hr).symm
  refine ⟨_, exec_command i s hi, ?_⟩
  rw [exec_command i _ hi, hsame]
  cases hb : bodyOf i s with
  | error c => exact .inl ⟨rfl, rfl⟩
  | ok u =>
    cases bodyOf_effect i s u hi hb with
    | big rd v hdest _ =>
      refine .inr ⟨rd, v, hdest, rfl, ?_⟩
      simp only [Except.map, orRaise_ok, writeBig_b, withDest_set hdest]
      rfl
    | sha u hdest _ _ _ =>
      refine .inl ⟨rfl, ?_⟩
      simp only [Except.map, orRaise_ok, withDest_of_none hdest]
      rfl

end Sys2Proof.Proofs

/-! ### Errors are precise (R115, R206) -/

namespace Sys2Proof.Proofs

open Sys2Proof.Machine Sys2Proof.Safety Sys2Proof.Laws

/-- A body that does not raise does not record an error. -/
theorem bodyOf_ok_err {i : Instr} {s t : State} (h : bodyOf i s = .ok t) : t.err = s.err := by
  have hown := bodyOf_congr i s s rfl rfl rfl rfl rfl
  rw [h] at hown
  rw [Except.ok.inj hown]

/-- A body raises the same error whatever the error record says. -/
theorem bodyOf_clearError_eq_error {i : Instr} {s : State} {c : ErrorCode} (h : bodyOf i (clearError s) = .error c) :
    bodyOf i s = .error c := by
  rw [bodyOf_congr i s (clearError s) rfl rfl rfl rfl rfl] at h
  cases hb : bodyOf i s with
  | error d => rwa [hb] at h
  | ok t => rw [hb] at h; cases h

/-- An instruction that sets ERR raised an error. -/
theorem bodyOf_error_of_exec {i : Instr} {s t : State} (h : exec i s = .next t) (hs : s.err = false)
    (ht : t.err = true) : ∃ c, bodyOf i s = .error c := by
  cases hb : bodyOf i s with
  | error c => exact ⟨c, rfl⟩
  | ok u =>
    have hsame : t.err = u.err := by
      cases hi : isAppend i with
      | false => rw [exec_command i s hi, hb] at h; cases h; rfl
      | true => rw [exec_append i s hi, hb] at h; cases h; rfl
    have hclear : t.err = false := hsame.trans ((bodyOf_ok_err hb).trans hs)
    exact absurd ht (Bool.eq_false_iff.mp hclear)

/-- R113, R203: what an instruction does whose body raises an error. -/
theorem exec_of_error {i : Instr} {s t : State} {c : ErrorCode} (hb : bodyOf i s = .error c) (h : exec i s = .next t) :
    (isAppend i = true ∧ t = raiseError c s) ∨ (isAppend i = false ∧ t = finishCommand (raiseError c s)) := by
  cases hi : isAppend i with
  | false => rw [exec_command i s hi, hb] at h; cases h; exact .inr ⟨rfl, rfl⟩
  | true => rw [exec_append i s hi, hb] at h; cases h; exact .inl ⟨rfl, rfl⟩

/-- An append is one of the two appending instructions. -/
theorem eq_hdin_of_isAppend {i : Instr} (hi : isAppend i = true) : ∃ v, i = .hdin32 v ∨ i = .hdin8 v := by
  by_contra hno
  push Not at hno
  exact absurd hi (Bool.eq_false_iff.mp ((isAppend_eq_false_iff i).mpr hno))

/-- Settles O20: the body raises the same error from both states, and nothing but the error is recorded. -/
theorem errorsArePrecise : Obligations.ErrorsArePrecise := by
  intro i s t u hu herr ht
  obtain ⟨c, hclear⟩ := bodyOf_error_of_exec hu rfl herr
  have hcode : u.errcode = c.code := by
    rcases exec_of_error hclear hu with ⟨_, rfl⟩ | ⟨_, rfl⟩
    · rfl
    · rfl
  refine ⟨c, _, hcode, rfl, ?_⟩
  rcases exec_of_error (bodyOf_clearError_eq_error hclear) ht with ⟨hi, rfl⟩ | ⟨hi, rfl⟩
  · exact .inl ⟨eq_hdin_of_isAppend hi, rfl⟩
  · exact .inr ⟨(isAppend_eq_false_iff i).mp hi, rfl⟩

end Sys2Proof.Proofs

/-! ### What can change a big register (R35, R67, R117, R231, R232) -/

namespace Sys2Proof.Proofs

open Sys2Proof.Machine Sys2Proof.Safety Sys2Proof.Laws

/-- Setting one register leaves the others. -/
theorem eq_of_set_ne {b : Vector BigNat 16} {i r : BReg} {v : BigNat} (h : (b.set i v)[r] ≠ b[r]) : i = r := by
  by_contra hne
  exact h (Vector.getElem_set_ne i.isLt r.isLt (Fin.val_ne_of_ne hne))

/-- R113, R117: of the completions only a command's changes a big register, which is its destination. -/
theorem engineTurn_big {s t : State} {r : BReg} (h : engineTurn s = .next t) (hne : t.b[r] ≠ s.b[r]) :
    ∃ w latched i, s.pend = .command w latched ∧ decodeCommand w = .ok i ∧ destReg i = some r := by
  rcases engineTurn_cases s with ⟨_, e⟩ | ⟨_, _, e⟩ | ⟨_, _, _, _, _, e⟩ | ⟨w, latched, i, hp, hd, e⟩ <;> rw [e] at h
  · cases h; exact absurd rfl hne
  · cases h; exact absurd rfl hne
  · cases h; exact absurd rfl hne
  · refine ⟨w, latched, i, hp, hd, ?_⟩
    have hcommand := (isAppend_eq_false_iff i).mp (isAppend_of_decodeCommand hd)
    obtain ⟨hframe, _⟩ := frameOfCommands i s t hcommand h
    by_contra hdest
    exact hne (hframe r hdest)

/-- R232: an abort leaves a register unspecified only if it is a command's destination. -/
theorem abortedDest_eq_some {p : Pending} {r : BReg} (h : abortedDest p = some r) :
    ∃ w latched i, p = .command w latched ∧ decodeCommand w = .ok i ∧ destReg i = some r := by
  unfold abortedDest at h
  split at h
  · cases h
  · cases h
  · next w latched =>
    split at h
    · next i hd => exact ⟨w, latched, i, rfl, hd, h⟩
    · cases h

/-- R232: a soft reset changes no big register but the aborted destination. -/
theorem softReset_big {s : State} {r : BReg} (h : (softReset s).b[r] ≠ s.b[r]) : abortedDest s.pend = some r := by
  unfold softReset at h
  split at h
  · exact absurd rfl h
  · next rd hd => rw [hd, eq_of_set_ne h]

/-- Of the register writes only a soft reset and an idle write of one of its words reach a big register. -/
theorem writeReg_big {n : RegName} {v : Word} {s : State} {r : BReg} (h1 : n ≠ .hdin32) (h2 : n ≠ .hdin8)
    (h : (writeReg n v s).b[r] ≠ s.b[r]) :
    (n = .ctrl ∧ v.getLsbD 31 = true ∧ abortedDest s.pend = some r) ∨ (s.busy = false ∧ ∃ j, n = .bw r j) := by
  rcases writeReg_cases n v s h1 h2 with ⟨hn, e⟩ | ⟨_, e⟩ | ⟨_, e⟩ | ⟨f, _, e⟩ | ⟨i, j, hn, e⟩ | e <;> rw [e] at h
  · unfold writeCtrl at h
    split at h
    · next h31 => exact .inl ⟨hn, h31, softReset_big h⟩
    · exact absurd rfl h
  · rw [writeStatus_eq] at h
    exact absurd rfl h
  · unfold submitCommand at h
    split at h <;> exact absurd rfl h
  · unfold writeData at h
    split at h <;> exact absurd rfl h
  · unfold writeData at h
    split at h
    · exact absurd rfl h
    · next hb =>
      obtain rfl := eq_of_set_ne h
      exact .inr ⟨Bool.eq_false_iff.mpr hb, j, hn⟩
  · exact absurd rfl h

/-- R137, R138: an append reaches no big register. -/
theorem append_big (bytes : List Byte) (s : State) (hl : bytes.length ≤ 4) :
    (orRaise (appendBytes bytes s) s).b = s.b := by
  rcases append_effect bytes s hl with ⟨c, _, e⟩ | ⟨_, _, u, _, _, ⟨e, _⟩ | ⟨rest, e, _⟩⟩
  · rw [e, raiseError_b]
  · rw [e]
  · rw [e]

/-- R71: the words of B[r] lie in its BSTRIDE bytes of the window. -/
theorem bw_offset_range {c : Config} {n : Nat} {r : BReg} {j : Nat} (h : IsAt c n (.bw r j)) :
    0x1000 + r.val * c.stride ≤ n ∧ n < 0x1000 + (r.val + 1) * c.stride := by
  obtain ⟨hj, hn⟩ := h
  have hstride := stride_eq_words c
  rw [Nat.add_one_mul]
  omega

/-- Settles O26, by the three kinds of turn: a reset, a HOST write (`writeReg_big`), a completion (`engineTurn_big`). -/
theorem bigRegisterChanges : Obligations.BigRegisterChanges := by
  intro s t r he hne
  rcases step_cases he with ⟨p, ts, ht, rfl⟩ | ⟨tr, ts, ht, e⟩ | ⟨hturn, e⟩
  · exact .inr (.inr ⟨p, ts, ht⟩)
  · rcases hostTurn_next_cases e with ⟨a, n, rfl⟩ | ⟨a, v, rfl, ha, h1, h2, rfl⟩ | ⟨bytes, hl, rfl⟩
    · exact absurd rfl hne
    · rcases writeReg_big (s := { s with turns := ts }) h1 h2 hne with ⟨hr, h31, habort⟩ | ⟨hb, j, hr⟩
      · obtain ⟨w, latched, i, hp, hd, hdest⟩ := abortedDest_eq_some habort
        obtain rfl : a = 0x008#14 := BitVec.eq_of_toNat_eq (isAt_of_regAt ha hr)
        exact .inl ⟨w, latched, i, hp, hd, hdest, .inr (.inr ⟨v, ts, ht, h31⟩)⟩
      · exact .inr (.inl ⟨a, v, ts, ht, hb, bw_offset_range (isAt_of_regAt ha hr)⟩)
    · rw [append_big bytes _ hl] at hne
      exact absurd rfl hne
  · obtain ⟨w, latched, i, hp, hd, hdest⟩ := engineTurn_big e hne
    exact .inl ⟨w, latched, i, hp, hd, hdest, hturn.imp_right .inl⟩

end Sys2Proof.Proofs

/-! ### Splits of a message, and SHA_COMPRESS as sixteen word appends (R141, R143) -/

namespace Sys2Proof.Proofs

open Sys2Proof.Machine Sys2Proof.Safety Sys2Proof.Laws

/-- Settles O51: completed appends leave a state that depends on their message alone (`feed_eq`). -/
theorem chunkingInvariance : Obligations.ChunkingInvariance := by
  intro s xs ys hb hp hf _ hroom hmsg
  have hx : CanAppend s (messageOf xs).length := ⟨hb, hp, hf, hroom⟩
  have hsame : feed xs s = feed ys s := by rw [feed_eq xs hx, feed_eq ys (hmsg ▸ hx), hmsg]
  exact ⟨hsame, congrArg (exec .shaFinal) hsame⟩

/-- R10, R33: the bytes of BLKk are four bytes of the buffer, in order. -/
theorem wbytes_blkWord (buf : Vector Byte 64) (k : Fin 16) :
    wbytes (blkWord buf k) = List.ofFn fun j : Fin 4 => buf[4 * k.val + j.val] := by
  rw [blkWord, wbytes_be32]
  rfl

/-- R33: the bytes of BLK0..BLK15, one word after another, are the buffer. -/
theorem messageOf_blkWords (s : State) :
    messageOf ((List.finRange 16).map fun k => .word (regValue (.blk k) s)) = s.sha.buf.toList := by
  have hword : ∀ k, (Append.word (regValue (.blk k) s)).bytes =
      List.ofFn fun j : Fin 4 => s.sha.buf[4 * k.val + j.val] := wbytes_blkWord s.sha.buf
  have hgroups := List.ofFn_mul' (m := 4) (n := 16) fun x => s.sha.buf[x.val]
  rw [← Vector.toList_ofFn, Vector.ofFn_getElem, List.ofFn_eq_map] at hgroups
  rw [hgroups, messageOf, List.flatMap_map, List.flatMap]
  simp only [hword]

/-- R134 to R139, R142: from a block boundary, absorbing the bytes of the buffer compresses the buffer. -/
theorem absorb_buf {u : HashState} (h : u.buflen = 0) :
    absorb u.buf.toList u = { u with h := compress u.h u.buf, hcnt := u.hcnt + 64#64 } := by
  rw [absorb, foldl_padByte_full _ _ (by simp [h]) (by simp [h])]
  simp only [h, putBytes_zero _ u.buf u.buf rfl, Vector.length_toList]

/-- R113: a command whose body does not raise. -/
theorem exec_command_ok {i : Instr} {s t : State} (hi : isAppend i = false) (hb : bodyOf i s = .ok t) :
    exec i s = .next (finishCommand t) := by
  rw [exec_command i s hi, hb, orRaise_ok]

/-- R113: a command whose body raises an error. -/
theorem exec_command_error {i : Instr} {s : State} {c : ErrorCode} (hi : isAppend i = false)
    (hb : bodyOf i s = .error c) : exec i s = .next (finishCommand (raiseError c s)) := by
  rw [exec_command i s hi, hb, orRaise_error]

/-- R142: SHA_COMPRESS when no check fails. -/
theorem exec_shaCompress {s : State} (hf : s.sha.hfin = false) (hl : s.sha.buflen = 0)
    (hn : s.sha.hcnt.toNat + 64 ≤ lengthLimit) :
    exec .shaCompress s = .next (finishCommand
      { s with sha := { s.sha with h := compress s.sha.h s.sha.buf, hcnt := s.sha.hcnt + 64#64 } }) := by
  refine exec_command_ok rfl ?_
  rw [bodyOf, shaCompressBody, if_neg (Bool.eq_false_iff.mp hf), if_neg (not_not.mpr hl), if_neg (not_lt.mpr hn)]

/-- Settles O52: the sixteen words are the buffer, and absorbing it from a block boundary is one compression. -/
theorem compressEqualsAppending : Obligations.CompressEqualsAppending := by
  intro s hb hp hf hl hn
  have hmsg := messageOf_blkWords s
  have happend : CanAppend s (messageOf ((List.finRange 16).map fun k => .word (regValue (.blk k) s))).length :=
    ⟨hb, hp, hf, by rw [hmsg, Vector.length_toList]; exact hn⟩
  rw [exec_shaCompress hf hl hn, feed_eq _ happend, hmsg, absorb_buf hl, finishCommand, hb, hp]

end Sys2Proof.Proofs

/-! ### The compression function (R131 to R133) -/

namespace Sys2Proof.Proofs

open Sys2Proof.Machine Sys2Proof.Laws

/-! #### The message schedule -/

theorem length_extendSchedule (n : Nat) (ws : List Word) : (extendSchedule n ws).length = ws.length + n := by
  induction n generalizing ws with
  | zero => rfl
  | succ n ih => rw [extendSchedule, ih, List.length_cons]; omega

/-- R131: the words so far stay in their places. -/
theorem getElem?_reverse_extendSchedule (n : Nat) {ws : List Word} {i : Nat} (hi : i < ws.length) :
    (extendSchedule n ws).reverse[i]? = ws.reverse[i]? := by
  induction n generalizing ws with
  | zero => rfl
  | succ n ih =>
    have hold : i < ws.reverse.length := by rwa [List.length_reverse]
    rw [extendSchedule, ih (ws := nextWord ws :: ws) (Nat.lt_succ_of_lt hi), List.reverse_cons,
      List.getElem?_append_left hold]

/-- R131: every word of `w` from the seventeenth on follows from the earlier ones. -/
def FollowsRecurrence (w : List Word) : Prop :=
  ∀ i, 16 ≤ i → i < w.length →
    w.getD i 0 = rotl (w.getD (i - 3) 0 ^^^ w.getD (i - 8) 0 ^^^ w.getD (i - 14) 0 ^^^ w.getD (i - 16) 0) 1

/-- R131: one more word keeps the recurrence. -/
theorem followsRecurrence_nextWord {ws : List Word} (hl : 16 ≤ ws.length) (h : FollowsRecurrence ws.reverse) :
    FollowsRecurrence (nextWord ws :: ws).reverse := by
  intro i hi hlt
  have hold : ∀ j < ws.length, (ws.reverse ++ [nextWord ws]).getD j 0 = ws.reverse.getD j 0 := fun j hj =>
    List.getD_append _ _ _ j (by rwa [List.length_reverse])
  rw [List.length_reverse, List.length_cons] at hlt
  rw [List.reverse_cons, hold (i - 3) (by omega), hold (i - 8) (by omega), hold (i - 14) (by omega),
    hold (i - 16) (by omega)]
  by_cases hlast : i = ws.length
  · subst hlast
    have hback : ∀ k, 1 ≤ k → k ≤ 16 → ws.reverse.getD (ws.length - k) 0 = ws.getD (k - 1) 0 := fun k h1 h16 => by
      rw [List.getD_reverse _ (by omega)]
      congr 1
      omega
    rw [hback 3 (by omega) (by omega), hback 8 (by omega) (by omega), hback 14 (by omega) (by omega),
      hback 16 (by omega) (by omega), List.getD_append_right _ _ _ _ (by rw [List.length_reverse]), List.length_reverse,
      Nat.sub_self]
    rfl
  · rw [hold i (by omega)]
    exact h i hi (by rw [List.length_reverse]; omega)

theorem followsRecurrence_extendSchedule (n : Nat) {ws : List Word} (hl : 16 ≤ ws.length)
    (h : FollowsRecurrence ws.reverse) : FollowsRecurrence (extendSchedule n ws).reverse := by
  induction n generalizing ws with
  | zero => exact h
  | succ n ih => exact ih (hl.trans (Nat.le_succ _)) (followsRecurrence_nextWord hl h)

@[simp] theorem length_schedule (buf : Vector Byte 64) : (schedule buf).length = 80 := by
  rw [schedule, List.length_reverse, length_extendSchedule, List.length_reverse, List.length_ofFn]

/-- R131: the schedule follows the recurrence. -/
theorem followsRecurrence_schedule (buf : Vector Byte 64) : FollowsRecurrence (schedule buf) := by
  refine followsRecurrence_extendSchedule 64 (by rw [List.length_reverse, List.length_ofFn]) ?_
  intro i hi hlt
  simp only [List.reverse_reverse, List.length_ofFn] at hlt
  omega

/-- Settles O40: the block's words come first (`getElem?_reverse_extendSchedule`), the others follow the recurrence. -/
theorem scheduleRecurrence : Obligations.ScheduleRecurrence := by
  intro buf
  refine ⟨length_schedule buf, fun i hi => ?_, fun i h16 h80 => ?_⟩
  · have hblock : i < (List.ofFn (blkWord buf)).reverse.length := by rwa [List.length_reverse, List.length_ofFn]
    rw [schedule, getElem?_reverse_extendSchedule 64 hblock, List.reverse_reverse, List.getElem?_ofFn, dif_pos hi]
    rfl
  · have hlt : i < (schedule buf).length := by rwa [length_schedule]
    rw [← followsRecurrence_schedule buf i h16 hlt, List.getElem?_eq_getElem hlt, List.getD_eq_getElem _ _ hlt]

/-! #### The rounds -/

theorem rounds_append (i : Nat) (xs ys : List Word) (v : Vars) :
    rounds i (xs ++ ys) v = rounds (i + xs.length) ys (rounds i xs v) := by
  induction xs generalizing i v with
  | nil => rfl
  | cons x xs ih => rw [List.cons_append, rounds, ih, rounds, List.length_cons, Nat.add_right_comm, Nat.add_assoc]

/-- R133: the working variables before round `i` of the schedule `w`. -/
def varsAt (w : List Word) (v : Vars) (i : Nat) : Vars := rounds 0 (w.take i) v

/-- R133: round `i`. -/
theorem varsAt_succ {w : List Word} {i : Nat} (v : Vars) (hi : i < w.length) :
    varsAt w v (i + 1) = roundStep i (w.getD i 0) (varsAt w v i) := by
  rw [varsAt, ← List.take_append_getElem hi, rounds_append, List.length_take_of_le hi.le, Nat.zero_add,
    List.getD_eq_getElem _ _ hi]
  rfl

/-- R133: the eighty rounds are the rounds over the whole schedule. -/
theorem varsAt_schedule (buf : Vector Byte 64) (v : Vars) : varsAt (schedule buf) v 80 = rounds 0 (schedule buf) v := by
  rw [varsAt, List.take_of_length_le (length_schedule buf).le]

/-- Settles O41: the variables are `varsAt` along the schedule, f and k are `roundF` and `roundK` of the round. -/
theorem compressIsEightyRounds : Obligations.CompressIsEightyRounds := by
  intro h buf
  refine ⟨varsAt (schedule buf) { a := h[0], b := h[1], c := h[2], d := h[3], e := h[4] }, rfl, fun i hi => ?_, ?_⟩
  · generalize hv : varsAt (schedule buf) { a := h[0], b := h[1], c := h[2], d := h[3], e := h[4] } i = v
    refine ⟨roundF i v.b v.c v.d, roundK i, fun h19 => ?_, fun h20 h39 => ?_, fun h40 h59 => ?_, fun h60 => ?_, ?_⟩
    · exact ⟨if_pos h19, if_pos h19⟩
    · simp only [roundF, roundK, show ¬ i ≤ 19 by omega, h39, if_true, if_false, and_self]
    · simp only [roundF, roundK, show ¬ i ≤ 19 by omega, show ¬ i ≤ 39 by omega, h59, if_true, if_false, and_self]
    · simp only [roundF, roundK, show ¬ i ≤ 19 by omega, show ¬ i ≤ 39 by omega, show ¬ i ≤ 59 by omega, if_false,
        and_self]
    · rw [varsAt_succ _ (by rwa [length_schedule]), hv]
      rfl
  · simp only [compress, varsAt_schedule]

end Sys2Proof.Proofs

/-! ### The checks of the SHA operations, the finalized state, and the limit of the counter (R135 to R147) -/

namespace Sys2Proof.Proofs

open Sys2Proof.Machine Sys2Proof.Safety Sys2Proof.Laws

/-- R137, R138: an append whose body does not raise. -/
theorem exec_append_ok {i : Instr} {s t : State} (hi : isAppend i = true) (hb : bodyOf i s = .ok t) :
    exec i s = .next t := by
  rw [exec_append i s hi, hb, orRaise_ok]

/-- R136, R203: an append whose body raises an error. -/
theorem exec_append_error {i : Instr} {s : State} {c : ErrorCode} (hi : isAppend i = true)
    (hb : bodyOf i s = .error c) : exec i s = .next (raiseError c s) := by
  rw [exec_append i s hi, hb, orRaise_error]

/-- R139: the SHA unit after a FILL. -/
theorem fillUnit_eq (rest : List Byte) (u : HashState) :
    fillUnit rest u = { u with h := compress u.h u.buf, buf := putBytes rest 0 u.buf, buflen := rest.length } := by
  rw [fillUnit, foldl_appendByte, Nat.zero_add]

/-- R204: the first error since the record was cleared. -/
theorem raiseError_first {s : State} (h : s.errcode = 0#8) (c : ErrorCode) :
    raiseError c s = { s with err := true, errcode := c.code } := by
  rw [raiseError, if_pos h]

/-! #### The checks of an append -/

/-- R136: an append of `n` bytes fails in the finalized state. -/
theorem appendCheck_finalized (n : Nat) {s : State} (hb : s.busy = false) (hf : s.sha.hfin = true) :
    appendCheck n s = some .hashFinalized := by
  rw [appendCheck, if_neg (Bool.eq_false_iff.mp hb), if_pos hf]

/-- R136: an append of `n` bytes fails while busy. -/
theorem appendCheck_busy (n : Nat) {s : State} (hb : s.busy = true) : appendCheck n s = some .busy := by
  rw [appendCheck, if_pos hb]

/-- R135, R136: an append of `n` bytes fails that would take the counter past the limit. -/
theorem appendCheck_overflow {n : Nat} {s : State} (hb : s.busy = false) (hf : s.sha.hfin = false)
    (hn : lengthLimit < s.sha.hcnt.toNat + n) : appendCheck n s = some .lengthOverflow := by
  rw [appendCheck, if_neg (Bool.eq_false_iff.mp hb), if_neg (Bool.eq_false_iff.mp hf), if_pos hn]

/-- R136: a failing check fails the append. -/
theorem appendBytes_of_check {bytes : List Byte} {s : State} {c : ErrorCode}
    (h : appendCheck bytes.length s = some c) : appendBytes bytes s = .error c := by
  rw [appendBytes, h]

section

variable {s : State} {c : ErrorCode} (v : Word)

/-- R136: HDIN32 with a failing check. -/
theorem exec_hdin32_error (h : appendCheck 4 s = some c) : exec (.hdin32 v) s = .next (raiseError c s) :=
  exec_append_error rfl (appendBytes_of_check (bytes := hdin32Bytes v) h)

/-- R136: HDIN8 with a failing check. -/
theorem exec_hdin8_error (h : appendCheck 1 s = some c) : exec (.hdin8 v) s = .next (raiseError c s) :=
  exec_append_error rfl (appendBytes_of_check (bytes := hdin8Bytes v) h)

end

/-- Settles O47: the failing check is the first of R136 that applies. -/
theorem appendChecks : Obligations.AppendChecks := by
  intro s v
  refine ⟨fun hb => ?_, fun hb hf => ?_, fun hb hf hn => ?_, fun hb hf hn => ?_⟩
  · exact ⟨exec_hdin32_error v (appendCheck_busy 4 hb), exec_hdin8_error v (appendCheck_busy 1 hb)⟩
  · exact ⟨exec_hdin32_error v (appendCheck_finalized 4 hb hf), exec_hdin8_error v (appendCheck_finalized 1 hb hf)⟩
  · exact exec_hdin32_error v (appendCheck_overflow hb hf hn)
  · exact exec_hdin8_error v (appendCheck_overflow hb hf hn)

/-! #### The checks of the commands -/

section

variable {s : State}

theorem exec_shaCompress_finalized (hf : s.sha.hfin = true) :
    exec .shaCompress s = .next (finishCommand (raiseError .hashFinalized s)) :=
  exec_command_error rfl (by rw [bodyOf, shaCompressBody, if_pos hf])

theorem exec_shaCompress_partial (hf : s.sha.hfin = false) (hl : s.sha.buflen ≠ 0) :
    exec .shaCompress s = .next (finishCommand (raiseError .invalidBlockLength s)) :=
  exec_command_error rfl (by rw [bodyOf, shaCompressBody, if_neg (Bool.eq_false_iff.mp hf), if_pos hl])

theorem exec_shaCompress_overflow (hf : s.sha.hfin = false) (hl : s.sha.buflen = 0)
    (hn : lengthLimit < s.sha.hcnt.toNat + 64) :
    exec .shaCompress s = .next (finishCommand (raiseError .lengthOverflow s)) :=
  exec_command_error rfl (by
    rw [bodyOf, shaCompressBody, if_neg (Bool.eq_false_iff.mp hf), if_neg (not_not.mpr hl), if_pos hn])

theorem exec_shaFinal_finalized (hf : s.sha.hfin = true) :
    exec .shaFinal s = .next (finishCommand (raiseError .hashFinalized s)) :=
  exec_command_error rfl (by rw [bodyOf, shaFinalBody, if_pos hf])

theorem exec_shaFinal_overflow (hf : s.sha.hfin = false) (hn : lengthLimit < s.sha.hcnt.toNat) :
    exec .shaFinal s = .next (finishCommand (raiseError .lengthOverflow s)) :=
  exec_command_error rfl (by rw [bodyOf, shaFinalBody, if_neg (Bool.eq_false_iff.mp hf), if_pos hn])

/-- R144, R145: SHA_FINAL when no check fails. -/
theorem exec_shaFinal (hf : s.sha.hfin = false) (hn : s.sha.hcnt.toNat ≤ lengthLimit) :
    exec .shaFinal s = .next (finishCommand { s with sha := finalizeUnit s.sha }) :=
  exec_command_ok rfl (by rw [bodyOf, shaFinalBody, if_neg (Bool.eq_false_iff.mp hf), if_neg (not_lt.mpr hn)])

end

/-- R30: the counter grown by `n` bytes. -/
theorem hcnt_add (c : BitVec 64) (n : Nat) : c + BitVec.ofNat 64 n = BitVec.ofNat 64 (c.toNat + n) := by
  rw [BitVec.ofNat_add, BitVec.ofNat_toNat, BitVec.setWidth_eq]

/-- Settles O43: one equation of `exec` for each check, and `exec_shaCompress` when none fails. -/
theorem shaCompressMeaning : Obligations.ShaCompressMeaning := by
  refine ⟨rfl, fun s => ⟨exec_shaCompress_finalized, exec_shaCompress_partial, exec_shaCompress_overflow, ?_⟩⟩
  intro hf hl hn
  rw [exec_shaCompress hf hl hn, ← hcnt_add]
  rfl

/-! #### The finalized state (R147) -/

/-- R136, R147: an append keeps hfin. -/
theorem append_hfin (bytes : List Byte) {s : State} (hf : s.sha.hfin = true) (hl : bytes.length ≤ 4) :
    (orRaise (appendBytes bytes s) s).sha.hfin = true := by
  rcases append_effect bytes s hl with ⟨c, _, e⟩ | ⟨_, hno, _⟩
  · rw [e]; exact hf
  · exact absurd hf (Bool.eq_false_iff.mp hno)

/-- R140, R147: an instruction other than SHA_INIT keeps hfin. -/
theorem exec_hfin {i : Instr} {s t : State} (hi : i ≠ .shaInit) (hf : s.sha.hfin = true) (h : exec i s = .next t) :
    t.sha.hfin = true := by
  cases happ : isAppend i with
  | true =>
    obtain ⟨bytes, hl, hexec⟩ := exec_append_bytes happ
    rw [hexec] at h
    cases h
    exact append_hfin bytes hf hl
  | false =>
    rcases command_cases i s t happ h with ⟨c, _, rfl⟩ | ⟨u, hu, rfl⟩
    · exact hf
    · cases hu with
      | big rd v _ _ => exact hf
      | sha u _ _ hkeep _ => exact (hkeep hf).resolve_right hi

/-- R140: SHA_INIT has no check. -/
theorem exec_shaInit (s : State) : exec .shaInit s = .next (finishCommand { s with sha := HashState.fresh }) :=
  exec_command_ok rfl rfl

/-- Settles O42, by `exec_shaInit` and `exec_hfin`. -/
theorem shaInitMeaning : Obligations.ShaInitMeaning :=
  ⟨rfl, exec_shaInit, fun _ _ _ => exec_hfin⟩

/-- R113, R147: a completion keeps hfin unless it is SHA_INIT's. -/
theorem engineTurn_hfin {s t : State} (hf : s.sha.hfin = true) (h : engineTurn s = .next t) :
    t.sha.hfin = true ∨ ∃ latched, s.pend = .command 0x00000010#32 latched := by
  rcases engineTurn_cases s with ⟨_, e⟩ | ⟨rest, _, e⟩ | ⟨_, _, _, _, _, e⟩ | ⟨w, latched, i, hp, hd, e⟩ <;> rw [e] at h
  · cases h
    exact .inl hf
  · cases h
    rw [completeFill_sha, fillUnit_eq]
    exact .inl hf
  · cases h
    exact .inl hf
  · by_cases hi : i = .shaInit
    · subst hi
      have hw : Code.command 0x00000010#32 = .command w := (decodeCommand_eq_ok_iff.mp hd).2
      exact .inr ⟨latched, by rw [hp, Code.command.inj hw]⟩
    · exact .inl (exec_hfin hi hf h)

/-- R67: what a data write keeps of the SHA unit it keeps also when it is dropped. -/
theorem writeData_sha {α : Type} (g : HashState → α) {f : State → State} {s : State} (hf : g (f s).sha = g s.sha) :
    g (writeData f s).sha = g s.sha := by
  unfold writeData
  split
  · rfl
  · exact hf

/-- R112: a CMD write does not reach the SHA unit. -/
@[simp] theorem submitCommand_sha (v : Word) (s : State) : (submitCommand v s).sha = s.sha := by
  unfold submitCommand
  split <;> rfl

/-- R25: a STATUS write does not reach the SHA unit. -/
@[simp] theorem writeStatus_sha (v : Word) (s : State) : (writeStatus v s).sha = s.sha := by rw [writeStatus_eq]

/-- R24: a CTRL write reaches the SHA unit by a soft reset alone. -/
theorem writeCtrl_sha (v : Word) (s : State) :
    (writeCtrl v s).sha = s.sha ∨ (v.getLsbD 31 = true ∧ (writeCtrl v s).sha = HashState.fresh) := by
  unfold writeCtrl
  split
  · next h31 => exact .inr ⟨h31, softReset_sha s⟩
  · exact .inl rfl

/-- R67: a register write that is no soft reset keeps hfin. -/
theorem writeReg_hfin (r : RegName) (v : Word) (s : State) (h1 : r ≠ .hdin32) (h2 : r ≠ .hdin8) :
    (writeReg r v s).sha.hfin = s.sha.hfin ∨ (r = .ctrl ∧ v.getLsbD 31 = true) := by
  rcases writeReg_cases r v s h1 h2 with ⟨hr, e⟩ | ⟨_, e⟩ | ⟨_, e⟩ | ⟨f, hf, e⟩ | ⟨i, j, _, e⟩ | e <;> rw [e]
  · rcases writeCtrl_sha v s with hsame | ⟨h31, _⟩
    · exact .inl (by rw [hsame])
    · exact .inr ⟨hr, h31⟩
  · exact .inl (by rw [writeStatus_sha])
  · exact .inl (by rw [submitCommand_sha])
  · exact .inl (writeData_sha HashState.hfin (hf s.sha).2)
  · exact .inl (writeData_sha HashState.hfin rfl)
  · exact .inl rfl

/-- Settles O25: of the three kinds of turn, only a reset and SHA_INIT's completion can end the finalized state; the
four operations fail their first check. -/
theorem finalizedUntilInit : Obligations.FinalizedUntilInit := by
  refine ⟨fun s t hf he => ?_, fun s v hf hb hcode => ?_, fun s hf hcode => ?_⟩
  · rcases step_cases he with ⟨p, ts, ht, rfl⟩ | ⟨tr, ts, ht, e⟩ | ⟨hturn, e⟩
    · exact .inr (.inr (.inr ⟨p, ts, ht⟩))
    · rcases hostTurn_next_cases e with ⟨r, n, rfl⟩ | ⟨a, v, rfl, ha, h1, h2, rfl⟩ | ⟨bytes, hl, rfl⟩
      · exact .inl hf
      · rcases writeReg_hfin _ v { s with turns := ts } h1 h2 with hsame | ⟨hr, h31⟩
        · exact .inl (hsame.trans hf)
        · obtain rfl : a = 0x008#14 := BitVec.eq_of_toNat_eq (isAt_of_regAt ha hr)
          exact .inr (.inr (.inl ⟨v, ts, ht, h31⟩))
      · exact .inl (append_hfin bytes hf hl)
    · rcases engineTurn_hfin (s := popTurn s) hf e with hkeep | ⟨latched, hp⟩
      · exact .inl hkeep
      · exact .inr (.inl ⟨latched, hp, hturn⟩)
  · rw [exec_hdin32_error v (appendCheck_finalized 4 hb hf), exec_hdin8_error v (appendCheck_finalized 1 hb hf),
      raiseError_first hcode]
    exact ⟨rfl, rfl⟩
  · rw [exec_shaCompress_finalized hf, exec_shaFinal_finalized hf, raiseError_first hcode]
    exact ⟨rfl, rfl⟩

/-! #### The byte counter and its limit (R135, R144) -/

/-- R113, R135: no completion takes the counter past the limit. -/
theorem engineTurn_hcnt_le {s t : State} (hn : s.sha.hcnt.toNat ≤ lengthLimit) (h : engineTurn s = .next t) :
    t.sha.hcnt.toNat ≤ lengthLimit := by
  rcases engineTurn_cases s with ⟨_, e⟩ | ⟨rest, _, e⟩ | ⟨_, _, _, _, _, e⟩ | ⟨w, latched, i, _, hd, e⟩ <;> rw [e] at h
  · cases h
    exact hn
  · cases h
    rw [completeFill_sha, fillUnit_eq]
    exact hn
  · cases h
    exact hn
  · rcases command_cases i s t (isAppend_of_decodeCommand hd) h with ⟨c, _, rfl⟩ | ⟨u, hu, rfl⟩
    · exact hn
    · cases hu with
      | big rd v _ _ => exact hn
      | sha u _ _ _ hle => exact hle hn

/-- R67: of the register writes only an idle write of HCNT gives the counter another value, but for a soft reset,
which makes it 0. -/
theorem writeReg_hcnt (r : RegName) (v : Word) (s : State) (h1 : r ≠ .hdin32) (h2 : r ≠ .hdin8) :
    (writeReg r v s).sha.hcnt = s.sha.hcnt ∨ (writeReg r v s).sha.hcnt = 0#64 ∨
      (s.busy = false ∧ (r = .hcntLo ∨ r = .hcntHi)) := by
  cases r with
  | ctrl =>
    rw [writeReg]
    rcases writeCtrl_sha v s with hsame | ⟨_, hfresh⟩
    · exact .inl (by rw [hsame])
    · exact .inr (.inl (by rw [hfresh, HashState.fresh]))
  | status => exact .inl (by rw [writeReg, writeStatus_sha])
  | cmd => exact .inl (by rw [writeReg, submitCommand_sha])
  | hcntLo | hcntHi =>
    cases hb : s.busy with
    | true => exact .inl (by rw [writeReg, writeData_busy hb, raiseError_sha])
    | false => exact .inr (.inr ⟨rfl, by simp⟩)
  | h _ | blk _ | bw _ _ =>
    rw [writeReg]
    exact .inl (writeData_sha HashState.hcnt rfl)
  | hdin32 => exact absurd rfl h1
  | hdin8 => exact absurd rfl h2
  | id | param | errcode | lastcmd | hbuflen | reserved => exact .inl rfl

/-- Settles O44: one equation of `exec` for each check; of the turns only a write of HCNT can pass the limit. -/
theorem shaFinalChecks : Obligations.ShaFinalChecks := by
  refine ⟨rfl, fun s => ⟨exec_shaFinal_finalized, exec_shaFinal_overflow, fun t hn he hpast => ?_⟩⟩
  rcases step_cases he with ⟨p, ts, _, rfl⟩ | ⟨tr, ts, ht, e⟩ | ⟨_, e⟩
  · obtain ⟨r, n, e⟩ := resetTurn_eq p { s with turns := ts }
    have hzero : (resetTurn p { s with turns := ts }).sha.hcnt = 0#64 := by rw [e]; rfl
    rw [hzero] at hpast
    exact absurd hpast (by decide)
  · rcases hostTurn_next_cases e with ⟨r, n, rfl⟩ | ⟨a, v, rfl, ha, h1, h2, rfl⟩ | ⟨bytes, _, rfl⟩
    · exact absurd hpast (not_lt.mpr hn)
    · rcases writeReg_hcnt _ v { s with turns := ts } h1 h2 with hsame | hzero | ⟨hb, hr⟩
      · exact absurd (hsame ▸ hpast) (not_lt.mpr hn)
      · exact absurd (hzero ▸ hpast) (by decide)
      · refine ⟨hb, a, v, ts, ht, hr.imp (fun hr => ?_) fun hr => ?_⟩
        · exact BitVec.eq_of_toNat_eq (isAt_of_regAt ha hr)
        · exact BitVec.eq_of_toNat_eq (isAt_of_regAt ha hr)
    · exact absurd hpast (not_lt.mpr (append_hcnt_le bytes { s with turns := ts, reply := some (.write false) } hn))
  · exact absurd hpast (not_lt.mpr (engineTurn_hcnt_le (s := popTurn s) hn e))

end Sys2Proof.Proofs

/-! ### The effect of SHA_FINAL, and the reference digests (R145, R146) -/

namespace Sys2Proof.Proofs

open Sys2Proof.Machine Sys2Proof.Safety Sys2Proof.Laws

/-- A list of 64 bytes is the content of a block. -/
theorem exists_block {bytes : List Byte} (h : bytes.length = 64) : ∃ block : Vector Byte 64, block.toList = bytes :=
  ⟨⟨bytes.toArray, h⟩, rfl⟩

/-- R145: the zero bytes that SHA_FINAL puts after the byte 0x80 of a block with `n` bytes in it. -/
def zeroPadding (n : Nat) : List Byte :=
  if n ≤ 55 then List.replicate (55 - n) 0x00#8 else List.replicate (63 - n) 0x00#8 ++ List.replicate 56 0x00#8

/-- R145: the byte 0x80 and the zero loop pad with a fixed list of bytes. -/
theorem padZeros_eq_foldl {u : HashState} (h : u.buflen ≤ 63) :
    padZeros 64 (padByte 0x80#8 u) = (0x80#8 :: zeroPadding u.buflen).foldl (fun u b => padByte b u) u := by
  rw [List.foldl_cons]
  by_cases hlast : u.buflen = 63
  · have hempty : (padByte 0x80#8 u).buflen = 0 := by rw [padByte_full _ _ (by omega)]
    rw [padZeros_low 64 _ (by omega) (by omega), hempty, hlast]
    rfl
  · have hlen : (padByte 0x80#8 u).buflen = u.buflen + 1 := by rw [padByte_room _ _ (by omega), appendByte_buflen]
    by_cases h55 : u.buflen ≤ 55
    · rw [padZeros_low 64 _ (by omega) (by omega), hlen, zeroPadding, if_pos h55, Nat.succ_sub_succ]
    · rw [padZeros_high 64 _ (by omega) (by omega) (by omega), hlen, zeroPadding, if_neg h55, Nat.succ_sub_succ]

/-- R145: all the bytes that SHA_FINAL pads with. -/
theorem finalizeUnit_eq_foldl {u : HashState} (h : u.buflen ≤ 63) :
    finalizeUnit u =
      { (0x80#8 :: zeroPadding u.buflen ++ be64bytes (u.hcnt * 8#64)).foldl (fun u b => padByte b u) u with
        hfin := true } := by
  rw [finalizeUnit, padZeros_eq_foldl h, List.foldl_append]

section

variable {u : HashState} {block first last : Vector Byte 64}

/-- R145: with at most 55 bytes in the buffer the padding fills one block. -/
theorem finalizeUnit_oneBlock (h : u.buflen ≤ 55)
    (hblock : block.toList = u.buf.toList.take u.buflen ++
      (0x80#8 :: List.replicate (55 - u.buflen) 0x00#8 ++ be64bytes (u.hcnt * 8#64))) :
    finalizeUnit u = { h := compress u.h block, hcnt := u.hcnt, buf := block, buflen := 0, hfin := true } := by
  have hlen : u.buflen +
      (0x80#8 :: List.replicate (55 - u.buflen) 0x00#8 ++ be64bytes (u.hcnt * 8#64)).length = 64 := by
    simp [be64bytes]
    omega
  rw [finalizeUnit_eq_foldl (by omega), zeroPadding, if_pos h, foldl_padByte_full _ u (by omega) hlen,
    putBytes_tail _ _ _ block hblock (by omega) hlen]

/-- R145: with 56 to 63 bytes in the buffer the padding fills two blocks. -/
theorem finalizeUnit_twoBlocks (h56 : 56 ≤ u.buflen) (h63 : u.buflen ≤ 63)
    (hfirst : first.toList = u.buf.toList.take u.buflen ++ 0x80#8 :: List.replicate (63 - u.buflen) 0x00#8)
    (hlast : last.toList = List.replicate 56 0x00#8 ++ be64bytes (u.hcnt * 8#64)) :
    finalizeUnit u =
      { h := compress (compress u.h first) last, hcnt := u.hcnt, buf := last, buflen := 0, hfin := true } := by
  have hlen : u.buflen + (0x80#8 :: List.replicate (63 - u.buflen) 0x00#8).length = 64 := by
    simp
    omega
  have hpad : 0x80#8 :: zeroPadding u.buflen ++ be64bytes (u.hcnt * 8#64) =
      (0x80#8 :: List.replicate (63 - u.buflen) 0x00#8) ++ last.toList := by
    rw [zeroPadding, if_neg (by omega), hlast]
    simp
  rw [finalizeUnit_eq_foldl h63, hpad, List.foldl_append, foldl_padByte_full _ u (by omega) hlen,
    putBytes_tail _ _ _ first hfirst (by omega) hlen, foldl_padByte_full _ _ (by simp) (by simp),
    putBytes_zero _ _ last rfl]

end

/-- R145: the length of the message in bits. -/
theorem bitLength_eq (n : BitVec 64) : n * 8#64 = BitVec.ofNat 64 (8 * n.toNat) := by
  rw [BitVec.ofNat_mul, BitVec.ofNat_toNat, BitVec.setWidth_eq, BitVec.mul_comm]

/-- Settles O45: the padded blocks exist, being 64 bytes, and `finalizeUnit` compresses them. -/
theorem shaFinalEffect : Obligations.ShaFinalEffect := by
  intro s hf hn
  refine ⟨fun h55 => ?_, fun h56 h63 => ?_⟩
  · obtain ⟨block, hblock⟩ := exists_block (bytes := s.sha.buf.toList.take s.sha.buflen ++ [0x80#8] ++
      List.replicate (55 - s.sha.buflen) 0x00#8 ++ be64bytes (BitVec.ofNat 64 (8 * s.sha.hcnt.toNat)))
      (by simp [be64bytes]; omega)
    refine ⟨block, hblock, ?_⟩
    rw [exec_shaFinal hf hn, finalizeUnit_oneBlock h55 (by rw [hblock, bitLength_eq]; simp)]
    rfl
  · obtain ⟨first, hfirst⟩ := exists_block (bytes := s.sha.buf.toList.take s.sha.buflen ++ [0x80#8] ++
      List.replicate (63 - s.sha.buflen) 0x00#8) (by simp; omega)
    obtain ⟨last, hlast⟩ := exists_block (bytes := List.replicate 56 0x00#8 ++
      be64bytes (BitVec.ofNat 64 (8 * s.sha.hcnt.toNat))) rfl
    refine ⟨first, last, hfirst, hlast, ?_⟩
    rw [exec_shaFinal hf hn,
      finalizeUnit_twoBlocks h56 h63 (by rw [hfirst, List.append_assoc]; rfl) (by rw [hlast, bitLength_eq])]
    rfl

/-- R146, V1: the padded empty message, compressed. -/
theorem finalizeUnit_empty_h :
    (finalizeUnit HashState.fresh).h =
      #v[0xDA39A3EE#32, 0x5E6B4B0D#32, 0x3255BFEF#32, 0x95601890#32, 0xAFD80709#32] := by
  decide +kernel

/-- R146, V2: the padded message "abc", compressed. -/
theorem finalizeUnit_abc_h :
    (finalizeUnit (absorb [0x61#8, 0x62#8, 0x63#8] HashState.fresh)).h =
      #v[0xA9993E36#32, 0x4706816A#32, 0xBA3E2571#32, 0x7850C26C#32, 0x9CD0D89D#32] := by
  decide +kernel

/-- Settles O46: from the reset state the SHA unit is a fresh one, and the appends absorb "abc" (`feed_eq`). -/
theorem referenceDigests : Obligations.ReferenceDigests := by
  have habc : CanAppend State.reset (messageOf [.byte 0x61#32, .byte 0x62#32, .byte 0x63#32]).length :=
    ⟨rfl, rfl, rfl, by decide⟩
  refine ⟨?_, ?_⟩
  · rw [exec_shaFinal rfl (by decide)]
    exact finalizeUnit_empty_h
  · rw [feed_eq _ habc, exec_shaFinal rfl (by decide)]
    exact finalizeUnit_abc_h

end Sys2Proof.Proofs

/-! ### HDIN32, HDIN8 and the FILL they cause (R134 to R139) -/

namespace Sys2Proof.Proofs

open Sys2Proof.Machine Sys2Proof.Safety Sys2Proof.Laws

/-- Bytes past the end of the buffer are not stored. -/
theorem putBytes_take (bs : List Byte) (n : Nat) (buf : Vector Byte 64) :
    putBytes (bs.take (64 - n)) n buf = putBytes bs n buf := by
  refine Vector.ext fun x hx => ?_
  rw [getElem_putBytes _ _ _ _ hx, getElem_putBytes _ _ _ _ hx]
  by_cases hin : n ≤ x ∧ x < n + bs.length
  · rw [if_pos hin, if_pos (by rw [List.length_take]; omega), List.getD_eq_getElem?_getD,
      List.getD_eq_getElem?_getD, List.getElem?_take_of_lt (by omega)]
  · rw [if_neg hin, if_neg (by rw [List.length_take]; omega)]

section

variable {s : State} {bytes : List Byte} (hb : s.busy = false) (hf : s.sha.hfin = false)
  (hn : s.sha.hcnt.toNat + bytes.length ≤ lengthLimit)

include hb hf hn

/-- R137, R138: an append that leaves room in the block. -/
theorem appendBytes_room (hl : s.sha.buflen + bytes.length < 64) :
    appendBytes bytes s = .ok { s with
      sha := { s.sha with
        buf := putBytes bytes s.sha.buflen s.sha.buf, buflen := s.sha.buflen + bytes.length
        hcnt := BitVec.ofNat 64 (s.sha.hcnt.toNat + bytes.length) } } := by
  have hloop := appendUntilFull_room bytes
    { s.sha with hcnt := BitVec.ofNat 64 (s.sha.hcnt.toNat + bytes.length) } hl
  simp only [appendBytes, appendCheck_none _ s hb hf hn, hcnt_add, hloop]

/-- R137, R138: an append that fills the block. -/
theorem appendBytes_full (hlt : s.sha.buflen < 64) (hl : 64 ≤ s.sha.buflen + bytes.length) :
    appendBytes bytes s = .ok { s with
      sha := { s.sha with
        buf := putBytes bytes s.sha.buflen s.sha.buf, buflen := 64
        hcnt := BitVec.ofNat 64 (s.sha.hcnt.toNat + bytes.length) }
      pend := .fill (bytes.drop (64 - s.sha.buflen)), busy := true } := by
  have hloop := appendUntilFull_full bytes
    { s.sha with hcnt := BitVec.ofNat 64 (s.sha.hcnt.toNat + bytes.length) } hlt hl
  rw [putBytes_take] at hloop
  simp only [appendBytes, appendCheck_none _ s hb hf hn, hcnt_add, hloop]

end

/-- Settles O48: `appendBytes_room` and `appendBytes_full` for the four bytes of the word. -/
theorem hdin32Meaning : Obligations.Hdin32Meaning := by
  intro s v hb hf hn hl
  refine ⟨putBytes (hdin32Bytes v) s.sha.buflen s.sha.buf, fun x => getElem_putBytes _ _ _ x x.isLt, fun h59 => ?_,
    fun h60 => ?_⟩
  · have hroom : s.sha.buflen + 4 < 64 := by omega
    exact exec_append_ok rfl (appendBytes_room (bytes := hdin32Bytes v) hb hf hn hroom)
  · have hfull : 64 ≤ s.sha.buflen + 4 := by omega
    exact exec_append_ok rfl (appendBytes_full (bytes := hdin32Bytes v) hb hf hn (Nat.lt_succ_of_le hl) hfull)

/-- Storing one byte inside the buffer. -/
theorem putBytes_singleton (b : Byte) {n : Nat} (buf : Vector Byte 64) (h : n < 64) :
    putBytes [b] n buf = buf.set n b := by
  refine Vector.ext fun x hx => ?_
  rw [putBytes, putBytes, Vector.getElem_setIfInBounds, Vector.getElem_set]

/-- Settles O49: `appendBytes_room` and `appendBytes_full` for the low byte of the word. -/
theorem hdin8Meaning : Obligations.Hdin8Meaning := by
  intro s v hb hf hn hlt
  have hbuf := putBytes_singleton (v.extractLsb' 0 8) s.sha.buf hlt
  refine ⟨fun hroom => exec_append_ok rfl ?_, fun hlast => exec_append_ok rfl ?_⟩
  · have hroom' : s.sha.buflen + 1 < 64 := by omega
    rw [← hbuf]
    exact appendBytes_room (bytes := hdin8Bytes v) hb hf hn hroom'
  · have hfull : s.sha.buflen + 1 = 64 := by omega
    have hrest : (hdin8Bytes v).drop (64 - s.sha.buflen) = [] := by rw [hlast]; rfl
    rw [hfull, ← hrest, ← hbuf]
    exact appendBytes_full (bytes := hdin8Bytes v) hb hf hn hlt hfull.ge

/-- Settles O50, by `fillUnit_eq`. -/
theorem fillCompletion : Obligations.FillCompletion := by
  intro s ts rest ht hp _
  refine ⟨putBytes rest 0 s.sha.buf, fun x => ?_, ?_⟩
  · have hx := getElem_putBytes rest 0 s.sha.buf x x.isLt
    simp only [Nat.zero_le, true_and, Nat.zero_add, Nat.sub_zero] at hx
    exact hx
  · rw [step_engine ht, engineTurn_fill (s := { s with turns := ts }) hp, completeFill, fillUnit_eq]

/-- Settles O59: the error record by R136's checks, the rest by `appendUntilFull_frame`. -/
theorem frameOfAppends : Obligations.FrameOfAppends := by
  intro i n s t v hi he
  obtain ⟨bytes, rfl, hexec⟩ : ∃ bytes : List Byte, bytes.length = n ∧
      exec i s = .next (orRaise (appendBytes bytes s) s) := by
    rcases hi with ⟨rfl, rfl⟩ | ⟨rfl, rfl⟩
    · exact ⟨hdin32Bytes v, rfl, rfl⟩
    · exact ⟨hdin8Bytes v, rfl, rfl⟩
  obtain rfl : orRaise (appendBytes bytes s) s = t := Host.Outcome.next.inj (hexec.symm.trans he)
  obtain ⟨hh, _, hfin, hbuf⟩ :=
    appendUntilFull_frame bytes { s.sha with hcnt := s.sha.hcnt + BitVec.ofNat 64 bytes.length }
  rcases append_cases bytes s with ⟨c, _, e⟩ | ⟨_, _, _, _, ⟨_, e⟩ | ⟨rest, _, e⟩⟩ <;> rw [e]
  · exact ⟨rfl, rfl, rfl, rfl, rfl, rfl, rfl, rfl, rfl, rfl, fun _ _ => rfl, .inr ⟨rfl, rfl, rfl, rfl⟩⟩
  · exact ⟨rfl, hh, hfin, rfl, rfl, rfl, rfl, rfl, rfl, rfl, hbuf, .inl ⟨rfl, rfl⟩⟩
  · exact ⟨rfl, hh, hfin, rfl, rfl, rfl, rfl, rfl, rfl, rfl, hbuf, .inl ⟨rfl, rfl⟩⟩

end Sys2Proof.Proofs

/-! ### The number-theory commands (R170 to R195) -/

namespace Sys2Proof.Proofs

open Sys2Proof.Machine Sys2Proof.Laws

/-! #### Command words -/

/-- R97: the command word of a row with neither RS3 nor CHK. -/
theorem commandWord_withoutRs3 (op : BitVec 8) (a b c : BReg) :
    commandWord op a b c 0 false =
      BitVec.ofNat 32 (op.toNat + a.val * 2 ^ 8 + b.val * 2 ^ 12 + c.val * 2 ^ 16) := by
  rw [commandWord_eq_ofNat, Fin.val_zero, Bool.toNat_false, zero_mul, zero_mul, add_zero, add_zero]

/-! #### Exponents modulo a prime (R194) -/

/-- Fermat's little theorem as R194 uses it: positive exponents that agree modulo p − 1 give the same power, also of a
base that p divides. -/
theorem pow_modEq_pow {p x y : Nat} (hp : p.Prime) (h : y ≡ x [MOD p - 1]) (hle : y ≤ x) (hy : 0 < y) (c : Nat) :
    c ^ x ≡ c ^ y [MOD p] := by
  rw [← Int.natCast_modEq_iff, Nat.cast_pow, Nat.cast_pow]
  exact Int.ModEq.pow_eq_pow hp ((Nat.modEq_iff_dvd' hle).mp h) hle hy c

/-- A factor of a unit modulo m > 1 is not a multiple of m. -/
theorem mod_pos_of_mul_modEq_one {m e d : Nat} (hm : 1 < m) (h : e * d ≡ 1 [MOD m]) : 0 < d % m := by
  refine Nat.pos_of_ne_zero fun h0 => ?_
  have hdvd : m ∣ e * d := (Nat.dvd_of_mod_eq_zero h0).mul_left e
  exact hm.ne' (Nat.dvd_one.mp ((h.dvd_iff dvd_rfl).mp hdvd))

section

variable {p e d : Nat} (hp : p.Prime) (hp2 : p ≠ 2) (hed : e * d ≡ 1 [MOD p - 1])

include hp hp2

/-- The condition of R194 that both primes are odd, as its proof needs it. -/
theorem one_lt_pred_of_odd_prime : 1 < p - 1 := by
  have := hp.two_le
  omega

include hed

/-- R194: the reduced exponent d_p gives the power that d gives. -/
theorem pow_reduced_modEq (c : Nat) : c ^ (d % (p - 1)) ≡ c ^ d [MOD p] :=
  (pow_modEq_pow hp (Nat.mod_modEq _ _) (Nat.mod_le _ _)
    (mod_pos_of_mul_modEq_one (one_lt_pred_of_odd_prime hp hp2) hed) c).symm

/-- R194: raising to e·d gives back the base. -/
theorem pow_mul_modEq_self (u : Nat) : u ^ (e * d) ≡ u [MOD p] := by
  have hpos : 0 < e * d % (p - 1) :=
    mod_pos_of_mul_modEq_one (one_lt_pred_of_odd_prime hp hp2) (by rw [one_mul]; exact hed)
  simpa using pow_modEq_pow hp hed.symm (hpos.trans_le (Nat.mod_le _ _)) Nat.one_pos u

end

/-! #### The recombination of the two arms (R190) -/

/-- R190: the number that CRT_DEC reduces modulo n is m1 modulo p. -/
theorem crtCombine_modEq_m1 {o : CrtOperands} (hp : o.p ≠ 0) (hinv : o.qinv * o.q ≡ 1 [MOD o.p]) :
    crtM2 o + crtH o * o.q ≡ crtM1 o [MOD o.p] := by
  have hinv' : (o.qinv : Int) * o.q ≡ 1 [ZMOD o.p] := by exact_mod_cast Int.natCast_modEq_iff.mpr hinv
  have hh : (crtH o : Int) ≡ o.qinv * (crtM1 o - crtM2 o) [ZMOD o.p] := by
    rw [crtH, floorMod_cast _ _ hp]
    exact Int.mod_modEq _ _
  rw [← Int.natCast_modEq_iff]
  push_cast
  calc (crtM2 o + crtH o * o.q : Int)
      ≡ crtM2 o + o.qinv * (crtM1 o - crtM2 o) * o.q [ZMOD o.p] := (hh.mul_right _).add_left _
    _ = crtM2 o + (crtM1 o - crtM2 o) * (o.qinv * o.q) := by ring
    _ ≡ crtM2 o + (crtM1 o - crtM2 o) * 1 [ZMOD o.p] := (hinv'.mul_left _).add_left _
    _ = crtM1 o := by ring

/-- R190: CRT_DEC's result is the one number modulo n with the residues of the two arms. -/
theorem crtResult_eq {o : CrtOperands} {x : Nat} (hp : o.p ≠ 0) (hpq : o.p.Coprime o.q)
    (hinv : o.qinv * o.q ≡ 1 [MOD o.p]) (h1 : o.c ^ o.dp ≡ x [MOD o.p]) (h2 : o.c ^ o.dq ≡ x [MOD o.q]) :
    crtResult o = x % (o.p * o.q) := by
  refine (Nat.modEq_and_modEq_iff_modEq_mul hpq).mp ⟨(crtCombine_modEq_m1 hp hinv).trans ?_, ?_⟩
  · rw [crtM1, powMod_eq]
    exact (Nat.mod_modEq _ _).trans h1
  · have hm2 : crtM2 o + crtH o * o.q ≡ crtM2 o [MOD o.q] := Nat.add_mul_mod_self_right _ _ _
    refine hm2.trans ?_
    rw [crtM2, powMod_eq]
    exact (Nat.mod_modEq _ _).trans h2

/-! #### The key invariants of R194 -/

/-- R194's key invariants, for the encryption exponent e and the decryption exponent d. -/
structure ConsistentKey (e d : Nat) (o : CrtOperands) : Prop where
  prime_p : o.p.Prime
  prime_q : o.q.Prime
  p_ne_q : o.p ≠ o.q
  p_ne_two : o.p ≠ 2
  q_ne_two : o.q ≠ 2
  exponents : e * d ≡ 1 [MOD Nat.lcm (o.p - 1) (o.q - 1)]
  dp_eq : o.dp = d % (o.p - 1)
  dq_eq : o.dq = d % (o.q - 1)
  qinv_mul : o.qinv * o.q ≡ 1 [MOD o.p]

namespace ConsistentKey

variable {e d : Nat} {o : CrtOperands} (h : ConsistentKey e d o)

include h

theorem coprime : o.p.Coprime o.q := (Nat.coprime_primes h.prime_p h.prime_q).mpr h.p_ne_q

theorem exponents_p : e * d ≡ 1 [MOD o.p - 1] := h.exponents.of_dvd (Nat.dvd_lcm_left _ _)

theorem exponents_q : e * d ≡ 1 [MOD o.q - 1] := h.exponents.of_dvd (Nat.dvd_lcm_right _ _)

/-- R194: CRT decryption is the full exponentiation. -/
theorem crtResult_eq_pow : crtResult o = o.c ^ d % (o.p * o.q) := by
  refine crtResult_eq h.prime_p.ne_zero h.coprime h.qinv_mul ?_ ?_
  · rw [h.dp_eq]
    exact pow_reduced_modEq h.prime_p h.p_ne_two h.exponents_p o.c
  · rw [h.dq_eq]
    exact pow_reduced_modEq h.prime_q h.q_ne_two h.exponents_q o.c

/-- R194: raising to e·d gives back every number modulo n. -/
theorem pow_mul_modEq_self (u : Nat) : u ^ (e * d) ≡ u [MOD o.p * o.q] :=
  (Nat.modEq_and_modEq_iff_modEq_mul h.coprime).mp
    ⟨Proofs.pow_mul_modEq_self h.prime_p h.p_ne_two h.exponents_p u,
      Proofs.pow_mul_modEq_self h.prime_q h.q_ne_two h.exponents_q u⟩

/-- R194: CRT decryption undoes the encryption of every u < n. -/
theorem crtResult_of_encrypted {u : Nat} (hu : u < o.p * o.q) (hc : o.c = u ^ e % (o.p * o.q)) : crtResult o = u :=
  calc crtResult o
      = (u ^ e % (o.p * o.q)) ^ d % (o.p * o.q) := by rw [h.crtResult_eq_pow, hc]
    _ = u ^ (e * d) % (o.p * o.q) := by rw [← Nat.pow_mod, ← pow_mul]
    _ = u % (o.p * o.q) := h.pow_mul_modEq_self u
    _ = u := Nat.mod_eq_of_lt hu

end ConsistentKey

/-! #### CRT_DEC (R190, R191, R195) -/

/-- R191: when every check of CRT_DEC passes. -/
theorem crtCheck_none {opw : Nat} {chk : Bool} {o : CrtOperands} (hp : o.p ≠ 0) (hq : o.q ≠ 0)
    (hn : o.p * o.q ≤ 2 ^ opw) (hc : chk = true → o.c < o.p * o.q) : crtCheck opw chk o = none := by
  have hzero : ¬(o.p = 0 ∨ o.q = 0) := by simp [hp, hq]
  rw [crtCheck, if_neg hzero, if_neg (not_lt.mpr hn), if_neg fun hlt => not_le.mpr (hc hlt.1) hlt.2]

/-- R190: CRT_DEC when no check fails. -/
theorem exec_crtDec {s : State} {x k : BReg} {chk : Bool} (rd : BReg) (hk : k.val ≤ maxBank)
    (hc : crtCheck s.cfg.opwBits chk (crtOperands x k s) = none) :
    exec (.crtDec rd x k chk) s = .next (finishCommand (writeBig rd (crtResult (crtOperands x k s)) s)) :=
  exec_command_ok rfl (by rw [bodyOf, crtDecBody, if_neg (not_lt.mpr hk), hc])

/-- Settles O57: the key bank holds a `ConsistentKey`, so the result is `crtResult_eq_pow` and
`crtResult_of_encrypted`. -/
theorem crtDecEqualsFullExponentiation : Obligations.CrtDecEqualsFullExponentiation := by
  intro s rd x k p q d e hk hp hq hne hp2 hq2 hed hkp hkq hdp hdq hqinv hn
  have hops : crtOperands x k s =
      ⟨operand s x, p, q, d % (p - 1), d % (q - 1), operand s (Fin.ofNat 16 (k.val + 4))⟩ := by
    rw [← hdp, ← hdq, ← hkq, ← hkp]
    rfl
  have hkey : ConsistentKey e d (crtOperands x k s) := by
    rw [hops]
    exact ⟨hp, hq, hne, hp2, hq2, hed, rfl, rfl, hqinv.trans (Nat.mod_eq_of_lt hp.one_lt).symm⟩
  have hcheck (chk : Bool) (hchk : chk = true → operand s x < p * q) :
      crtCheck s.cfg.opwBits chk (crtOperands x k s) = none := by
    rw [hops]
    exact crtCheck_none hp.ne_zero hq.ne_zero hn hchk
  refine ⟨?_, fun u hu hc => ?_⟩
  · rw [exec_crtDec rd hk (hcheck false nofun), hkey.crtResult_eq_pow, hops]
    rfl
  · have hlt : operand s x < p * q := hc ▸ Nat.mod_lt _ (Nat.mul_pos hp.pos hq.pos)
    rw [exec_crtDec rd hk (hcheck true fun _ => hlt),
      hkey.crtResult_of_encrypted (u := u) (by rw [hops]; exact hu) (by rw [hops]; exact hc)]
    rfl

/-! #### MODEXP (R170, R171) -/

section

variable {s : State} (rd : BReg) {x y z : BReg} {chk : Bool}

theorem exec_modexp_zero (hm : operand s z = 0) :
    exec (.modexp rd x y z chk) s = .next (finishCommand (raiseError .modulusZero s)) :=
  exec_command_error rfl (by rw [bodyOf, modexpBody, if_pos hm])

theorem exec_modexp_outOfRange (hm : operand s z ≠ 0) (hchk : chk = true) (hx : operand s z ≤ operand s x) :
    exec (.modexp rd x y z chk) s = .next (finishCommand (raiseError .unitOutOfRange s)) :=
  exec_command_error rfl (by rw [bodyOf, modexpBody, if_neg hm, if_pos ⟨hchk, hx⟩])

/-- R170: MODEXP when no check fails. -/
theorem exec_modexp (hm : operand s z ≠ 0) (hx : chk = true → operand s x < operand s z) :
    exec (.modexp rd x y z chk) s =
      .next (finishCommand (writeBig rd (operand s x ^ operand s y % operand s z) s)) :=
  exec_command_ok rfl (by
    rw [bodyOf, modexpBody, if_neg hm, if_neg fun h => not_le.mpr (hx h.1) h.2, powMod_eq])

end

/-- Settles O53: one equation of `exec` for each check, and `exec_modexp` when none fails. -/
theorem modexpMeaning : Obligations.ModexpMeaning := fun _ rd x y z chk =>
  ⟨congrArg Code.command (commandWord_eq_ofNat opModexp rd x y z chk),
    exec_modexp_zero rd, exec_modexp_outOfRange rd, exec_modexp rd⟩

/-! #### MODINV (R174, R175) -/

section

variable {s : State} (rd : BReg) {x y : BReg}

theorem exec_modinv_zero (hm : operand s y = 0) :
    exec (.modinv rd x y) s = .next (finishCommand (raiseError .modulusZero s)) :=
  exec_command_error rfl (by rw [bodyOf, modinvBody, if_pos hm])

theorem exec_modinv_nonInvertible (hm : operand s y ≠ 0) (hg : Nat.gcd (operand s x) (operand s y) ≠ 1) :
    exec (.modinv rd x y) s = .next (finishCommand (raiseError .nonInvertible s)) :=
  exec_command_error rfl (by rw [bodyOf, modinvBody, if_neg hm, if_pos hg])

/-- R174: MODINV when no check fails. -/
theorem exec_modinv (hm : operand s y ≠ 0) (hg : Nat.gcd (operand s x) (operand s y) = 1) :
    exec (.modinv rd x y) s = .next (finishCommand (writeBig rd (modInverse (operand s x) (operand s y)) s)) :=
  exec_command_ok rfl (by rw [bodyOf, modinvBody, if_neg hm, if_neg (not_not.mpr hg)])

end

/-- R174: at most one number below m is an inverse of a. -/
theorem inverse_unique {a m x y : Nat} (hg : Nat.gcd a m = 1) (hx : x < m) (hy : y < m)
    (h : a * x ≡ a * y [MOD m]) : x = y :=
  (h.cancel_left_of_coprime (Nat.gcd_comm m a ▸ hg)).eq_of_lt_of_lt hx hy

/-- Settles O54: the result is `modInverse`, an inverse by `modInverse_spec` and the only one by `inverse_unique`. -/
theorem modinvMeaning : Obligations.ModinvMeaning := by
  intro s rd x y
  refine ⟨congrArg Code.command (commandWord_withoutRs3 opModinv rd x y), exec_modinv_zero rd,
    exec_modinv_nonInvertible rd, fun hm hg => ?_⟩
  have hinv := modInverse_spec (operand s x) (operand s y) hm hg
  exact ⟨modInverse (operand s x) (operand s y), modInverse_lt _ _ hm, hinv,
    fun n hn hmul => inverse_unique hg hn (modInverse_lt _ _ hm) (hmul.trans hinv.symm), exec_modinv rd hm hg⟩

/-! #### GCD (R178) -/

/-- R178: GCD has no check. -/
theorem exec_gcd (s : State) (rd x y : BReg) :
    exec (.gcd rd x y) s = .next (finishCommand (writeBig rd (Nat.gcd (operand s x) (operand s y)) s)) :=
  exec_command_ok rfl rfl

/-- Settles O55, by `exec_gcd` and the divisibility facts about `Nat.gcd`. -/
theorem gcdMeaning : Obligations.GcdMeaning := fun s rd x y =>
  ⟨congrArg Code.command (commandWord_withoutRs3 opGcd rd x y),
    Nat.gcd (operand s x) (operand s y), exec_gcd s rd x y, Nat.gcd_dvd_left _ _, Nat.gcd_dvd_right _ _,
    fun _ => Nat.dvd_gcd, fun hx hy => Nat.gcd_eq_zero_iff.mpr ⟨hx, hy⟩⟩

end Sys2Proof.Proofs

/-! ### CRT_DEC's checks and formula (R190, R191) -/

namespace Sys2Proof.Proofs

open Sys2Proof.Machine Sys2Proof.Laws

/-- R97: the command word of a row without RS3. -/
theorem commandWord_withChk (op : BitVec 8) (a b c : BReg) (chk : Bool) :
    commandWord op a b c 0 chk = BitVec.ofNat 32
      (op.toNat + a.val * 2 ^ 8 + b.val * 2 ^ 12 + c.val * 2 ^ 16 + chk.toNat * 2 ^ 24) := by
  rw [commandWord_eq_ofNat, Fin.val_zero, zero_mul, add_zero]

/-! #### The first failing check -/

section

variable {opw : Nat} {chk : Bool} {o : CrtOperands}

theorem crtCheck_modulusZero (h : o.p = 0 ∨ o.q = 0) : crtCheck opw chk o = some .modulusZero := by
  rw [crtCheck, if_pos h]

theorem crtCheck_resultWidth (hp : o.p ≠ 0) (hq : o.q ≠ 0) (hn : 2 ^ opw < o.p * o.q) :
    crtCheck opw chk o = some .resultWidth := by
  rw [crtCheck, if_neg (not_or.mpr ⟨hp, hq⟩), if_pos hn]

theorem crtCheck_unitOutOfRange (hp : o.p ≠ 0) (hq : o.q ≠ 0) (hn : o.p * o.q ≤ 2 ^ opw) (hchk : chk = true)
    (hc : o.p * o.q ≤ o.c) : crtCheck opw chk o = some .unitOutOfRange := by
  rw [crtCheck, if_neg (not_or.mpr ⟨hp, hq⟩), if_neg (not_lt.mpr hn), if_pos ⟨hchk, hc⟩]

end

/-- R191: CRT_DEC with a failing check. -/
theorem exec_crtDec_error {s : State} {x k : BReg} {chk : Bool} {e : ErrorCode} (rd : BReg) (hk : k.val ≤ maxBank)
    (hc : crtCheck s.cfg.opwBits chk (crtOperands x k s) = some e) :
    exec (.crtDec rd x k chk) s = .next (finishCommand (raiseError e s)) :=
  exec_command_error rfl (by rw [bodyOf, crtDecBody, if_neg (not_lt.mpr hk), hc])

/-- R190: the result as the formula in exact powers, with the floored remainder of the signed difference. -/
theorem crtResult_eq_formula (o : CrtOperands) :
    crtResult o = (o.c ^ o.dq % o.q +
      floorMod (o.qinv * ((o.c ^ o.dp % o.p : Nat) - (o.c ^ o.dq % o.q : Nat))) o.p * o.q) % (o.p * o.q) := by
  rw [crtResult, crtH, crtM1, crtM2, powMod_eq, powMod_eq]

/-- Settles O56: one case of `crtCheck` for each check, and `crtResult_eq_formula` when none fails. -/
theorem crtDecMeaning : Obligations.CrtDecMeaning := by
  intro s rd x k chk hk
  refine ⟨congrArg Code.command (commandWord_withChk opCrtDec rd x k chk), fun hzero => ?_, fun hp hq hn => ?_,
    fun hp hq hn hchk hc => ?_, fun hp hq hn hc => ?_⟩
  · exact exec_crtDec_error rd hk (crtCheck_modulusZero hzero)
  · exact exec_crtDec_error rd hk (crtCheck_resultWidth hp hq hn)
  · exact exec_crtDec_error rd hk (crtCheck_unitOutOfRange hp hq hn hchk hc)
  · rw [exec_crtDec rd hk (crtCheck_none hp hq hn hc), crtResult_eq_formula]
    rfl

end Sys2Proof.Proofs

/-! ### The error record and IRQ_EN (R24, R25, R204, R209, R212) -/

namespace Sys2Proof.Proofs

open Sys2Proof.Machine Sys2Proof.Safety Sys2Proof.Laws

/-! #### Failing again (R204) -/

/-- R204, R206: recording an error and the end of a command are all that a failing instruction does, so with the record
cleared and the bookkeeping taken back the state is the one it started from. -/
theorem undo_failure {i : Instr} {s t : State} {c : ErrorCode} (he : s.err = false) (hcode : s.errcode = 0#8)
    (hb : bodyOf i s = .error c) (h : exec i s = .next t) :
    ({ clearError t with done := s.done, pend := s.pend, busy := s.busy } : State) = s := by
  have hclear : ({ s with err := false, errcode := 0#8 } : State) = s := by rw [← he, ← hcode]
  rcases exec_of_error hb h with ⟨_, rfl⟩ | ⟨_, rfl⟩
  · exact hclear
  · exact hclear

/-- Settles O19: the code is the one the body raises, and the reissue starts from the same state (`undo_failure`). -/
theorem errorRecording : Obligations.ErrorRecording := by
  refine ⟨fun c s => rfl, fun i s t he hcode h ht => ?_⟩
  obtain ⟨c, hb⟩ := bodyOf_error_of_exec h he ht
  refine ⟨c, ?_, by rw [undo_failure he hcode hb h, h]⟩
  rcases exec_of_error hb h with ⟨_, rfl⟩ | ⟨_, rfl⟩ <;> exact if_pos hcode

/-! #### What keeps IRQ_EN and the error record -/

/-- From `s` to `t` IRQ_EN stays as it is, and so do ERR and ERRCODE where an error is recorded. -/
structure KeepsControl (s t : State) : Prop where
  irqEn : t.irqEn = s.irqEn
  record : s.err = true → s.errcode ≠ 0#8 → t.err = true ∧ t.errcode = s.errcode

/-- Whatever leaves the three fields alone. -/
theorem keepsControl_of_eq {s t : State} (hirq : t.irqEn = s.irqEn) (herr : t.err = s.err)
    (hcode : t.errcode = s.errcode) : KeepsControl s t :=
  ⟨hirq, fun he _ => ⟨herr.trans he, hcode⟩⟩

/-- R204: the first code is kept. -/
theorem keepsControl_raiseError (c : ErrorCode) (s : State) : KeepsControl s (raiseError c s) :=
  ⟨rfl, fun _ hcode => ⟨rfl, if_neg hcode⟩⟩

/-- R113: no completion clears an error. -/
theorem keepsControl_engineTurn {s t : State} (h : engineTurn s = .next t) : KeepsControl s t := by
  have hfail (c : ErrorCode) : KeepsControl s (finishCommand (raiseError c s)) :=
    ⟨rfl, (keepsControl_raiseError c s).record⟩
  rcases engineTurn_cases s with ⟨_, e⟩ | ⟨_, _, e⟩ | ⟨_, _, _, _, _, e⟩ | ⟨w, latched, i, _, hd, e⟩ <;> rw [e] at h
  · cases h; exact keepsControl_of_eq rfl rfl rfl
  · cases h; exact keepsControl_of_eq rfl rfl rfl
  · cases h; exact hfail .illegalCmd
  · rcases command_cases i s t (isAppend_of_decodeCommand hd) h with ⟨c, _, rfl⟩ | ⟨u, hu, rfl⟩
    · exact hfail c
    · cases hu with
      | big rd v _ _ => exact keepsControl_of_eq rfl rfl rfl
      | sha u _ _ _ _ => exact keepsControl_of_eq rfl rfl rfl

/-- R136 to R138: an append can only record an error. -/
theorem keepsControl_append (bytes : List Byte) (s : State) (hl : bytes.length ≤ 4) :
    KeepsControl s (orRaise (appendBytes bytes s) s) := by
  rcases append_effect bytes s hl with ⟨c, _, e⟩ | ⟨_, _, u, _, _, ⟨e, _⟩ | ⟨rest, e, _⟩⟩ <;> rw [e]
  · exact keepsControl_raiseError c s
  · exact keepsControl_of_eq rfl rfl rfl
  · exact keepsControl_of_eq rfl rfl rfl

/-- R112: a CMD write, accepted or dropped. -/
theorem keepsControl_submitCommand (v : Word) (s : State) : KeepsControl s (submitCommand v s) := by
  unfold submitCommand
  split
  · exact keepsControl_raiseError .busy s
  · exact keepsControl_of_eq rfl rfl rfl

/-- R25: a STATUS write without bit 2. -/
theorem keepsControl_writeStatus {v : Word} (s : State) (h2 : v.getLsbD 2 = false) :
    KeepsControl s (writeStatus v s) := by
  rw [writeStatus_eq, h2]
  exact keepsControl_of_eq rfl (Bool.and_true _) rfl

/-- R67: a data write, made or dropped. -/
theorem keepsControl_writeData {f : State → State} {s : State} (hf : KeepsControl s (f s)) :
    KeepsControl s (writeData f s) := by
  unfold writeData
  split
  · exact keepsControl_raiseError .busy s
  · exact hf

/-- R67: of the register writes only those of CTRL and STATUS can do otherwise. -/
theorem keepsControl_writeReg (r : RegName) (v : Word) (s : State) (h1 : r ≠ .hdin32) (h2 : r ≠ .hdin8) :
    KeepsControl s (writeReg r v s) ∨ r = .ctrl ∨ r = .status := by
  rcases writeReg_cases r v s h1 h2 with ⟨hr, e⟩ | ⟨hr, e⟩ | ⟨_, e⟩ | ⟨f, _, e⟩ | ⟨i, j, _, e⟩ | e <;> rw [e]
  · exact .inr (.inl hr)
  · exact .inr (.inr hr)
  · exact .inl (keepsControl_submitCommand v s)
  · exact .inl (keepsControl_writeData (keepsControl_of_eq rfl rfl rfl))
  · exact .inl (keepsControl_writeData (keepsControl_of_eq rfl rfl rfl))
  · exact .inl (keepsControl_of_eq rfl rfl rfl)

/-- What a step does to IRQ_EN and the error record: it keeps them, or it is a hardware reset, a CTRL write or a STATUS
write (R24, R25, R230). -/
theorem step_control_cases {s t : State} (he : step s = .next t) :
    KeepsControl s t ∨ (∃ p ts, s.turns = .reset p :: ts) ∨
    (∃ v ts, s.turns = .host (fullWrite 0x008#14 v) :: ts ∧
      t = { writeCtrl v { s with turns := ts } with reply := some (.write false) }) ∨
    (∃ v ts, s.turns = .host (fullWrite 0x00C#14 v) :: ts ∧
      t = { writeStatus v { s with turns := ts } with reply := some (.write false) }) := by
  rcases step_cases he with ⟨p, ts, ht, _⟩ | ⟨tr, ts, ht, e⟩ | ⟨_, e⟩
  · exact .inr (.inl ⟨p, ts, ht⟩)
  · rcases hostTurn_next_cases e with ⟨r, n, rfl⟩ | ⟨a, v, rfl, ha, h1, h2, rfl⟩ | ⟨bytes, hl, rfl⟩
    · exact .inl (keepsControl_of_eq rfl rfl rfl)
    · rcases keepsControl_writeReg _ v { s with turns := ts } h1 h2 with hkeep | hr | hr
      · exact .inl ⟨hkeep.irqEn, hkeep.record⟩
      · obtain rfl : a = 0x008#14 := BitVec.eq_of_toNat_eq (isAt_of_regAt ha hr)
        exact .inr (.inr (.inl ⟨v, ts, ht, by rw [hr, writeReg]⟩))
      · obtain rfl : a = 0x00C#14 := BitVec.eq_of_toNat_eq (isAt_of_regAt ha hr)
        exact .inr (.inr (.inr ⟨v, ts, ht, by rw [hr, writeReg]⟩))
    · have hkeep := keepsControl_append bytes { s with turns := ts, reply := some (.write false) } hl
      exact .inl ⟨hkeep.irqEn, hkeep.record⟩
  · have hkeep := keepsControl_engineTurn e
    exact .inl ⟨hkeep.irqEn, hkeep.record⟩

/-- Settles O21: a CTRL write without SRST and a STATUS write without bit 2 leave the error record alone. -/
theorem errorRecordIsSticky : Obligations.ErrorRecordIsSticky := by
  intro s t herr hcode he
  rcases step_control_cases he with hkeep | hreset | ⟨v, ts, ht, rfl⟩ | ⟨v, ts, ht, rfl⟩
  · exact .inl (hkeep.record herr hcode)
  · exact .inr (.inl hreset)
  · cases h31 : v.getLsbD 31 with
    | true => exact .inr (.inr (.inr ⟨v, ts, ht, h31⟩))
    | false =>
      rw [writeCtrl_noReset _ h31]
      exact .inl ⟨herr, rfl⟩
  · cases h2 : v.getLsbD 2 with
    | true => exact .inr (.inr (.inl ⟨v, ts, ht, h2⟩))
    | false =>
      have hkeep := keepsControl_writeStatus { s with turns := ts } h2
      exact .inl (hkeep.record herr hcode)

/-- Settles O22: of the turns in `step_control_cases` a STATUS write does not reach IRQ_EN. -/
theorem irqEnableChanges : Obligations.IrqEnableChanges := by
  intro s t he
  rcases step_control_cases he with hkeep | hreset | ⟨v, ts, ht, _⟩ | ⟨v, ts, _, rfl⟩
  · exact .inl hkeep.irqEn
  · exact .inr (.inl hreset)
  · exact .inr (.inr ⟨v, ts, ht⟩)
  · exact .inl (by rw [writeStatus_eq])

end Sys2Proof.Proofs

/-! ### The two resets (R230, R232)

The obligations are settled in a namespace `Reset`, so that outside it `hardwareReset` and `softReset` keep naming the
model's operations. -/

namespace Sys2Proof.Proofs

open Sys2Proof.Machine Sys2Proof.Safety Sys2Proof.Laws

/-! #### The hardware reset -/

/-- R230: the buffer of a fresh SHA unit is all zero. -/
theorem fresh_buf (x : Fin 64) : HashState.fresh.buf[x] = 0#8 := Vector.getElem_replicate x.isLt

/-- R230: a read presented while rst_n = 0 is answered with 0. -/
theorem resetTurn_reply_read {tr : Transfer} (hw : tr.write = false) (s : State) :
    ∃ e, (resetTurn (some tr) s).reply = some (.read 0#32 e) := by
  rw [resetTurn, presentInReset, hw]
  exact ⟨_, rfl⟩

namespace Reset

/-- Settles O37: the turn is `hardwareReset` but for the answer and its draw, so every field is the one of
`State.afterReset`. -/
theorem hardwareReset : Obligations.HardwareReset := by
  intro s ts presented ht
  have hreply : ∀ tr, presented = some tr → tr.write = false →
      ∃ e, (resetTurn presented { s with turns := ts }).reply = some (.read 0#32 e) := by
    rintro tr rfl hw
    exact resetTurn_reply_read hw _
  refine ⟨_, step_reset ht, ?_⟩
  obtain ⟨r, n, e⟩ := resetTurn_eq presented { s with turns := ts }
  rw [e] at hreply ⊢
  exact ⟨rfl, rfl, rfl, rfl, rfl, rfl, rfl, rfl, rfl, rfl, rfl, fresh_buf, drawBank_lt s.cfg s.draws, rfl, rfl,
    paramWord_eq s.cfg, rfl, rfl, hreply⟩

end Reset

/-! #### The soft reset -/

/-- R232: an abort leaves the destination of a pending legal command unspecified. -/
theorem abortedDest_command {w : Word} {latched : Latched} {i : Instr} (hd : decodeCommand w = .ok i) :
    abortedDest (.command w latched) = destReg i := by
  rw [abortedDest, hd]

/-- R232: with no legal big-number command pending, an abort leaves no register unspecified. -/
theorem abortedDest_eq_none {p : Pending}
    (h : ∀ w latched i, p = .command w latched → decodeCommand w = .ok i →
      i = .shaInit ∨ i = .shaCompress ∨ i = .shaFinal) : abortedDest p = none := by
  rw [Option.eq_none_iff_forall_ne_some]
  intro rd hdest
  obtain ⟨w, latched, i, hp, hd, hi⟩ := abortedDest_eq_some hdest
  rcases h w latched i hp hd with rfl | rfl | rfl <;> exact nomatch hi

/-- R232: an abort with nothing to leave unspecified keeps B0..B15. -/
theorem softReset_of_noDest {s : State} (h : abortedDest s.pend = none) :
    softReset s =
      { s with
        pend := .none, busy := false, irqEn := false, done := false, err := false, errcode := 0#8, lastcmd := 0#32
        sha := HashState.fresh } := by
  rw [softReset, h]

/-- R232: an aborted destination takes the next free value, and the other big registers are kept. -/
theorem softReset_of_dest {s : State} {rd : BReg} (h : abortedDest s.pend = some rd) :
    softReset s =
      { s with
        pend := .none, busy := false, irqEn := false, done := false, err := false, errcode := 0#8, lastcmd := 0#32
        sha := HashState.fresh, b := s.b.set rd (drawBig s.cfg s.draws), draws := s.draws + 1 } := by
  rw [softReset, h]
  rfl

/-- R24, R232: the turn of a CTRL write with bit 31 set is a soft reset. -/
theorem step_softReset {s : State} {ts : List Turn} {v : Word} (ht : s.turns = .host (fullWrite 0x008#14 v) :: ts)
    (hv : v.getLsbD 31 = true) :
    step s = .next { softReset { s with turns := ts } with reply := some (.write false) } := by
  rw [step_write_register (r := .ctrl) ht nofun nofun nofun rfl, writeReg, writeCtrl, if_pos hv]

namespace Reset

/-- Settles O39: the step is `softReset`, which does one thing for a pending command with a destination and another for
everything else that can pend. -/
theorem softReset : Obligations.SoftReset := by
  intro s ts v ht hv
  refine ⟨fun w latched rd hp hform => ?_, fun hsha => ?_⟩
  · have hdest : abortedDest s.pend = some rd := by
      obtain ⟨i, hd, hi⟩ : ∃ i, decodeCommand w = .ok i ∧ destReg i = some rd := by
        rcases hform with ⟨_, _, _, _, hd⟩ | ⟨_, _, hd⟩ | ⟨_, _, hd⟩ | ⟨_, _, _, hd⟩ <;> exact ⟨_, hd, rfl⟩
      rw [hp, abortedDest_command hd, hi]
    refine ⟨drawBig s.cfg s.draws, drawBig_lt s.cfg s.draws, ?_⟩
    rw [step_softReset ht hv, softReset_of_dest (s := { s with turns := ts }) hdest]
    rfl
  · rw [step_softReset ht hv, softReset_of_noDest (s := { s with turns := ts }) (abortedDest_eq_none hsha)]
    rfl

end Reset

end Sys2Proof.Proofs

/-! ### Sample command words (R97), the state the machine starts in (R230), and the placed instruction -/

namespace Sys2Proof.Proofs

open Sys2Proof.Machine Sys2Proof.Laws

/-- Settles O1: each word is the one the encoder makes of the instruction, which the decoder reads back. -/
theorem sampleWordsDecode : Obligations.SampleWordsDecode :=
  ⟨decodeEncodeAgree .shaInit rfl, decodeEncodeAgree .shaCompress rfl, decodeEncodeAgree .shaFinal rfl,
    decodeEncodeAgree (.modexp 3 0 1 2 true) rfl, decodeEncodeAgree (.modexp 15 15 15 15 true) rfl,
    decodeEncodeAgree (.modinv 3 0 1) rfl, decodeEncodeAgree (.gcd 5 6 7) rfl,
    decodeEncodeAgree (.crtDec 4 3 8 true) rfl, decodeEncodeAgree (.crtDec 0 0 11 true) rfl⟩

/-- Settles O38: every field is the one written in `State.afterReset`. -/
theorem resetState : Obligations.ResetState :=
  ⟨rfl, rfl, rfl, rfl, rfl, rfl, rfl, rfl, rfl, rfl, rfl, rfl, rfl, rfl⟩

/-- Settles O10: whichever turn is taken, it answers (`step_next`). -/
theorem everyStepAnswersNext : Obligations.EveryStepAnswersNext := step_next

/-- A table word stands for what the decoder reads from its code. -/
theorem decodeTableWord_eq_some_iff {nbits w : Nat} {i : Instr} :
    decodeTableWord nbits w = some i ↔ decode (tableCode nbits w) = .ok i := by
  rw [decodeTableWord]
  cases decode (tableCode nbits w) <;> simp

/-- R96: the append ports are at word-aligned offsets. -/
theorem addr_aligned_of_decode {a : Addr} {v : Word} {i : Instr} (h : decode (.busWrite a v) = .ok i) :
    a.toNat % 4 = 0 := by
  obtain ⟨rfl, _⟩ | ⟨rfl, _⟩ := decode_busWrite_eq_ok_iff.mp h <;> rfl

/-- The step after placing a code that decodes runs its instruction: a command word is accepted with the ENGINE to
move, a bus write is legal and next in line. -/
theorem step_placeCode (s : State) {c : Code} {i : Instr} (h : decode c = .ok i) :
    step (placeCode s c) = exec i (afterFetch (placeCode s c)) := by
  obtain ⟨hengine, -, hhost⟩ := stepRunsDecodedInstruction (placeCode s c) i
  cases c with
  | command w => exact hengine s.turns w (latch w s.b) rfl rfl h
  | busWrite a v => exact hhost s.turns a v rfl (addr_aligned_of_decode h) h

/-- Settles O8: what a table word places is its code (`step_placeCode`). -/
theorem placedWordRunsNext : Obligations.PlacedWordRunsNext := fun s _ _ _ h =>
  step_placeCode s (decodeTableWord_eq_some_iff.mp h)

end Sys2Proof.Proofs
